-- ==== Sys2Proof/Word.lean ====
section
/-! DEFINITION. The words of the softviterbi CORE and the metric values (spec/00_scope.md R11, R13). -/

namespace Sys2Proof

/-- A command word or a response word: 32 bits, handed over whole (20_memory.md R69, 30_encoding.md R90, R91). -/
abbrev Word := BitVec 32

/-- The payload of a command word, and the container of every register of `K_MAX` bits: 28 bits, the upper
bound of `K_MAX` (00_scope.md R8, 30_encoding.md R92). The bits at and above `K_MAX` are 0 in every reachable
state (log 2). -/
abbrev KWord := BitVec 28

/-- One soft value, 0 to 255 (20_memory.md R66). -/
abbrev Byte := BitVec 8

/-- A path metric: a natural number or `INF` (00_scope.md R13). The word width `PMW` only bounds the naturals
that occur (10_state.md R38, log 7). -/
inductive Metric where
  /-- A finite metric. -/
  | fin (n : Nat)
  /-- The "infeasible" metric, greater than every natural. -/
  | inf
  deriving DecidableEq, Repr, Inhabited

end Sys2Proof
end

