-- ==== Sys2Proof/Machine/Bits.lean ====
section
/-! DEFINITION. The functions of 00_scope.md R12 on naturals, and metric addition and order (R13). -/

namespace Sys2Proof

/-- `bitlen(x)`: the least `n` with `x < 2^n` (R12). -/
def bitlen (x : Nat) : Nat := if x = 0 then 0 else Nat.log2 x + 1

/-- The exclusive or of bits `n-1..0` of `x`. -/
def parityBelow : Nat → Nat → Bool
  | 0, _ => false
  | n + 1, x => x.testBit n ^^ parityBelow n x

/-- `parity(x)`: the exclusive or of all bits of `x` (R12). -/
def parity (x : Nat) : Bool := parityBelow (bitlen x) x

/-- `bitrev_K(x)`: the `K`-bit word whose bit `i` is bit `K-1-i` of `x` (R12). -/
def bitrev : Nat → Nat → Nat
  | 0, _ => 0
  | n + 1, x => (x.testBit 0).toNat * 2 ^ n + bitrev n (x / 2)

/-- `absdiff(a, b)` (R12). -/
def absdiff (a b : Nat) : Nat := if b ≤ a then a - b else b - a

/-- `m (+) x`, with `INF` absorbing (R13). -/
def Metric.add : Metric → Nat → Metric
  | .fin m, x => .fin (m + x)
  | .inf, _ => .inf

/-- The order of metrics: the naturals, all of them below `INF`; two `INF` values tie (R13). -/
def Metric.lt : Metric → Metric → Bool
  | .fin a, .fin b => a < b
  | .fin _, .inf => true
  | .inf, _ => false

/-- The word of `PMW` bits that stands for a metric: the all-ones word for `INF` (10_state.md R38). -/
def Metric.toWord (pmw : Nat) : Metric → BitVec pmw
  | .fin m => BitVec.ofNat pmw m
  | .inf => BitVec.allOnes pmw

/-- The metric a word of `PMW` bits stands for (10_state.md R38). -/
def Metric.ofWord (pmw : Nat) (w : BitVec pmw) : Metric :=
  if w = BitVec.allOnes pmw then .inf else .fin w.toNat

end Sys2Proof
end

