-- ==== Sys2Proof/Config.lean ====
section
/-! DEFINITION. What an implementation fixes (the four build parameters of 00_scope.md R8), the constants of R9,
and the free values that stand for unspecified contents (93_implementation_defined.md U1). -/

namespace Sys2Proof

/-- The four capacity parameters of the block (00_scope.md R8, 92_eei_decisions.md D11). -/
structure Params where
  /-- `K_MAX`, the largest constraint length. -/
  kMax : Nat
  /-- `N_MAX`, the largest number of trellis steps of one decode call. -/
  nMax : Nat
  /-- `NODE_MAX`, the survivor memory's capacity in decision bits. -/
  nodeMax : Nat
  /-- `PMW`, the width in bits of one path-metric word. -/
  pmw : Nat
  deriving DecidableEq, Repr

/-- The constraints of 00_scope.md R8: the hypotheses on a choice of parameters (U5). -/
abbrev Params.Valid (p : Params) : Prop :=
  24 ≤ p.kMax ∧ p.kMax ≤ 28 ∧ 1 ≤ p.nMax ∧ 4080 * p.nMax < 2 ^ p.pmw - 1 ∧ 16 * p.nMax < 2 ^ 27 ∧
    2 ^ p.kMax ≤ p.nodeMax ∧ 13 ≤ p.pmw

/-- The defaults of 00_scope.md R8. -/
def Params.defaults : Params := { kMax := 24, nMax := 1048576, nodeMax := 67108864, pmw := 32 }

/-- The most polynomials a configuration may have, and the number of `POLY`, `SPOLY` and `OBS` registers
(00_scope.md R9). -/
abbrev maxPolys : Nat := 16

/-- One choice of contents for the storage that 93_implementation_defined.md U1 leaves unspecified, before it is cut
to the widths of that storage. -/
structure Unspec where
  /-- `OBS[i]`. -/
  obs : Nat → Byte
  /-- `PM[s]`. -/
  pm : Nat → Metric
  /-- `SURV[c][s]`. -/
  surv : Nat → Nat → Bool
  /-- `TB_S`. -/
  tbS : KWord
  /-- `TB_C`. -/
  tbC : Nat
  /-- `TBBUF[c]`. -/
  tbBuf : Nat → Bool
  deriving Inhabited

/-- The unspecified contents in a given epoch: a free value, of which nothing is known (U1, "any value").
An epoch is the time between two events that leave the contents unspecified (log 3, log 5). -/
opaque Config.unspec : Nat → Unspec

end Sys2Proof
end

