-- ==== Sys2Proof/Syntax.lean ====
section
/-! DEFINITION. The thirteen commands of the block, one constructor a row of spec/opcode_table.json
(30_encoding.md R94). Each operand has exactly the width of its field (R92, R93), so every term is an encodable
command; the check that an assembler operand fits its field (R98) is in WellFormed.lean. -/

namespace Sys2Proof

/-- A command: what the block executes. -/
inductive Instr where
  /-- `CCLR`, clear staging (R121). -/
  | cclr
  /-- `CPOLY p`, stage a polynomial (R122). -/
  | cpoly (p : BitVec 28)
  /-- `CREV b`, stage the reversed-polynomial flag (R123). -/
  | crev (b : Bool)
  /-- `CCOMMIT`, construct the configuration (R124). -/
  | ccommit
  /-- `ESTART`, open an encode call (R141). -/
  | estart
  /-- `EBIT b`, encode one input bit (R142). -/
  | ebit (b : Bool)
  /-- `EEND`, close the encode call (R143). -/
  | eend
  /-- `DHBIT b`, append one bit to the final-state hint (R161). -/
  | dhbit (b : Bool)
  /-- `DSTART L` (`h` false) or `DSTART L, HINT` (`h` true), open a decode call (R162). -/
  | dstart (h : Bool) (l : BitVec 27)
  /-- `DSOFT o`, one soft value (R164). -/
  | dsoft (o : BitVec 8)
  /-- `DEND`, finish the decode call (R190). -/
  | dend
  /-- `STAT`, read the status word (R210). -/
  | stat
  /-- `SRST`, reset the block (R211). -/
  | srst
  deriving DecidableEq, Repr

end Sys2Proof
end

