-- ==== Sys2Proof/WellFormed.lean ====
section
/-! DEFINITION. An assembler command with its operands as the assembler reads them (unbounded numbers), and the
check that each operand fits its field (30_encoding.md R98: an operand that does not fit "is an assembly error,
not an encoding"; 93_implementation_defined.md U7). -/

namespace Sys2Proof

/-- A command as it is written, with numbers for operands (30_encoding.md R98). -/
inductive Asm where
  | cclr
  | cpoly (p : Nat)
  | crev (b : Nat)
  | ccommit
  | estart
  | ebit (b : Nat)
  | eend
  | dhbit (b : Nat)
  | dstart (l : Nat) (hint : Bool)
  | dsoft (o : Nat)
  | dend
  | stat
  | srst
  deriving DecidableEq, Repr

/-- Every operand fits its field (30_encoding.md R98). -/
def Asm.wellFormed : Asm → Bool
  | .cpoly p => p < 2 ^ 28
  | .crev b => b ≤ 1
  | .ebit b => b ≤ 1
  | .dhbit b => b ≤ 1
  | .dstart l _ => l < 2 ^ 27
  | .dsoft o => o ≤ 255
  | .cclr => true
  | .ccommit => true
  | .estart => true
  | .eend => true
  | .dend => true
  | .stat => true
  | .srst => true

/-- A command written out for the assembler. -/
def Instr.toAsm : Instr → Asm
  | .cclr => .cclr
  | .cpoly p => .cpoly p.toNat
  | .crev b => .crev b.toNat
  | .ccommit => .ccommit
  | .estart => .estart
  | .ebit b => .ebit b.toNat
  | .eend => .eend
  | .dhbit b => .dhbit b.toNat
  | .dstart h l => .dstart l.toNat h
  | .dsoft o => .dsoft o.toNat
  | .dend => .dend
  | .stat => .stat
  | .srst => .srst

/-- A command is well-formed when what the assembler would be given for it is: true of every `Instr`, since the
operand types have the widths of the fields (Laws/Encoding.lean). -/
def Instr.wellFormed (i : Instr) : Bool := i.toAsm.wellFormed

end Sys2Proof
end

