-- ==== Sys2Proof/Decode.lean ====
section
/-! DEFINITION. The command word: fields, decoder, encoder, and the opcode table as mask and match
(30_encoding.md R90 to R97). -/

namespace Sys2Proof

/-- Why a word is no command (30_encoding.md R95; 60_exceptions.md R253 (a) and (b)). -/
inductive IllegalWord where
  /-- The opcode is 0x0, 0xE or 0xF. -/
  | reservedOpcode (op : BitVec 4)
  /-- The opcode is assigned and a reserved payload bit is 1. -/
  | reservedBit (op : BitVec 4)
  deriving DecidableEq, Repr

/-- `op`, bits 31:28 (R90). -/
def opField (w : Word) : BitVec 4 := w.extractLsb' 28 4

/-- `payload`, bits 27:0 (R90). -/
def payload (w : Word) : BitVec 28 := w.extractLsb' 0 28

/-- Format `Z`: bits 27:0 must be 0 (R92). -/
def decodeZ (w : Word) (i : Instr) : Except IllegalWord Instr :=
  if payload w = 0 then .ok i else .error (.reservedBit (opField w))

/-- Format `B`: bit 0 is the operand, bits 27:1 must be 0 (R92). -/
def decodeB (w : Word) (mk : Bool → Instr) : Except IllegalWord Instr :=
  if w.extractLsb' 1 27 = 0 then .ok (mk (w.getLsbD 0)) else .error (.reservedBit (opField w))

/-- Format `O`: bits 7:0 are the operand, bits 27:8 must be 0 (R92). -/
def decodeO (w : Word) (mk : BitVec 8 → Instr) : Except IllegalWord Instr :=
  if w.extractLsb' 8 20 = 0 then .ok (mk (w.extractLsb' 0 8)) else .error (.reservedBit (opField w))

/-- Format `L`: bit 27 is the hint-given flag, bits 26:0 the count (R92). -/
def decodeL (w : Word) (mk : Bool → BitVec 27 → Instr) : Except IllegalWord Instr :=
  .ok (mk (w.getLsbD 27) (w.extractLsb' 0 27))

/-- The decoder of R94: the opcode first, then the reserved bits of the format, then the operand (R93). Total
on every word; a word that is no command is refused by name. -/
def decode (w : Word) : Except IllegalWord Instr :=
  match (opField w).toNat with
  | 0x1 => decodeZ w .cclr
  | 0x2 => .ok (.cpoly (payload w))
  | 0x3 => decodeB w .crev
  | 0x4 => decodeZ w .ccommit
  | 0x5 => decodeZ w .estart
  | 0x6 => decodeB w .ebit
  | 0x7 => decodeZ w .eend
  | 0x8 => decodeB w .dhbit
  | 0x9 => decodeL w .dstart
  | 0xA => decodeO w .dsoft
  | 0xB => decodeZ w .dend
  | 0xC => decodeZ w .stat
  | 0xD => decodeZ w .srst
  | _ => .error (.reservedOpcode (opField w))

/-- The word of a command (R92, R94): opcode, reserved zeros, operand. -/
def encode : Instr → Word
  | .cclr => 0x1#4 ++ 0#28
  | .cpoly p => 0x2#4 ++ p
  | .crev b => 0x3#4 ++ (0#27 ++ BitVec.ofBool b)
  | .ccommit => 0x4#4 ++ 0#28
  | .estart => 0x5#4 ++ 0#28
  | .ebit b => 0x6#4 ++ (0#27 ++ BitVec.ofBool b)
  | .eend => 0x7#4 ++ 0#28
  | .dhbit b => 0x8#4 ++ (0#27 ++ BitVec.ofBool b)
  | .dstart h l => 0x9#4 ++ (BitVec.ofBool h ++ l)
  | .dsoft o => 0xA#4 ++ (0#20 ++ o)
  | .dend => 0xB#4 ++ 0#28
  | .stat => 0xC#4 ++ 0#28
  | .srst => 0xD#4 ++ 0#28

/-- A row of opcode_table.json: a word `w` is the command of the row exactly when `w & mask = pattern` (R94). -/
structure OpcodeRow where
  mnemonic : String
  pattern : Word
  mask : Word
  deriving DecidableEq, Repr

/-- `w` is a command of the row (R94). -/
def OpcodeRow.accepts (r : OpcodeRow) (w : Word) : Bool := w &&& r.mask == r.pattern

/-- opcode_table.json, row by row. -/
def opcodeTable : List OpcodeRow :=
  [⟨"CCLR", 0x10000000, 0xFFFFFFFF⟩,
   ⟨"CPOLY", 0x20000000, 0xF0000000⟩,
   ⟨"CREV", 0x30000000, 0xFFFFFFFE⟩,
   ⟨"CCOMMIT", 0x40000000, 0xFFFFFFFF⟩,
   ⟨"ESTART", 0x50000000, 0xFFFFFFFF⟩,
   ⟨"EBIT", 0x60000000, 0xFFFFFFFE⟩,
   ⟨"EEND", 0x70000000, 0xFFFFFFFF⟩,
   ⟨"DHBIT", 0x80000000, 0xFFFFFFFE⟩,
   ⟨"DSTART", 0x90000000, 0xF0000000⟩,
   ⟨"DSOFT", 0xA0000000, 0xFFFFFF00⟩,
   ⟨"DEND", 0xB0000000, 0xFFFFFFFF⟩,
   ⟨"STAT", 0xC0000000, 0xFFFFFFFF⟩,
   ⟨"SRST", 0xD0000000, 0xFFFFFFFF⟩]

/-- The mnemonic of a command (R94). -/
def Instr.mnemonic : Instr → String
  | .cclr => "CCLR"
  | .cpoly _ => "CPOLY"
  | .crev _ => "CREV"
  | .ccommit => "CCOMMIT"
  | .estart => "ESTART"
  | .ebit _ => "EBIT"
  | .eend => "EEND"
  | .dhbit _ => "DHBIT"
  | .dstart _ _ => "DSTART"
  | .dsoft _ => "DSOFT"
  | .dend => "DEND"
  | .stat => "STAT"
  | .srst => "SRST"

/-- The command whose table word is `w`, numbered as opcode_table.json numbers its bits; every bit at and above
`nbits` is 0. Words are handed over whole, so no byte order enters (R69). -/
def decodeTableWord (nbits w : Nat) : Option Instr :=
  match decode (BitVec.ofNat 32 (w % 2 ^ nbits)) with
  | .ok i => some i
  | .error _ => none

end Sys2Proof
end

