-- ==== Sys2Proof/Machine/State.lean ====
section
/-! DEFINITION. The state of the block as plain data (10_state.md R20 to R48), the reasons a step can stop, and
the state after power-on (70_reset_and_hazards.md R280). -/

namespace Sys2Proof.Machine

/-- The status codes of a response word (60_exceptions.md R250). -/
inductive Status where
  | ok
  | invalidConfiguration
  | invalidInput
  | protocol
  | capacity
  deriving DecidableEq, Repr

/-- `ENC_ST` (10_state.md R33). -/
inductive EncSt where
  | idle
  | active
  deriving DecidableEq, Repr

/-- `DEC_ST` (10_state.md R35). -/
inductive DecSt where
  | idle
  | run
  deriving DecidableEq, Repr

/-- An internal memory (20_memory.md R60): pairs of an index and a word, indexes strictly rising. An index that
is not listed holds unspecified contents (93_implementation_defined.md U1, log 3). -/
abbrev Memory (α : Type) := List (Nat × α)

/-- The active configuration (10_state.md R24 to R28). -/
structure ActiveConfig where
  /-- `CFG_VALID`. -/
  cfgValid : Bool
  /-- `NPOLY`, the number of polynomials `k`. -/
  nPoly : Nat
  /-- `POLY[0..15]`. -/
  poly : Vector KWord 16
  /-- `REV`. -/
  rev : Bool
  /-- `K`, the constraint length. -/
  K : Nat
  deriving DecidableEq, Repr

/-- The configuration staging registers (10_state.md R29 to R32). -/
structure Staging where
  /-- `SP_COUNT`. -/
  spCount : Nat
  /-- `SPOLY[0..15]`. -/
  sPoly : Vector KWord 16
  /-- `SREV`. -/
  sRev : Bool
  /-- `SP_OVF`. -/
  spOvf : Bool
  deriving DecidableEq, Repr

/-- The encoder engine (10_state.md R33, R34). -/
structure Encoder where
  /-- `ENC_ST`. -/
  encSt : EncSt
  /-- `R`, the shift register. -/
  R : KWord
  deriving DecidableEq, Repr

/-- The decoder engine and its ACS unit (10_state.md R35 to R40). -/
structure Decoder where
  /-- `DEC_ST`. -/
  decSt : DecSt
  /-- `N_REG`, the number of trellis steps of the open call. -/
  nReg : Nat
  /-- `C`, the number of columns completed. -/
  C : Nat
  /-- `G`, the number of soft values of the current group already received. -/
  G : Nat
  /-- `OBS[0..15]`. -/
  obs : Vector Byte 16
  /-- `PM`: the listed words are `PM[0]`, `PM[1]`, …; a word past the list holds unspecified contents. -/
  pm : List Metric
  /-- `SURV`: at index `c` the bits `SURV[c][0]`, `SURV[c][1]`, …; a bit not listed is unspecified. -/
  surv : Memory (List Bool)
  /-- `HINT`. -/
  hint : KWord
  /-- `HLEN`. -/
  hLen : Nat
  /-- `HINT_EN`. -/
  hintEn : Bool
  /-- `FSTATE`. -/
  fState : KWord
  deriving DecidableEq, Repr

/-- The traceback unit (10_state.md R41). -/
structure Traceback where
  /-- `TB_S`, the state the walk is at. -/
  tbS : KWord
  /-- `TB_C`, the column the walk is at. -/
  tbC : Nat
  /-- `TBBUF`, the decoded bit of each column. -/
  tbBuf : Memory Bool
  deriving DecidableEq, Repr

/-- The whole state (10_state.md R20, R21). -/
structure State where
  /-- The build parameters; no command writes them (log 1). -/
  params : Params
  /-- The active configuration. -/
  cfg : ActiveConfig
  /-- The staging registers. -/
  stg : Staging
  /-- The encoder engine. -/
  enc : Encoder
  /-- The decoder engine. -/
  dec : Decoder
  /-- The traceback unit. -/
  tb : Traceback
  /-- `ERRFLAGS` (10_state.md R42). -/
  errFlags : BitVec 4
  /-- `CMD`: the words presented and not yet taken, oldest first (log 8). -/
  cmd : List Word
  /-- The reset input (70_reset_and_hazards.md R280, log 9). -/
  resetIn : Bool
  /-- `RSP`, oldest word first. -/
  rsp : List Word
  /-- `ENC_OUT`, oldest bit first. -/
  encOut : List Bool
  /-- `DEC_OUT`, oldest bit first. -/
  decOut : List Bool
  /-- The model's own: which free value the unspecified contents have (log 5). -/
  epoch : Nat
  deriving DecidableEq, Repr

/-- Why the machine stops with a fault: never. "Every one of the 2^32 words has a defined effect in every state"
(30_encoding.md R96), and a rejection is a next state (60_exceptions.md R255), so there is no constructor. -/
inductive Fault where
  deriving DecidableEq, Repr

/-- Why a step is refused. -/
inductive Refusal where
  /-- Raised by the dispatcher alone, for a command that has no meaning yet; safe. No arm raises it: every
  command is modelled. -/
  | notModelled (mnemonic : String)
  deriving DecidableEq, Repr

/-- Sixteen registers of zeros. -/
def zeros16 (n : Nat) : Vector (BitVec n) 16 := #v[0, 0, 0, 0, 0, 0, 0, 0, 0, 0, 0, 0, 0, 0, 0, 0]

/-- The state after power-on: every register at the value of 10_state.md R44 and 70_reset_and_hazards.md R280.
`OBS`, `TB_S`, `TB_C` have no value there: 0, DESIGN CHOICE (log 4). `PM`, `SURV`, `TBBUF` list nothing (log 3). The
channels are empty and the parameters are the defaults of 00_scope.md R8 (log 1). -/
def State.reset : State where
  params := .defaults
  cfg := { cfgValid := false, nPoly := 0, poly := zeros16 28, rev := false, K := 0 }
  stg := { spCount := 0, sPoly := zeros16 28, sRev := false, spOvf := false }
  enc := { encSt := .idle, R := 0 }
  dec := { decSt := .idle, nReg := 0, C := 0, G := 0, obs := zeros16 8, pm := [], surv := [], hint := 0,
           hLen := 0, hintEn := false, fState := 0 }
  tb := { tbS := 0, tbC := 0, tbBuf := [] }
  errFlags := 0
  cmd := []
  resetIn := false
  rsp := []
  encOut := []
  decOut := []
  epoch := 0

end Sys2Proof.Machine
end

