-- ==== Sys2Proof/Machine/Flags.lean ====
section
/-! DEFINITION. The status codes, `ERRFLAGS` and the status word (60_exceptions.md R250, 10_state.md R42,
44_system.md R210). -/

namespace Sys2Proof.Machine

/-- The value of `code` (60_exceptions.md R250). -/
def statusCode : Status → BitVec 4
  | .ok => 0
  | .invalidConfiguration => 1
  | .invalidInput => 2
  | .protocol => 3
  | .capacity => 4

/-- `ERRFLAGS[code - 1]` as a mask; no bit for `OK` (10_state.md R42). -/
def errBit : Status → BitVec 4
  | .ok => 0b0000
  | .invalidConfiguration => 0b0001
  | .invalidInput => 0b0010
  | .protocol => 0b0100
  | .capacity => 0b1000

/-- The 28-bit status word of `STAT` (44_system.md R210): bits 27:19 zero, 18 `REV`, 17:13 `NPOLY`, 12:8 `K`,
7:4 `ERRFLAGS`, 3 zero, 2 `DEC_ST`, 1 `ENC_ST`, 0 `CFG_VALID`. -/
def statusWord (s : State) : BitVec 28 :=
  0#9 ++ BitVec.ofBool s.cfg.rev ++ BitVec.ofNat 5 s.cfg.nPoly ++ BitVec.ofNat 5 s.cfg.K ++ s.errFlags ++ 0#1 ++
    BitVec.ofBool (s.dec.decSt == .run) ++ BitVec.ofBool (s.enc.encSt == .active) ++ BitVec.ofBool s.cfg.cfgValid

end Sys2Proof.Machine
end

