-- ==== Sys2Proof/Machine/Ops.lean ====
section
/-! DEFINITION. The named operations over the state: internal memories and register files, the output channels,
responding and rejecting (the block's only exception entry, 60_exceptions.md R255, R259; there is no return from it,
R260), taking a command, reset, and release of the decoder arrays. -/

namespace Sys2Proof.Machine

/-- The word at index `a`, if it has been written (20_memory.md R79). -/
def Memory.read? {α : Type} : Memory α → Nat → Option α
  | [], _ => none
  | (b, v) :: m, a => if a = b then some v else Memory.read? m a

/-- Writes the word at index `a`, keeping the indexes strictly rising. -/
def Memory.write {α : Type} : Memory α → Nat → α → Memory α
  | [], a, v => [(a, v)]
  | (b, w) :: m, a, v =>
    if a < b then (a, v) :: (b, w) :: m
    else if a = b then (a, v) :: m
    else (b, w) :: Memory.write m a v

/-- The canonical form of an internal memory: indexes strictly rising. -/
abbrev Memory.wf {α : Type} (m : Memory α) : Prop := m.Pairwise (fun x y => x.1 < y.1)

/-- Register `i` of a file of sixteen; 0 past the end (no rule reads there). -/
def readReg {n : Nat} (v : Vector (BitVec n) 16) (i : Nat) : BitVec n := v[i]?.getD 0

/-- Writes register `i` of a file of sixteen. -/
def writeReg {n : Nat} (v : Vector (BitVec n) 16) (i : Nat) (x : BitVec n) : Vector (BitVec n) 16 := v.setIfInBounds i x

/-- A file of sixteen registers, register by register. -/
def regFile {n : Nat} (f : Nat → BitVec n) : Vector (BitVec n) 16 :=
  #v[f 0, f 1, f 2, f 3, f 4, f 5, f 6, f 7, f 8, f 9, f 10, f 11, f 12, f 13, f 14, f 15]

/-- `emit ENC_OUT(b)` for each bit in order (00_scope.md R15). -/
def emitEnc (bits : List Bool) (s : State) : State := { s with encOut := s.encOut ++ bits }

/-- `emit DEC_OUT(b)` for each bit in order (00_scope.md R15). -/
def emitDec (bits : List Bool) (s : State) : State := { s with decOut := s.decOut ++ bits }

/-- The response word `{code, info}` (30_encoding.md R91). -/
def respWord (code : Status) (info : BitVec 28) : Word := statusCode code ++ info

/-- Appends a response word to `RSP`. -/
def pushRsp (w : Word) (s : State) : State := { s with rsp := s.rsp ++ [w] }

/-- `respond(code, info)`: append the response word and end the command (00_scope.md R15). -/
def respond (code : Status) (info : BitVec 28) (s : State) : Host.Outcome State Fault Refusal :=
  .next (pushRsp (respWord code info) s)

/-- `ERRFLAGS[code - 1] <- 1` (00_scope.md R15). -/
def raiseFlag (code : Status) (s : State) : State := { s with errFlags := s.errFlags ||| errBit code }

/-- `reject(code)`: set the sticky flag, respond with the code and `info = 0`, and nothing else
(60_exceptions.md R255). The block's one exception entry; control goes nowhere and no state is saved (R259). -/
def reject (code : Status) (s : State) : Host.Outcome State Fault Refusal := respond code 0 (raiseFlag code s)

/-- A word that is no command, whatever makes it so: `PROTOCOL` (30_encoding.md R95, 44_system.md R212). -/
def illegalWord (_ : IllegalWord) (s : State) : Host.Outcome State Fault Refusal := reject .protocol s

/-- The next command word and the state without it, when the host has presented one (20_memory.md R73, log 8). -/
def takeCommand (s : State) : Option (Word × State) :=
  match s.cmd with
  | [] => none
  | w :: rest => some (w, { s with cmd := rest })

/-- No command is waiting: waiting changes no state (60_exceptions.md R267). -/
def waitForCommand (s : State) : Host.Outcome State Fault Refusal := .next s

/-- The host appends a word to `CMD` (10_state.md R21). -/
def hostSend (w : Word) (s : State) : State := { s with cmd := s.cmd ++ [w] }

/-- The host asserts the reset input at a command boundary (70_reset_and_hazards.md R280). -/
def hostReset (s : State) : State := { s with resetIn := true }

/-- The word is the next the block takes (the host presents it now). -/
def presentWord (w : Word) (s : State) : State := { s with resetIn := false, cmd := w :: s.cmd }

/-- Every register to its reset value; the channels are not rewound and the build parameters stay
(10_state.md R47, 44_system.md R211). The memories list nothing and their contents are unspecified anew (log 5). -/
def resetRegs (s : State) : State :=
  { s with cfg := State.reset.cfg, stg := State.reset.stg, enc := State.reset.enc, dec := State.reset.dec,
           tb := State.reset.tb, errFlags := State.reset.errFlags, epoch := s.epoch + 1 }

/-- The reset event: as `resetRegs`, with no response word (70_reset_and_hazards.md R280). -/
def resetEvent (s : State) : State := resetRegs { s with resetIn := false }

/-- The contents cut to the widths of the storage: `PM` to words of `PMW` bits (10_state.md R38), `TB_S` to `K_MAX` and
`TB_C` to `bitlen(N_MAX)` bits (R41). -/
def Unspec.cut (p : Params) (u : Unspec) : Unspec :=
  { u with
    pm := fun s => Metric.ofWord p.pmw (Metric.toWord p.pmw (u.pm s))
    tbS := BitVec.ofNat 28 (u.tbS.toNat % 2 ^ p.kMax)
    tbC := u.tbC % 2 ^ bitlen p.nMax }

/-- The unspecified contents in an epoch, of a block with these parameters (log 3, log 5). -/
def unspecAt (p : Params) (epoch : Nat) : Unspec := Unspec.cut p (Config.unspec epoch)

/-- Release of the decoder arrays at the end of a call: `PM`, `SURV`, `OBS`, `TBBUF`, `TB_S`, `TB_C` hold
unspecified contents (20_memory.md R63, 43_traceback.md R196, U1; log 5). -/
def releaseDecoder (s : State) : State :=
  let u := unspecAt s.params (s.epoch + 1)
  { s with
    dec := { s.dec with obs := regFile u.obs, pm := [], surv := [] }
    tb := { tbS := u.tbS, tbC := u.tbC, tbBuf := [] }
    epoch := s.epoch + 1 }

end Sys2Proof.Machine
end

