-- ==== Sys2Proof/Machine/Operands.lean ====
section
/-! DEFINITION. The quantities derived from the active configuration (00_scope.md R10, 40_config.md R125 to R128),
the encoder step, the trellis functions, and the reads of the decoder arrays. -/

namespace Sys2Proof.Machine

/-- What the encoder and the decoder need of a configuration: the constraint length and the effective tap masks
`T[0..k-1]` (45_call_contracts.md R220). -/
structure Codec where
  /-- `K`. -/
  K : Nat
  /-- `T[0], …, T[k-1]`. -/
  taps : List Nat
  deriving DecidableEq, Repr

/-- `k`, the number of polynomials. -/
def Codec.k (c : Codec) : Nat := c.taps.length

/-- `S = 2^K`, the state count (40_config.md R126). -/
def Codec.S (c : Codec) : Nat := 2 ^ c.K

/-- `MASK = S - 1`, the state mask (40_config.md R126). -/
def Codec.mask (c : Codec) : Nat := c.S - 1

/-- `T[i]`: the polynomial, or its reversal over exactly `K` bits (40_config.md R128). -/
def effectiveTap (rev : Bool) (K poly : Nat) : Nat := if rev then bitrev K poly else poly

/-- The codec of the active configuration. -/
def ActiveConfig.codec (cfg : ActiveConfig) : Codec where
  K := cfg.K
  taps := (List.range cfg.nPoly).map fun i => effectiveTap cfg.rev cfg.K (readReg cfg.poly i).toNat

/-- `((r << 1) | b) & MASK`: the register after `b` has entered at bit 0 (41_encoder.md R144). -/
def Codec.shift (c : Codec) (r : Nat) (b : Bool) : Nat := ((r <<< 1) ||| b.toNat) &&& c.mask

/-- `parity(sh & T[i])` for `i = 0 .. k-1`: the coded bits of a shifted register (41_encoder.md R144), which are
also the bits expected of a transition into state `sh` (42_decoder_acs.md R172). -/
def Codec.codedBits (c : Codec) (sh : Nat) : List Bool := c.taps.map fun t => parity (sh &&& t)

/-- `enc_step(r, b)` (41_encoder.md R144). -/
def Codec.encStep (c : Codec) (r : Nat) (b : Bool) : Nat × List Bool := (c.shift r b, c.codedBits (c.shift r b))

/-- `pred0(s) = s >> 1` (42_decoder_acs.md R170). -/
def pred0 (s : Nat) : Nat := s >>> 1

/-- `pred1(s) = (s >> 1) | (S >> 1)` (42_decoder_acs.md R170). -/
def Codec.pred1 (c : Codec) (s : Nat) : Nat := (s >>> 1) ||| (c.S >>> 1)

/-- `(s >> 1) | (d << (K-1))`: the predecessor that decision `d` names (10_state.md R39, 43_traceback.md R192). -/
def Codec.predOf (c : Codec) (s : Nat) (d : Bool) : Nat := (s >>> 1) ||| (d.toNat <<< (c.K - 1))

/-- One term of the branch metric: the distance of an observation from the ideal value of the expected bit
(42_decoder_acs.md R171). -/
def softCost (o : Byte) (e : Bool) : Nat := absdiff o.toNat (255 * e.toNat)

/-- `branch_metric(s, OBS)` (42_decoder_acs.md R171). -/
def Codec.branchMetric (c : Codec) (s : Nat) (obs : List Byte) : Nat := (List.zipWith softCost obs (c.codedBits s)).sum

/-- Add, compare and select for state `s`: the surviving metric and the decision, ties to the lower predecessor
(42_decoder_acs.md R165, R173). `pm` reads the old column. -/
def Codec.acsState (c : Codec) (pm : Nat → Metric) (obs : List Byte) (s : Nat) : Metric × Bool :=
  let bm := c.branchMetric s obs
  let c0 := (pm (pred0 s)).add bm
  let c1 := (pm (c.pred1 s)).add bm
  if c1.lt c0 then (c1, true) else (c0, false)

/-- The ACS step: the new column of metrics and its decisions, every state from the old column
(42_decoder_acs.md R165, R174). -/
def Codec.acsStep (c : Codec) (pm : Nat → Metric) (obs : List Byte) : List Metric × List Bool :=
  ((List.range c.S).map fun s => (c.acsState pm obs s).1, (List.range c.S).map fun s => (c.acsState pm obs s).2)

/-- Column 0: state 0 has metric 0, every other state is infeasible (42_decoder_acs.md R163). -/
def Codec.column0 (c : Codec) : List Metric := .fin 0 :: List.replicate (c.S - 1) .inf

/-- The least state of minimal metric: the scan of 43_traceback.md R191. -/
def Codec.leastState (c : Codec) (pm : Nat → Metric) : Nat :=
  (List.range' 1 (c.S - 1)).foldl (fun f s => if (pm s).lt (pm f) then s else f) 0

/-- The staged polynomials `SPOLY[0..SP_COUNT-1]`, in order (10_state.md R30). -/
def Staging.polys (g : Staging) : List KWord := (List.range g.spCount).map (readReg g.sPoly)

/-- The largest of a list of polynomials; 0 for none. -/
def maxPoly (ps : List KWord) : Nat := ps.foldl (fun m p => max m p.toNat) 0

/-- The observations of the current group, `OBS[0..k-1]` (10_state.md R37). -/
def Decoder.group (d : Decoder) (k : Nat) : List Byte := d.obs.toList.take k

/-- `PM[s]`; where it has not been written, unspecified contents (20_memory.md R79, log 3). -/
def Decoder.readPm (u : Unspec) (d : Decoder) (s : Nat) : Metric := d.pm[s]?.getD (u.pm s)

/-- `SURV[c][s]`; where it has not been written, unspecified contents (20_memory.md R79, log 3). -/
def Decoder.readSurv (u : Unspec) (d : Decoder) (c s : Nat) : Bool :=
  ((Memory.read? d.surv c).bind fun col => col[s]?).getD (u.surv c s)

/-- `TBBUF[c]`; where it has not been written, unspecified contents (20_memory.md R79, log 3). -/
def Traceback.readBuf (u : Unspec) (t : Traceback) (c : Nat) : Bool := (Memory.read? t.tbBuf c).getD (u.tbBuf c)

end Sys2Proof.Machine
end

