-- ==== Sys2Proof/Machine/ConfigCmds.lean ====
section
/-! DEFINITION. The configuration commands (spec/40_config.md). -/

namespace Sys2Proof.Machine

/-- `CCLR` (R121). -/
def execCclr (s : State) : Host.Outcome State Fault Refusal :=
  respond .ok 0 { s with stg := { spCount := 0, sPoly := zeros16 28, sRev := false, spOvf := false } }

/-- `CPOLY p` (R122): a seventeenth or later entry is remembered in `SP_OVF` and its value dropped. -/
def execCpoly (p : BitVec 28) (s : State) : Host.Outcome State Fault Refusal :=
  if s.stg.spCount < maxPolys then
    respond .ok 0
      { s with stg := { s.stg with sPoly := writeReg s.stg.sPoly s.stg.spCount p, spCount := s.stg.spCount + 1 } }
  else respond .ok 0 { s with stg := { s.stg with spOvf := true } }

/-- `CREV b` (R123). -/
def execCrev (b : Bool) (s : State) : Host.Outcome State Fault Refusal :=
  respond .ok 0 { s with stg := { s.stg with sRev := b } }

/-- A call is open: the state in which `CCOMMIT` is refused (R124). -/
def callOpen (s : State) : Bool := s.enc.encSt == .active || s.dec.decSt == .run

/-- The staged list is empty, too long or contains a zero (R124; 60_exceptions.md R251). -/
def stagedInvalid (g : Staging) : Bool := g.spCount == 0 || g.spOvf || g.polys.any (· == 0)

/-- The configuration a valid staged list constructs (R124, R125). -/
def builtConfig (g : Staging) : ActiveConfig where
  cfgValid := true
  nPoly := g.spCount
  poly := regFile fun i => if i < g.spCount then readReg g.sPoly i else 0
  rev := g.sRev
  K := bitlen (maxPoly g.polys)

/-- `CCOMMIT` (R124), checks in the order of the rule. -/
def execCcommit (s : State) : Host.Outcome State Fault Refusal :=
  if callOpen s then reject .protocol s
  else if stagedInvalid s.stg then reject .invalidConfiguration s
  else if s.params.kMax < bitlen (maxPoly s.stg.polys) then reject .capacity s
  else respond .ok (BitVec.ofNat 28 (bitlen (maxPoly s.stg.polys))) { s with cfg := builtConfig s.stg }

end Sys2Proof.Machine
end

