-- ==== Sys2Proof/Machine/DecoderCmds.lean ====
section
/-! DEFINITION. The commands of the decoder's forward pass (spec/42_decoder_acs.md). -/

namespace Sys2Proof.Machine

/-- `DHBIT b` (R161). -/
def execDhbit (b : Bool) (s : State) : Host.Outcome State Fault Refusal :=
  if s.dec.decSt = .run then reject .protocol s
  else
    respond .ok 0
      { s with dec := { s.dec with
          hint := BitVec.ofNat 28 (((s.dec.hint.toNat <<< 1) ||| b.toNat) &&& (2 ^ s.params.kMax - 1))
          hLen := min (s.dec.hLen + 1) 31 } }

/-- The staged hint is consumed: `HLEN <- 0; HINT <- 0` (R162). -/
def clearHint (s : State) : State := { s with dec := { s.dec with hLen := 0, hint := 0 } }

/-- A decode call of `n` steps opens: the writes of a successful `DSTART` (R162, R163). -/
def openCall (n : Nat) (h : Bool) (fstate : KWord) (s : State) : State :=
  { s with dec := { s.dec with
      decSt := .run, nReg := n, C := 0, G := 0, hintEn := h, fState := fstate, pm := s.cfg.codec.column0 } }

/-- `DSTART L` and `DSTART L, HINT` (R162), checks in the order of the rule. A rejection keeps the contents of `PM`,
`SURV`, `OBS`, `TBBUF`, `TB_S` and `TB_C`, which U1 and D34 call unspecified then: DESIGN CHOICE (log 6). -/
def execDstart (h : Bool) (l : BitVec 27) (s : State) : Host.Outcome State Fault Refusal :=
  if s.cfg.cfgValid = false ∨ s.dec.decSt = .run then reject .protocol s
  else if l.toNat % s.cfg.nPoly ≠ 0 then reject .invalidInput (clearHint s)
  else if h ∧ s.dec.hLen ≠ s.cfg.K then reject .invalidInput (clearHint s)
  else if s.params.nMax < l.toNat / s.cfg.nPoly ∨ s.params.nodeMax < l.toNat / s.cfg.nPoly * s.cfg.codec.S then
    reject .capacity (clearHint s)
  else
    respond .ok (BitVec.ofNat 28 (l.toNat / s.cfg.nPoly))
      (openCall (l.toNat / s.cfg.nPoly) h (if h then s.dec.hint else 0) (clearHint s))

/-- The ACS step on the decoder's arrays: the whole of `PM` and of `SURV[C+1]` (R165). -/
def acsUpdate (u : Unspec) (cfg : ActiveConfig) (d : Decoder) : Decoder :=
  let col := cfg.codec.acsStep (d.readPm u) (d.group cfg.nPoly)
  { d with pm := col.1, surv := Memory.write d.surv (d.C + 1) col.2 }

/-- `DSOFT o` (R164), with the unspecified contents as an argument. -/
def dsoftWith (u : Unspec) (o : BitVec 8) (s : State) : Host.Outcome State Fault Refusal :=
  if s.dec.decSt = .idle ∨ s.dec.C = s.dec.nReg then reject .protocol s
  else
    let d := { s.dec with obs := writeReg s.dec.obs s.dec.G o }
    if s.dec.G + 1 < s.cfg.nPoly then respond .ok 0 { s with dec := { d with G := s.dec.G + 1 } }
    else respond .ok 0 { s with dec := { acsUpdate u s.cfg d with C := s.dec.C + 1, G := 0 } }

/-- `DSOFT o` (R164). -/
def execDsoft (o : BitVec 8) (s : State) : Host.Outcome State Fault Refusal :=
  dsoftWith (unspecAt s.params s.epoch) o s

end Sys2Proof.Machine
end

