-- ==== Sys2Proof/Machine/EncoderCmds.lean ====
section
/-! DEFINITION. The encoder commands (spec/41_encoder.md). -/

namespace Sys2Proof.Machine

/-- `ESTART` (R141). -/
def execEstart (s : State) : Host.Outcome State Fault Refusal :=
  if s.cfg.cfgValid = false ∨ s.enc.encSt = .active then reject .protocol s
  else respond .ok 0 { s with enc := { R := 0, encSt := .active } }

/-- `EBIT b` (R142): the coded bits of the shifted register in polynomial order, then the register update. -/
def execEbit (b : Bool) (s : State) : Host.Outcome State Fault Refusal :=
  if s.enc.encSt = .idle then reject .protocol s
  else
    let step := s.cfg.codec.encStep s.enc.R.toNat b
    respond .ok 0 { emitEnc step.2 s with enc := { s.enc with R := BitVec.ofNat 28 step.1 } }

/-- `EEND` (R143). -/
def execEend (s : State) : Host.Outcome State Fault Refusal :=
  if s.enc.encSt = .idle then reject .protocol s
  else respond .ok 0 { s with enc := { R := 0, encSt := .idle } }

end Sys2Proof.Machine
end

