-- ==== Sys2Proof/Machine/SystemCmds.lean ====
section
/-! DEFINITION. The system commands (spec/44_system.md). -/

namespace Sys2Proof.Machine

/-- `STAT` (R210). -/
def execStat (s : State) : Host.Outcome State Fault Refusal := respond .ok (statusWord s) s

/-- `SRST` (R211). -/
def execSrst (s : State) : Host.Outcome State Fault Refusal := respond .ok 0 (resetRegs s)

end Sys2Proof.Machine
end

