-- ==== Sys2Proof/Machine/TracebackCmds.lean ====
section
/-! DEFINITION. Termination and traceback (spec/43_traceback.md). -/

namespace Sys2Proof.Machine

/-- `final_state()` (R191): the hinted state, or the least state of minimal metric. -/
def finalState (u : Unspec) (s : State) : Nat :=
  if s.dec.hintEn then s.dec.fState.toNat else s.cfg.codec.leastState (s.dec.readPm u)

/-- One turn of the walk at column `c` (R190, R192, R193): record bit 0 of `TB_S`, then step to the surviving
predecessor, which the old `TB_S` selects. -/
def walkStep (u : Unspec) (s : State) (c : Nat) (t : Traceback) : Traceback where
  tbC := c
  tbBuf := Memory.write t.tbBuf c (t.tbS.getLsbD 0)
  tbS := BitVec.ofNat 28 (s.cfg.codec.predOf t.tbS.toNat (s.dec.readSurv u c t.tbS.toNat))

/-- The walk from column `c` down to column 1 (R192). -/
def walkFrom (u : Unspec) (s : State) : Nat → Traceback → Traceback
  | 0, t => t
  | c + 1, t => walkFrom u s c (walkStep u s (c + 1) t)

/-- The traceback unit at the end of the walk from state `f`. -/
def walked (u : Unspec) (s : State) (f : Nat) : Traceback :=
  walkFrom u s s.dec.nReg { s.tb with tbS := BitVec.ofNat 28 f }

/-- `TBBUF[1], …, TBBUF[N_REG]` in this order (R194). -/
def decodedBits (u : Unspec) (s : State) (f : Nat) : List Bool :=
  (List.range s.dec.nReg).map fun c => (walked u s f).readBuf u (c + 1)

/-- `DEND` (R190), with the unspecified contents as an argument. -/
def dendWith (u : Unspec) (s : State) : Host.Outcome State Fault Refusal :=
  if s.dec.decSt = .idle ∨ s.dec.C ≠ s.dec.nReg then reject .protocol s
  else
    let f := finalState u s
    let t := emitDec (decodedBits u s f) s
    respond .ok (BitVec.ofNat 28 f) (releaseDecoder { t with dec := { t.dec with decSt := .idle } })

/-- `DEND` (R190). -/
def execDend (s : State) : Host.Outcome State Fault Refusal := dendWith (unspecAt s.params s.epoch) s

end Sys2Proof.Machine
end

