-- ==== Sys2Proof/Machine/Dispatch.lean ====
section
/-! DEFINITION. One arm a command. -/

namespace Sys2Proof.Machine

def exec (i : Instr) (s : State) : Host.Outcome State Fault Refusal :=
  match i with
  | .cclr => Sys2Proof.Machine.execCclr s
  | .cpoly p => Sys2Proof.Machine.execCpoly p s
  | .crev b => Sys2Proof.Machine.execCrev b s
  | .ccommit => Sys2Proof.Machine.execCcommit s
  | .estart => Sys2Proof.Machine.execEstart s
  | .ebit b => Sys2Proof.Machine.execEbit b s
  | .eend => Sys2Proof.Machine.execEend s
  | .dhbit b => Sys2Proof.Machine.execDhbit b s
  | .dstart h l => Sys2Proof.Machine.execDstart h l s
  | .dsoft o => Sys2Proof.Machine.execDsoft o s
  | .dend => Sys2Proof.Machine.execDend s
  | .stat => Sys2Proof.Machine.execStat s
  | .srst => Sys2Proof.Machine.execSrst s

end Sys2Proof.Machine
end

