-- ==== Sys2Proof/Machine/Step.lean ====
section
/-! DEFINITION. One step of the block: the reset event where the host has asserted it, else the next command word,
executed to its end (00_scope.md R16). -/

namespace Sys2Proof.Machine

/-- One step. A word is decoded (30_encoding.md R94); a word that is no command is rejected (R95); with no command
waiting nothing changes (60_exceptions.md R267). -/
def step (s : State) : Host.Outcome State Fault Refusal :=
  if s.resetIn then .next (resetEvent s)
  else
    match takeCommand s with
    | none => waitForCommand s
    | some (w, t) =>
      match decode w with
      | .ok i => exec i t
      | .error e => illegalWord e t

/-- The host presents the command of `nbits` bits whose bits are `w`, so that the very next step takes it
(log 8). Every bit at and above `nbits` is 0. -/
def State.withFetchWord (s : State) (nbits w : Nat) : State := presentWord (BitVec.ofNat 32 (w % 2 ^ nbits)) s

end Sys2Proof.Machine
end

