-- ==== Sys2Proof/Machine/Calls.lean ====
section
/-! DEFINITION. The whole-call functions `construct`, `encode`, `decode` (45_call_contracts.md R220 to R222), and the
command sequences that carry them (30_encoding.md R99 to R101). -/

namespace Sys2Proof.Machine

/-- `construct(polys, rev)` (R220). -/
def construct (p : Params) (polys : List KWord) (rev : Bool) : Except Status Codec :=
  if polys = [] ∨ maxPolys < polys.length ∨ (0 : KWord) ∈ polys then .error .invalidConfiguration
  else if p.kMax < bitlen (maxPoly polys) then .error .capacity
  else
    .ok { K := bitlen (maxPoly polys)
          taps := polys.map fun q => effectiveTap rev (bitlen (maxPoly polys)) q.toNat }

/-- The register and the coded bits after the input bits, from register `r` (R221). -/
def Codec.encodeFrom (c : Codec) : Nat → List Bool → Nat × List Bool
  | r, [] => (r, [])
  | r, b :: bs => ((c.encodeFrom (c.shift r b) bs).1, c.codedBits (c.shift r b) ++ (c.encodeFrom (c.shift r b) bs).2)

/-- `encode(cfg, bits)` (R221). -/
def Codec.encode (c : Codec) (bits : List Bool) : List Bool := (c.encodeFrom 0 bits).2

/-- `final_reg(cfg, bits)` (R221). -/
def Codec.finalReg (c : Codec) (bits : List Bool) : Nat := (c.encodeFrom 0 bits).1

/-- `PM[s]` of a column held as a list. -/
def metricAt (pm : List Metric) (s : Nat) : Metric := pm[s]?.getD .inf

/-- `n` ACS steps from a column over the groups of a soft stream: the last column, and the decision columns in
order (R222). -/
def Codec.forward (c : Codec) : Nat → List Metric → List Byte → List Metric × List (List Bool)
  | 0, pm, _ => (pm, [])
  | n + 1, pm, soft =>
    let col := c.acsStep (metricAt pm) (soft.take c.k)
    ((c.forward n col.1 (soft.drop c.k)).1, col.2 :: (c.forward n col.1 (soft.drop c.k)).2)

/-- The walk back from state `s` over the decision columns, newest first, with the bits already read off in `out`
(R222; 43_traceback.md R192 to R194). -/
def Codec.traceback (c : Codec) : List (List Bool) → Nat → List Bool → List Bool
  | [], _, out => out
  | col :: cols, s, out => c.traceback cols (c.predOf s (col[s]?.getD false)) (s.testBit 0 :: out)

/-- The state the walk ends in (43_traceback.md R192). -/
def Codec.walkEnd (c : Codec) : List (List Bool) → Nat → Nat
  | [], s => s
  | col :: cols, s => c.walkEnd cols (c.predOf s (col[s]?.getD false))

/-- `value(hint)`: the list as a binary numeral, first element most significant (R222; 20_memory.md R68). -/
def hintValue (hint : List Bool) : Nat := hint.foldl (fun v b => 2 * v + b.toNat) 0

/-- `N = len(soft) / k` (R222). -/
def Codec.steps (c : Codec) (soft : List Byte) : Nat := soft.length / c.k

/-- The last column of metrics of a decode (R222). -/
def Codec.lastColumn (c : Codec) (soft : List Byte) : List Metric := (c.forward (c.steps soft) c.column0 soft).1

/-- The decision columns `SURV[1..N]` of a decode (R222). -/
def Codec.decisions (c : Codec) (soft : List Byte) : List (List Bool) := (c.forward (c.steps soft) c.column0 soft).2

/-- `final_state(cfg, soft, hint)` (R222). -/
def Codec.finalOf (c : Codec) (soft : List Byte) : Option (List Bool) → Nat
  | some h => hintValue h
  | none => c.leastState (metricAt (c.lastColumn soft))

/-- `final_metric`: `PM[F]` of the last column (R222). -/
def Codec.finalMetric (c : Codec) (soft : List Byte) (hint : Option (List Bool)) : Metric :=
  metricAt (c.lastColumn soft) (c.finalOf soft hint)

/-- The bits of an accepted decode (R222). -/
def Codec.decodeBits (c : Codec) (soft : List Byte) (hint : Option (List Bool)) : List Bool :=
  c.traceback (c.decisions soft).reverse (c.finalOf soft hint) []

/-- A hint was given and its length is not `K` (42_decoder_acs.md R162). -/
def Codec.hintWrong (c : Codec) : Option (List Bool) → Bool
  | some h => h.length != c.K
  | none => false

/-- `decode(cfg, soft, hint)` (R222). -/
def Codec.decode (p : Params) (c : Codec) (soft : List Byte) (hint : Option (List Bool)) : Except Status (List Bool) :=
  if soft.length % c.k ≠ 0 ∨ c.hintWrong hint then .error .invalidInput
  else if p.nMax < c.steps soft ∨ p.nodeMax < c.steps soft * c.S then .error .capacity
  else .ok (c.decodeBits soft hint)

/-- The soft stream of a coded stream without noise: 0 is sent as 0 and 1 as 255 (45_call_contracts.md R224). -/
def noiseless (coded : List Bool) : List Byte := coded.map fun b => if b then 255 else 0

/-- The sum of the branch metrics of the path that the input bits drive from register `r` (42_decoder_acs.md R178). -/
def Codec.pathMetric (c : Codec) : Nat → List Bool → List Byte → Nat
  | _, [], _ => 0
  | r, b :: bs, soft =>
    c.branchMetric (c.shift r b) (soft.take c.k) + c.pathMetric (c.shift r b) bs (soft.drop c.k)

/-- Commands executed one after the other (00_scope.md R16). -/
def execAll : List Instr → State → Host.Outcome State Fault Refusal
  | [], s => .next s
  | i :: is, s =>
    match exec i s with
    | .next t => execAll is t
    | .fault r => .fault r
    | .refused r => .refused r

/-- `CONFIG p0, …` and `CONFIG.REV p0, …` (30_encoding.md R99). -/
def configCmds (polys : List KWord) (rev : Bool) : List Instr :=
  .cclr :: polys.map .cpoly ++ (if rev then [.crev true] else []) ++ [.ccommit]

/-- `ENCODE b0 b1 …` (30_encoding.md R100). -/
def encodeCmds (bits : List Bool) : List Instr := .estart :: bits.map .ebit ++ [.eend]

/-- The part of `DECODE` up to its `DSTART` (30_encoding.md R101). From `2^27` soft values on the count does not fit the
`L` field and goes out modulo `2^27`: DESIGN CHOICE (log 18). -/
def decodeOpenCmds (soft : List Byte) (hint : Option (List Bool)) : List Instr :=
  (hint.getD []).map .dhbit ++ [.dstart hint.isSome (BitVec.ofNat 27 soft.length)]

/-- The part of `DECODE` after an accepted `DSTART` (30_encoding.md R101). -/
def decodeDataCmds (soft : List Byte) : List Instr := soft.map .dsoft ++ [.dend]

/-- The last response is `OK`. -/
def lastOk (s : State) : Bool :=
  match s.rsp.getLast? with
  | some w => w.extractLsb' 28 4 == statusCode .ok
  | none => false

/-- `DECODE o0 …` and `DECODE o0 … ; HINT h0 …`: the data follow only when the `DSTART` response is `OK`
(30_encoding.md R101). For soft lists below `2^27` values; longer ones are log 18. -/
def runDecode (soft : List Byte) (hint : Option (List Bool)) (s : State) : Host.Outcome State Fault Refusal :=
  match execAll (decodeOpenCmds soft hint) s with
  | .next t => if lastOk t then execAll (decodeDataCmds soft) t else .next t
  | .fault r => .fault r
  | .refused r => .refused r

end Sys2Proof.Machine
end

