-- ==== Sys2Proof/Machine/Assembler.lean ====
section
/-! DEFINITION. The assembler syntax and the pseudo-instructions (30_encoding.md R98 to R101): a line of text, the
command or pseudo-instruction it spells, and the commands it stands for. Text is a list of characters. The blanks
and the separators that a line may hold are log 12. -/

namespace Sys2Proof.Machine

/-- The command of a well-formed line; none is an assembly error (R98). -/
def assemble (a : Asm) : Option Instr :=
  if a.wellFormed then
    match a with
    | .cclr => some .cclr
    | .cpoly p => some (.cpoly (BitVec.ofNat 28 p))
    | .crev b => some (.crev (b == 1))
    | .ccommit => some .ccommit
    | .estart => some .estart
    | .ebit b => some (.ebit (b == 1))
    | .eend => some .eend
    | .dhbit b => some (.dhbit (b == 1))
    | .dstart l h => some (.dstart h (BitVec.ofNat 27 l))
    | .dsoft o => some (.dsoft (BitVec.ofNat 8 o))
    | .dend => some .dend
    | .stat => some .stat
    | .srst => some .srst
  else none

/-- The commands of well-formed lines; none as soon as one is an assembly error. -/
def assembleAll : List Asm → Option (List Instr)
  | [] => some []
  | a :: rest =>
    match assemble a, assembleAll rest with
    | some i, some is => some (i :: is)
    | _, _ => none

/-- One line of assembler text. -/
inductive Line where
  /-- Nothing but blanks and a comment. -/
  | blank
  /-- One command (R98). -/
  | cmd (a : Asm)
  /-- `CONFIG` (`rev` false) or `CONFIG.REV` (`rev` true) (R99). -/
  | config (rev : Bool) (polys : List Nat)
  /-- `ENCODE` (R100). -/
  | encode (bits : List Nat)
  /-- `DECODE`, with or without `; HINT` (R101). -/
  | decode (soft : List Nat) (hint : Option (List Nat))
  deriving DecidableEq, Repr

/-- The commands a line stands for: those always sent, and those sent only when the last response to the first
part is `OK` (the data of a `DECODE`, R101). None is an assembly error. -/
def Line.expand : Line → Option (List Instr × List Instr)
  | .blank => some ([], [])
  | .cmd a => (assembleAll [a]).map fun is => (is, [])
  | .config rev ps =>
    (assembleAll (.cclr :: ps.map .cpoly ++ (if rev then [.crev 1] else []) ++ [.ccommit])).map fun is => (is, [])
  | .encode bs => (assembleAll (.estart :: bs.map .ebit ++ [.eend])).map fun is => (is, [])
  | .decode os hint =>
    match assembleAll ((hint.getD []).map .dhbit ++ [.dstart os.length hint.isSome]),
        assembleAll (os.map .dsoft ++ [.dend]) with
    | some first, some rest => some (first, rest)
    | _, _ => none

/-- The words of commands, as the host sends them (30_encoding.md R90). -/
def wordsOf (is : List Instr) : List Word := is.map encode

/-- The value of a digit in any base up to sixteen. -/
def digitValue (ch : Char) : Option Nat :=
  if '0' ≤ ch ∧ ch ≤ '9' then some (ch.toNat - '0'.toNat)
  else if 'a' ≤ ch ∧ ch ≤ 'f' then some (ch.toNat - 'a'.toNat + 10)
  else if 'A' ≤ ch ∧ ch ≤ 'F' then some (ch.toNat - 'A'.toNat + 10)
  else none

/-- A digit string in a base, most significant digit first. -/
def digits (base : Nat) : Nat → List Char → Option Nat
  | v, [] => some v
  | v, ch :: cs =>
    match digitValue ch with
    | some d => if d < base then digits base (v * base + d) cs else none
    | none => none

/-- A number: decimal, or hexadecimal with `0x`, octal with `0o`, binary with `0b` (R98). -/
def number : List Char → Option Nat
  | [] => none
  | '0' :: 'x' :: ch :: cs => digits 16 0 (ch :: cs)
  | '0' :: 'o' :: ch :: cs => digits 8 0 (ch :: cs)
  | '0' :: 'b' :: ch :: cs => digits 2 0 (ch :: cs)
  | ch :: cs => digits 10 0 (ch :: cs)

/-- The text before the `#` that starts a comment (R98). -/
def stripComment (cs : List Char) : List Char := cs.takeWhile (· != '#')

/-- Blanks separate words; a comma and a semicolon are words of their own. The word being read is `w`, last
character first. -/
def tokenize : List Char → List Char → List (List Char)
  | w, [] => if w.isEmpty then [] else [w.reverse]
  | w, ch :: cs =>
    let done := if w.isEmpty then [] else [w.reverse]
    if ch = ' ' ∨ ch = '\t' ∨ ch = '\r' then done ++ tokenize [] cs
    else if ch = ',' ∨ ch = ';' then done ++ [[ch]] ++ tokenize [] cs
    else tokenize (ch :: w) cs

/-- The operands `p0, p1, …` of `CONFIG`, separated by commas (R99); no operand at all is the empty list. -/
def commaNumbers : List (List Char) → Option (List Nat)
  | [] => some []
  | [w] => (number w).map fun n => [n]
  | w :: [','] :: w' :: ws =>
    match number w, commaNumbers (w' :: ws) with
    | some n, some ns => some (n :: ns)
    | _, _ => none
  | _ => none

/-- The operands of `ENCODE` and `DECODE`, separated by blanks (R100, R101). -/
def numbers : List (List Char) → Option (List Nat)
  | [] => some []
  | w :: ws =>
    match number w, numbers ws with
    | some n, some ns => some (n :: ns)
    | _, _ => none

/-- A command without operand. -/
def lineZ (a : Asm) : List (List Char) → Option Line
  | [] => some (.cmd a)
  | _ => none

/-- A command with one number. -/
def line1 (mk : Nat → Asm) : List (List Char) → Option Line
  | [w] => (number w).map fun n => .cmd (mk n)
  | _ => none

/-- `DSTART L` or `DSTART L, HINT` (R98). -/
def lineDstart : List (List Char) → Option Line
  | [w] => (number w).map fun n => .cmd (.dstart n false)
  | [w, [','], ['H', 'I', 'N', 'T']] => (number w).map fun n => .cmd (.dstart n true)
  | _ => none

/-- `DECODE o0 …` or `DECODE o0 … ; HINT h0 …` (R101). -/
def lineDecode (ws : List (List Char)) : Option Line :=
  match ws.span (· != [';']) with
  | (os, []) => (numbers os).map fun n => .decode n none
  | (os, _ :: ['H', 'I', 'N', 'T'] :: hs) =>
    match numbers os, numbers hs with
    | some n, some h => some (.decode n (some h))
    | _, _ => none
  | _ => none

/-- One line of text (R98 to R101); none is an assembly error. -/
def parseLine (text : List Char) : Option Line :=
  match tokenize [] (stripComment text) with
  | [] => some .blank
  | ['C', 'C', 'L', 'R'] :: ws => lineZ .cclr ws
  | ['C', 'P', 'O', 'L', 'Y'] :: ws => line1 .cpoly ws
  | ['C', 'R', 'E', 'V'] :: ws => line1 .crev ws
  | ['C', 'C', 'O', 'M', 'M', 'I', 'T'] :: ws => lineZ .ccommit ws
  | ['E', 'S', 'T', 'A', 'R', 'T'] :: ws => lineZ .estart ws
  | ['E', 'B', 'I', 'T'] :: ws => line1 .ebit ws
  | ['E', 'E', 'N', 'D'] :: ws => lineZ .eend ws
  | ['D', 'H', 'B', 'I', 'T'] :: ws => line1 .dhbit ws
  | ['D', 'S', 'T', 'A', 'R', 'T'] :: ws => lineDstart ws
  | ['D', 'S', 'O', 'F', 'T'] :: ws => line1 .dsoft ws
  | ['D', 'E', 'N', 'D'] :: ws => lineZ .dend ws
  | ['S', 'T', 'A', 'T'] :: ws => lineZ .stat ws
  | ['S', 'R', 'S', 'T'] :: ws => lineZ .srst ws
  | ['C', 'O', 'N', 'F', 'I', 'G'] :: ws => (commaNumbers ws).map (.config false)
  | ['C', 'O', 'N', 'F', 'I', 'G', '.', 'R', 'E', 'V'] :: ws => (commaNumbers ws).map (.config true)
  | ['E', 'N', 'C', 'O', 'D', 'E'] :: ws => (numbers ws).map .encode
  | ['D', 'E', 'C', 'O', 'D', 'E'] :: ws => lineDecode ws
  | _ => none

end Sys2Proof.Machine
end

