-- ==== Sys2Proof/Safety.lean ====
section
/-! DEFINITION. The invariants of the block (10_state.md R45), in the terms the statements use. Each part is a
decidable proposition. -/

namespace Sys2Proof.Machine

/-- The active configuration: item 2 of R45, and all zero while there is none (R24 to R28, R47). -/
abbrev CfgOk (p : Params) (cfg : ActiveConfig) : Prop :=
  (cfg.cfgValid = true →
    1 ≤ cfg.nPoly ∧ cfg.nPoly ≤ 16 ∧ (∀ i < cfg.nPoly, readReg cfg.poly i ≠ 0) ∧
    (∀ i < 16, cfg.nPoly ≤ i → readReg cfg.poly i = 0) ∧
    cfg.K = bitlen (maxPoly cfg.poly.toList) ∧ 1 ≤ cfg.K ∧ cfg.K ≤ p.kMax ∧
    (∀ i < 16, (readReg cfg.poly i).toNat < 2 ^ cfg.K)) ∧
  (cfg.cfgValid = false → cfg = State.reset.cfg)

/-- The staging registers: item 5 of R45, and zero past the staged list (R29 to R32). -/
abbrev StgOk (g : Staging) : Prop :=
  g.spCount ≤ 16 ∧ (g.spOvf = true → g.spCount = 16) ∧ (∀ i < 16, g.spCount ≤ i → readReg g.sPoly i = 0)

/-- The encoder: items 1 and 3 of R45. -/
abbrev EncOk (cfg : ActiveConfig) (e : Encoder) : Prop :=
  (e.encSt = .active → cfg.cfgValid = true ∧ e.R.toNat < 2 ^ cfg.K) ∧ (e.encSt = .idle → e.R = 0)

/-- The decoder's registers in any state: their widths, and the hint being assembled (10_state.md R36, R40). -/
abbrev DecWidths (p : Params) (d : Decoder) : Prop :=
  d.C ≤ d.nReg ∧ d.nReg ≤ p.nMax ∧ d.G ≤ 15 ∧ d.hLen ≤ 31 ∧ d.hint.toNat < 2 ^ min d.hLen p.kMax ∧
    d.fState.toNat < 2 ^ p.kMax ∧ Memory.wf d.surv

/-- `m` is `INF` or at most `n`. -/
def metricAtMost (n : Nat) : Metric → Bool
  | .fin m => m ≤ n
  | .inf => true

/-- Column `C` of an open call: `S` metrics, finite exactly where `C` input bits can lead (42_decoder_acs.md R176),
none above `255 * k * C` (R177). -/
abbrev ColumnOk (cfg : ActiveConfig) (d : Decoder) : Prop :=
  d.pm.length = 2 ^ cfg.K ∧
    ∀ s < 2 ^ cfg.K, (metricAt d.pm s ≠ .inf ↔ s < 2 ^ min d.C cfg.K) ∧
      metricAtMost (255 * cfg.nPoly * d.C) (metricAt d.pm s) = true

/-- Columns 1 to `C` of `SURV` have been written in full (item 4 of R45). -/
abbrev SurvOk (cfg : ActiveConfig) (d : Decoder) : Prop :=
  ∀ c < d.C, (Memory.read? d.surv (c + 1)).map List.length = some (2 ^ cfg.K)

/-- The decoder: items 1 and 4 of R45. -/
abbrev DecOk (p : Params) (cfg : ActiveConfig) (d : Decoder) : Prop :=
  DecWidths p d ∧
  (d.decSt = .run →
    cfg.cfgValid = true ∧ d.nReg * 2 ^ cfg.K ≤ p.nodeMax ∧ d.G < cfg.nPoly ∧ (d.C = d.nReg → d.G = 0) ∧
    d.fState.toNat < 2 ^ cfg.K ∧ ColumnOk cfg d ∧ SurvOk cfg d)

/-- The traceback unit: `TB_S` fits in `K_MAX` bits, `TB_C` in `bitlen(N_MAX)` bits (10_state.md R41), and `TBBUF` is in
canonical form. -/
abbrev TbOk (p : Params) (t : Traceback) : Prop :=
  t.tbS.toNat < 2 ^ p.kMax ∧ t.tbC < 2 ^ bitlen p.nMax ∧ Memory.wf t.tbBuf

/-- Every response word carries a code from 0 to 4, and `info = 0` when the code is not `OK` (30_encoding.md R91). -/
abbrev RspOk (rsp : List Word) : Prop :=
  ∀ w ∈ rsp, (w.extractLsb' 28 4).toNat ≤ 4 ∧ (w.extractLsb' 28 4 ≠ 0 → w.extractLsb' 0 28 = 0)

/-- The invariant of the block at every command boundary (10_state.md R45), with the parameter constraints of
00_scope.md R8 as a part. -/
abbrev Invariant (s : State) : Prop :=
  s.params.Valid ∧ CfgOk s.params s.cfg ∧ StgOk s.stg ∧ EncOk s.cfg s.enc ∧ DecOk s.params s.cfg s.dec ∧
    TbOk s.params s.tb ∧ RspOk s.rsp

/-- The registers that 70_reset_and_hazards.md R280 lists, each at its reset value. -/
abbrev RegistersReset (t : State) : Prop :=
  t.cfg.cfgValid = false ∧ t.cfg.nPoly = 0 ∧ t.cfg.K = 0 ∧ (∀ i < 16, readReg t.cfg.poly i = 0) ∧
    t.cfg.rev = false ∧ t.stg.spCount = 0 ∧ (∀ i < 16, readReg t.stg.sPoly i = 0) ∧ t.stg.sRev = false ∧
    t.stg.spOvf = false ∧ t.enc.encSt = .idle ∧ t.enc.R = 0 ∧ t.dec.decSt = .idle ∧ t.dec.nReg = 0 ∧ t.dec.C = 0 ∧
    t.dec.G = 0 ∧ t.dec.hint = 0 ∧ t.dec.hLen = 0 ∧ t.dec.hintEn = false ∧ t.dec.fState = 0 ∧ t.errFlags = 0

/-- `s` after `respond(OK, info)` (00_scope.md R15), `info` below `2^28`. -/
def acceptedWith (info : Nat) (s : State) : State := { s with rsp := s.rsp ++ [BitVec.ofNat 32 info] }

/-- `s` after `reject(code)` (00_scope.md R15, 60_exceptions.md R255), `code` from 1 to 4. -/
def rejectedWith (code : Nat) (s : State) : State :=
  { s with errFlags := s.errFlags ||| BitVec.ofNat 4 (2 ^ (code - 1)), rsp := s.rsp ++ [BitVec.ofNat 32 (code * 2 ^ 28)] }

/-- The command answers with the code: it appends one response word, that code on top (30_encoding.md R91). -/
def Responds (i : Instr) (s : State) (code : Nat) : Prop :=
  ∃ t info, exec i s = .next t ∧ t.rsp = s.rsp ++ [BitVec.ofNat 32 (code * 2 ^ 28 + info)] ∧ info < 2 ^ 28

/-- The word is no command, and the block rejects it with `PROTOCOL` (30_encoding.md R95). -/
def WordRejected (w : Word) : Prop := ∃ e, decode w = .error e ∧ ∀ s, illegalWord e s = .next (rejectedWith 3 s)

/-- The words with opcode `op`, format `Z`: payload 0 is the command, any other payload is rejected
(30_encoding.md R92, R95). -/
def FormatZ (op : Nat) (i : Instr) : Prop :=
  ∀ w : Word, w.toNat / 2 ^ 28 = op →
    (w.toNat % 2 ^ 28 = 0 → decode w = .ok i) ∧ (w.toNat % 2 ^ 28 ≠ 0 → WordRejected w)

/-- The words with opcode `op`, format `B`: payload 0 or 1 is the operand, any other payload is rejected
(30_encoding.md R92, R95). -/
def FormatB (op : Nat) (mk : Bool → Instr) : Prop :=
  ∀ w : Word, w.toNat / 2 ^ 28 = op →
    (∀ b : Bool, w.toNat % 2 ^ 28 = b.toNat → decode w = .ok (mk b)) ∧ (2 ≤ w.toNat % 2 ^ 28 → WordRejected w)

/-- The words with opcode `op`, format `O`: a payload up to 255 is the operand, any other payload is rejected
(30_encoding.md R92, R95). -/
def FormatO (op : Nat) (mk : BitVec 8 → Instr) : Prop :=
  ∀ w : Word, w.toNat / 2 ^ 28 = op →
    (∀ o : BitVec 8, w.toNat % 2 ^ 28 = o.toNat → decode w = .ok (mk o)) ∧ (256 ≤ w.toNat % 2 ^ 28 → WordRejected w)

/-- The words with opcode `op`, format `P`: every payload is the operand (30_encoding.md R92). -/
def FormatP (op : Nat) (mk : BitVec 28 → Instr) : Prop :=
  ∀ w : Word, w.toNat / 2 ^ 28 = op → ∀ p : BitVec 28, w.toNat % 2 ^ 28 = p.toNat → decode w = .ok (mk p)

/-- The words with opcode `op`, format `L`: every payload is a flag at bit 27 above a count (30_encoding.md R92). -/
def FormatL (op : Nat) (mk : Bool → BitVec 27 → Instr) : Prop :=
  ∀ w : Word, w.toNat / 2 ^ 28 = op → ∀ (h : Bool) (l : BitVec 27),
    w.toNat % 2 ^ 28 = h.toNat * 2 ^ 27 + l.toNat → decode w = .ok (mk h l)

/-- `s` after the staged hint has been cleared (42_decoder_acs.md R162). -/
def hintCleared (s : State) : State := { s with dec := { s.dec with hLen := 0, hint := 0 } }

/-- `T[i]` of the active configuration, from its registers (40_config.md R128). -/
def tapMask (cfg : ActiveConfig) (i : Nat) : Nat :=
  if cfg.rev then bitrev cfg.K (readReg cfg.poly i).toNat else (readReg cfg.poly i).toNat

/-- A command of the encoder engine (41_encoder.md). -/
def isEncoder : Instr → Bool
  | .estart | .ebit _ | .eend => true
  | .cclr | .cpoly _ | .crev _ | .ccommit | .dhbit _ | .dstart _ _ | .dsoft _ | .dend | .stat | .srst => false

/-- A command of the decoder engine (42_decoder_acs.md, 43_traceback.md). -/
def isDecoder : Instr → Bool
  | .dhbit _ | .dstart _ _ | .dsoft _ | .dend => true
  | .cclr | .cpoly _ | .crev _ | .ccommit | .estart | .ebit _ | .eend | .stat | .srst => false

/-- A staging command (40_config.md R121 to R123). -/
def isStaging : Instr → Bool
  | .cclr | .cpoly _ | .crev _ => true
  | .ccommit | .estart | .ebit _ | .eend | .dhbit _ | .dstart _ _ | .dsoft _ | .dend | .stat | .srst => false

/-- The mirrored encoder of 41_encoder.md R147: the new bit enters at bit `K-1` and the register shifts right; the
tap masks are reversed over `K` bits. -/
def mirroredStep (c : Codec) (r : Nat) (b : Bool) : Nat × List Bool :=
  let sh := (r >>> 1) ||| (b.toNat <<< (c.K - 1))
  (sh, c.taps.map fun t => parity (sh &&& bitrev c.K t))

/-- The coded stream of the mirrored encoder from register `r` (41_encoder.md R147). -/
def mirroredFrom (c : Codec) : Nat → List Bool → List Bool
  | _, [] => []
  | r, b :: bs => (mirroredStep c r b).2 ++ mirroredFrom c (mirroredStep c r b).1 bs

/-- The hint that names a state of `K` bits: bit `K-1` first (20_memory.md R68). -/
def hintOf (K s : Nat) : List Bool := (List.range K).map fun j => s.testBit (K - 1 - j)

end Sys2Proof.Machine
end

