-- ==== Sys2Proof/Certificates/Slice0/Obligations.lean ====
section
/-! DEFINITION. The statements about the block, each from a numbered rule of spec/ or derived from it. -/

open Sys2Proof Sys2Proof.Machine

/-! ### Encoding -/

/-- 30_encoding.md section 3: no bit of a command is lost between its word and its decoding. -/
def Obligations.DecodeOfEncodeIsTheCommand : Prop := ∀ i : Instr, decode (encode i) = .ok i

/-- 30_encoding.md sections 1 to 3: a command has one word, so every accepted word is the word of its command. -/
def Obligations.EncodeOfDecodeIsTheWord : Prop := ∀ (w : Word) (i : Instr), decode w = .ok i → encode i = w

/-- 30_encoding.md section 3 (the opcode table): the rows are disjoint, a word is the command of the one row it
matches, and a word that matches no row is no command. -/
def Obligations.WordIsCommandOfTheOneRowItMatches : Prop :=
  ∀ w : Word,
    (∀ i, decode w = .ok i →
      ∃ r ∈ opcodeTable, r.accepts w = true ∧ r.mnemonic = i.mnemonic ∧
        ∀ r' ∈ opcodeTable, r'.accepts w = true → r' = r) ∧
    ((∀ r ∈ opcodeTable, r.accepts w = false) ↔ ∃ e, decode w = .error e)

/-- R95, R212: which words are illegal, and that the block rejects such a word with `PROTOCOL` and no other
change. -/
def Obligations.IllegalWordIsRejectedWithProtocol : Prop :=
  (∀ w : Word,
    (∃ e, decode w = .error e) ↔
      (w.toNat / 2 ^ 28 = 0x0 ∨ w.toNat / 2 ^ 28 = 0xE ∨ w.toNat / 2 ^ 28 = 0xF) ∨
      (w.toNat / 2 ^ 28 ∈ [0x1, 0x4, 0x5, 0x7, 0xB, 0xC, 0xD] ∧ w.toNat % 2 ^ 28 ≠ 0) ∨
      (w.toNat / 2 ^ 28 ∈ [0x3, 0x6, 0x8] ∧ w.toNat % 2 ^ 28 / 2 ≠ 0) ∨
      (w.toNat / 2 ^ 28 = 0xA ∧ w.toNat % 2 ^ 28 / 2 ^ 8 ≠ 0)) ∧
  (∀ (s : State) (w : Word) (rest : List Word) (e : IllegalWord),
    s.resetIn = false → s.cmd = w :: rest → decode w = .error e →
      step s = .next (rejectedWith 3 { s with cmd := rest })) ∧
  (∃ e, decode 0x00000000 = .error e) ∧ (∃ e, decode 0xFFFFFFFF = .error e)

/-- 30_encoding.md section 6 and 95_test_vectors.md section 6: words the spec writes out, one a format and more. -/
def Obligations.WordsOfTheSpecDecode : Prop :=
  decode 0x10000000 = .ok .cclr ∧ decode 0x20000007 = .ok (.cpoly 7) ∧ decode 0x30000001 = .ok (.crev true) ∧
    decode 0x40000000 = .ok .ccommit ∧ decode 0x50000000 = .ok .estart ∧ decode 0x60000001 = .ok (.ebit true) ∧
    decode 0x70000000 = .ok .eend ∧ decode 0x80000000 = .ok (.dhbit false) ∧
    decode 0x9000000C = .ok (.dstart false 12) ∧ decode 0x98000003 = .ok (.dstart true 3) ∧
    decode 0xA00000FF = .ok (.dsoft 255) ∧ decode 0xB0000000 = .ok .dend ∧ decode 0xC0000000 = .ok .stat ∧
    decode 0xD0000000 = .ok .srst

/-- 30_encoding.md section 6: the assembler accepts exactly the operands that fit their fields, gives the command
that was written, and the words are the ones of R98. -/
def Obligations.AssemblerAcceptsExactlyTheFittingOperands : Prop :=
  (∀ a : Asm, assemble a = none ↔ a.wellFormed = false) ∧
  (∀ (a : Asm) (i : Instr), assemble a = some i ↔ i.toAsm = a) ∧
  (∀ p : BitVec 28, (encode (.cpoly p)).toNat = 0x20000000 + p.toNat) ∧
  (∀ b : Bool, (encode (.crev b)).toNat = 0x30000000 + b.toNat ∧ (encode (.ebit b)).toNat = 0x60000000 + b.toNat ∧
    (encode (.dhbit b)).toNat = 0x80000000 + b.toNat) ∧
  (∀ l : BitVec 27, (encode (.dstart false l)).toNat = 0x90000000 + l.toNat ∧
    (encode (.dstart true l)).toNat = 0x98000000 + l.toNat) ∧
  (∀ o : BitVec 8, (encode (.dsoft o)).toNat = 0xA0000000 + o.toNat)

/-! ### The step, reset, and the invariant -/

/-- 20_memory.md section 6: with no reset asserted, a step takes the first word of `CMD` and, where it decodes to a
command, executes it; with no word waiting it changes nothing (the queue of words not yet taken is log 8). -/
def Obligations.StepExecutesTheDecodedCommand : Prop :=
  (∀ (s : State) (w : Word) (rest : List Word) (i : Instr),
    s.resetIn = false → s.cmd = w :: rest → decode w = .ok i → step s = exec i { s with cmd := rest }) ∧
  ∀ s : State, s.resetIn = false → s.cmd = [] → step s = .next s

/-- 70_reset_and_hazards.md section 1: the reset event puts every register it lists to its reset value and rewinds
no output channel. How the reset input is held (`resetIn`), and that the words waiting in `CMD` are kept
(`t.cmd = s.cmd`), are the model's choices, log 9: the spec does not say what becomes of those words. -/
def Obligations.ResetEventWritesEveryListedRegister : Prop :=
  ∀ s : State, s.resetIn = true →
    ∃ t, step s = .next t ∧ RegistersReset t ∧ t.resetIn = false ∧ t.cmd = s.cmd ∧ t.rsp = s.rsp ∧
      t.encOut = s.encOut ∧ t.decOut = s.decOut ∧ t.params = s.params

/-- 70_reset_and_hazards.md section 1: the registers after power-on, the empty channels, and that the block then
waits for the first command. The default parameters are the model's start (log 1). -/
def Obligations.PowerOnStateWaitsWithRegistersReset : Prop :=
  RegistersReset State.reset ∧ State.reset.rsp = [] ∧ State.reset.encOut = [] ∧ State.reset.decOut = [] ∧
    step State.reset = .next State.reset

/-- 10_state.md section 9: the invariant holds after power-on. -/
def Obligations.InvariantHoldsAtReset : Prop := Invariant State.reset

/-- 10_state.md section 9: every step keeps the invariant, from every state that meets it. -/
def Obligations.EveryStepKeepsTheInvariant : Prop := ∀ s t : State, Invariant s → step s = .next t → Invariant t

/-- 30_encoding.md section 4: no word in no state is without a defined effect. -/
def Obligations.EveryStepAnswersANextState : Prop := ∀ s : State, ∃ t, step s = .next t

/-- 30_encoding.md section 1: every command appends exactly one response word; the code is at most 4, the `info` of
a rejection is 0, and only `CCOMMIT`, `DSTART`, `DEND` and `STAT` carry information. -/
def Obligations.EveryCommandGivesExactlyOneResponse : Prop :=
  ∀ (i : Instr) (s : State),
    ∃ t code info, exec i s = .next t ∧ t.rsp = s.rsp ++ [BitVec.ofNat 32 (code * 2 ^ 28 + info)] ∧ code ≤ 4 ∧
      info < 2 ^ 28 ∧ (code ≠ 0 → info = 0) ∧
      (info ≠ 0 → i = .ccommit ∨ (∃ h l, i = .dstart h l) ∨ i = .dend ∨ i = .stat)

/-! ### Configuration commands -/

/-- R121. -/
def Obligations.CclrEmptiesTheStagingList : Prop :=
  FormatZ 0x1 .cclr ∧
  ∀ s : State, ∃ g : Staging,
    exec .cclr s = .next (acceptedWith 0 { s with stg := g }) ∧
      g.spCount = 0 ∧ g.spOvf = false ∧ g.sRev = false ∧ ∀ i < 16, readReg g.sPoly i = 0

/-- R122. -/
def Obligations.CpolyAppendsOrRemembersOverflow : Prop :=
  FormatP 0x2 .cpoly ∧
  ∀ (p : BitVec 28) (s : State),
    (s.stg.spCount < 16 →
      ∃ v, exec (.cpoly p) s =
          .next (acceptedWith 0 { s with stg := { s.stg with sPoly := v, spCount := s.stg.spCount + 1 } }) ∧
        ∀ j < 16, readReg v j = if j = s.stg.spCount then p else readReg s.stg.sPoly j) ∧
    (16 ≤ s.stg.spCount → exec (.cpoly p) s = .next (acceptedWith 0 { s with stg := { s.stg with spOvf := true } }))

/-- R123. -/
def Obligations.CrevStagesTheFlag : Prop :=
  FormatB 0x3 .crev ∧
  ∀ (b : Bool) (s : State),
    exec (.crev b) s = .next (acceptedWith 0 { s with stg := { s.stg with sRev := b } })

/-- R124: the checks in their order, and the configuration constructed; `m` is the largest staged polynomial. -/
def Obligations.CcommitConstructsOrRejects : Prop :=
  FormatZ 0x4 .ccommit ∧
  (∀ s : State, s.enc.encSt = .active ∨ s.dec.decSt = .run → exec .ccommit s = .next (rejectedWith 3 s)) ∧
  ∀ s : State, s.enc.encSt = .idle → s.dec.decSt = .idle →
    ((s.stg.spCount = 0 ∨ s.stg.spOvf = true ∨ ∃ i < s.stg.spCount, readReg s.stg.sPoly i = 0) →
      exec .ccommit s = .next (rejectedWith 1 s)) ∧
    (s.stg.spCount ≠ 0 → s.stg.spOvf = false → (∀ i < s.stg.spCount, readReg s.stg.sPoly i ≠ 0) →
      ∀ m, (∃ i < s.stg.spCount, (readReg s.stg.sPoly i).toNat = m) →
        (∀ i < s.stg.spCount, (readReg s.stg.sPoly i).toNat ≤ m) →
        (s.params.kMax < bitlen m → exec .ccommit s = .next (rejectedWith 4 s)) ∧
        (bitlen m ≤ s.params.kMax →
          ∃ v, exec .ccommit s =
              .next (acceptedWith (bitlen m)
                { s with cfg := { cfgValid := true, nPoly := s.stg.spCount, poly := v, rev := s.stg.sRev, K := bitlen m } }) ∧
            ∀ i < 16, readReg v i = if i < s.stg.spCount then readReg s.stg.sPoly i else 0))

/-- R127: what the registers of a valid configuration satisfy, in every state of the invariant after a
construction that answered `OK`. -/
def Obligations.ConstructedConfigurationIsWithinBounds : Prop :=
  ∀ s t : State, Invariant s → exec .ccommit s = .next t → Responds .ccommit s 0 →
    1 ≤ t.cfg.nPoly ∧ t.cfg.nPoly ≤ 16 ∧ 1 ≤ t.cfg.K ∧
      (∀ i < t.cfg.nPoly, (readReg t.cfg.poly i).toNat < 2 ^ t.cfg.K) ∧
      ∃ i < t.cfg.nPoly, 2 ^ (t.cfg.K - 1) ≤ (readReg t.cfg.poly i).toNat

/-- R128: the tap masks of a valid configuration, bit by bit, for both values of the flag. -/
def Obligations.TapMaskIsThePolynomialOrItsReversal : Prop :=
  ∀ (p : Params) (cfg : ActiveConfig), CfgOk p cfg → cfg.cfgValid = true → ∀ i < cfg.nPoly,
    cfg.codec.taps[i]? = some (tapMask cfg i) ∧ cfg.codec.k = cfg.nPoly ∧
    (cfg.rev = false → tapMask cfg i = (readReg cfg.poly i).toNat) ∧
    (cfg.rev = true → ∀ j,
      (tapMask cfg i).testBit j = (decide (j < cfg.K) && (readReg cfg.poly i).getLsbD (cfg.K - 1 - j))) ∧
    tapMask cfg i ≠ 0 ∧ tapMask cfg i < 2 ^ cfg.K

/-! ### Encoder -/

/-- R141. -/
def Obligations.EstartOpensTheEncodeCall : Prop :=
  FormatZ 0x5 .estart ∧
  ∀ s : State,
    (s.cfg.cfgValid = true → s.enc.encSt = .idle →
      exec .estart s = .next (acceptedWith 0 { s with enc := { R := 0, encSt := .active } })) ∧
    (s.cfg.cfgValid = false ∨ s.enc.encSt = .active → exec .estart s = .next (rejectedWith 3 s))

/-- R142 with the step function R144: the coded bits in polynomial order and the new register. -/
def Obligations.EbitEmitsParitiesAndShifts : Prop :=
  FormatB 0x6 .ebit ∧
  ∀ (b : Bool) (s : State),
    (s.enc.encSt = .idle → exec (.ebit b) s = .next (rejectedWith 3 s)) ∧
    (s.enc.encSt = .active → ∀ sh, sh = ((s.enc.R.toNat <<< 1) ||| b.toNat) &&& (2 ^ s.cfg.K - 1) →
      ∃ e : List Bool,
        exec (.ebit b) s =
          .next (acceptedWith 0 { s with
            enc := { R := BitVec.ofNat 28 sh, encSt := .active }
            encOut := s.encOut ++ e }) ∧
        e.length = s.cfg.nPoly ∧ ∀ i < s.cfg.nPoly, e[i]? = some (parity (sh &&& tapMask s.cfg i)))

/-- R143. -/
def Obligations.EendClosesTheEncodeCall : Prop :=
  FormatZ 0x7 .eend ∧
  ∀ s : State,
    (s.enc.encSt = .active → exec .eend s = .next (acceptedWith 0 { s with enc := { R := 0, encSt := .idle } })) ∧
    (s.enc.encSt = .idle → exec .eend s = .next (rejectedWith 3 s))

/-- 41_encoder.md section 4, flushing: `K` zero bits bring any register to 0; `K - 1` leave only bit `K-1`, which is
the newest bit before the flush (the reading of R145 is log 17). -/
def Obligations.FlushBitsClearTheRegister : Prop :=
  ∀ (c : Codec) (r : Nat), 1 ≤ c.K → r < 2 ^ c.K →
    (c.encodeFrom r (List.replicate c.K false)).1 = 0 ∧
    (c.encodeFrom r (List.replicate (c.K - 1) false)).1 = (r.testBit 0).toNat <<< (c.K - 1)

/-- R146: bit `j` of the register is the input bit `j` steps before the newest, a coded bit is the exclusive or of
the tapped input bits, and the encoder is linear over GF(2). -/
def Obligations.RegisterHoldsTheLastInputBits : Prop :=
  (∀ (c : Codec) (bits : List Bool) (j : Nat),
    (c.finalReg bits).testBit j =
      (decide (j < c.K) && decide (j < bits.length) && (bits[bits.length - 1 - j]?).getD false)) ∧
  (∀ (c : Codec) (bits : List Bool) (b : Bool),
    ∃ e : List Bool, c.encode (bits ++ [b]) = c.encode bits ++ e ∧ e.length = c.taps.length ∧
      ∀ (i t : Nat), c.taps[i]? = some t →
        e[i]? = some ((List.range c.K).foldl
          (fun a j => a ^^ (t.testBit j && ((b :: bits.reverse)[j]?).getD false)) false)) ∧
  (∀ (c : Codec) (xs ys : List Bool), xs.length = ys.length →
    c.encode (List.zipWith xor xs ys) = List.zipWith xor (c.encode xs) (c.encode ys))

/-- R147: the mirrored encoder emits the same coded stream. -/
def Obligations.MirroredEncoderEmitsTheSameStream : Prop :=
  ∀ c : Codec, 1 ≤ c.K → (∀ t ∈ c.taps, t < 2 ^ c.K) →
    (∀ (r : Nat) (b : Bool), r < 2 ^ c.K →
      (mirroredStep c (bitrev c.K r) b).1 = bitrev c.K (c.encStep r b).1 ∧
      (mirroredStep c (bitrev c.K r) b).2 = (c.encStep r b).2) ∧
    ∀ bits : List Bool, mirroredFrom c 0 bits = c.encode bits

/-! ### Decoder, forward pass -/

/-- R161. -/
def Obligations.DhbitAppendsOneHintBit : Prop :=
  FormatB 0x8 .dhbit ∧
  ∀ (b : Bool) (s : State),
    (s.dec.decSt = .run → exec (.dhbit b) s = .next (rejectedWith 3 s)) ∧
    (s.dec.decSt = .idle → s.params.Valid →
      ∃ h : KWord, h.toNat = (2 * s.dec.hint.toNat + b.toNat) % 2 ^ s.params.kMax ∧
        exec (.dhbit b) s =
          .next (acceptedWith 0 { s with dec := { s.dec with hint := h, hLen := min (s.dec.hLen + 1) 31 } }))

/-- 20_memory.md section 2, the hint: from an empty staging, the bits given spell the state number, first bit most
significant. -/
def Obligations.HintBitsSpellTheStateNumber : Prop :=
  (∀ (s : State) (bits : List Bool), s.params.Valid → s.dec.decSt = .idle → s.dec.hLen = 0 → s.dec.hint = 0 →
    bits.length ≤ s.params.kMax →
    ∃ t, execAll (bits.map .dhbit) s = .next t ∧ t.dec.hint.toNat = hintValue bits ∧ t.dec.hLen = bits.length) ∧
  (∀ (bits : List Bool) (j : Nat), j < bits.length → bits[j]? = some ((hintValue bits).testBit (bits.length - 1 - j)))

/-- 42_decoder_acs.md section 2: the checks in their order, and the call that opens with column 0. That `OBS`, `TB_S`, `TB_C` and the
arrays keep their contents over a rejection that has cleared the hint is the model's choice, log 6. -/
def Obligations.DstartChecksAndOpensTheDecodeCall : Prop :=
  FormatL 0x9 .dstart ∧
  ∀ (h : Bool) (l : BitVec 27) (s : State),
    (s.cfg.cfgValid = false ∨ s.dec.decSt = .run → exec (.dstart h l) s = .next (rejectedWith 3 s)) ∧
    (s.cfg.cfgValid = true → s.dec.decSt = .idle →
      (l.toNat % s.cfg.nPoly ≠ 0 ∨ (h = true ∧ s.dec.hLen ≠ s.cfg.K) →
        exec (.dstart h l) s = .next (rejectedWith 2 (hintCleared s))) ∧
      (l.toNat % s.cfg.nPoly = 0 → (h = true → s.dec.hLen = s.cfg.K) → ∀ n, n = l.toNat / s.cfg.nPoly →
        (s.params.nMax < n ∨ s.params.nodeMax < n * 2 ^ s.cfg.K →
          exec (.dstart h l) s = .next (rejectedWith 4 (hintCleared s))) ∧
        (n ≤ s.params.nMax → n * 2 ^ s.cfg.K ≤ s.params.nodeMax →
          ∃ col : List Metric,
            exec (.dstart h l) s =
              .next (acceptedWith n { s with dec := { s.dec with
                decSt := .run, nReg := n, C := 0, G := 0, hintEn := h, fState := (if h then s.dec.hint else 0),
                pm := col, hLen := 0, hint := 0 } }) ∧
            col.length = 2 ^ s.cfg.K ∧ col[0]? = some (.fin 0) ∧
            (∀ x, 1 ≤ x → x < 2 ^ s.cfg.K → col[x]? = some .inf) ∧
            (Invariant s → h = true → s.dec.hint.toNat < 2 ^ s.cfg.K))))

/-- R164: when `DSOFT` is turned away, when it only stores the observation, and that the last soft value of a group
runs the ACS step, which sees it. -/
def Obligations.DsoftTakesOneSoftValue : Prop :=
  FormatO 0xA .dsoft ∧
  ∀ (o : BitVec 8) (s : State),
    (s.dec.decSt = .idle ∨ s.dec.C = s.dec.nReg → exec (.dsoft o) s = .next (rejectedWith 3 s)) ∧
    (s.dec.decSt = .run → s.dec.C ≠ s.dec.nReg →
      ∃ v, (∀ i < 16, readReg v i = if i = s.dec.G then o else readReg s.dec.obs i) ∧
        (s.dec.G + 1 < s.cfg.nPoly →
          exec (.dsoft o) s = .next (acceptedWith 0 { s with dec := { s.dec with obs := v, G := s.dec.G + 1 } })) ∧
        (Invariant s → s.dec.G + 1 = s.cfg.nPoly →
          ∀ col dec, (col, dec) =
              s.cfg.codec.acsStep (metricAt s.dec.pm) ((List.range s.cfg.nPoly).map (readReg v)) →
            exec (.dsoft o) s = .next (acceptedWith 0 { s with dec := { s.dec with
              obs := v, pm := col, surv := Memory.write s.dec.surv (s.dec.C + 1) dec, C := s.dec.C + 1, G := 0 } })))

/-- R165 with R170 to R174, as `DSOFT` runs it on the last soft value of a group (R164): every state of the new column
from the old column, add, compare, select, ties to the lower predecessor. -/
def Obligations.DsoftRunsTheAcsStepOnAFullGroup : Prop :=
  ∀ (o : BitVec 8) (s : State), Invariant s → s.dec.decSt = .run → s.dec.C ≠ s.dec.nReg → s.dec.G + 1 = s.cfg.nPoly →
    ∃ v col dec surv,
      exec (.dsoft o) s = .next (acceptedWith 0 { s with dec := { s.dec with
        obs := v, pm := col, surv := surv, C := s.dec.C + 1, G := 0 } }) ∧
      (∀ i < 16, readReg v i = if i = s.dec.G then o else readReg s.dec.obs i) ∧
      (∀ c, Memory.read? surv c = if c = s.dec.C + 1 then some dec else Memory.read? s.dec.surv c) ∧
      col.length = 2 ^ s.cfg.K ∧ dec.length = 2 ^ s.cfg.K ∧
      ∀ x < 2 ^ s.cfg.K, ∀ bm c0 c1,
        bm = ((List.range s.cfg.nPoly).map fun i =>
          absdiff (readReg v i).toNat (255 * (parity (x &&& tapMask s.cfg i)).toNat)).sum →
        c0 = (metricAt s.dec.pm (x >>> 1)).add bm →
        c1 = (metricAt s.dec.pm ((x >>> 1) ||| (2 ^ s.cfg.K >>> 1))).add bm →
        (c1.lt c0 = true → col[x]? = some c1 ∧ dec[x]? = some true) ∧
        (c1.lt c0 = false → col[x]? = some c0 ∧ dec[x]? = some false)

/-- R170 with R172: the two predecessors of a state are exactly the registers from which one bit leads to it, and the
coded bits of a transition are a function of the state it enters. -/
def Obligations.PredecessorsAreExactlyTheTwoOfTheFormulas : Prop :=
  ∀ c : Codec, 1 ≤ c.K → ∀ s < 2 ^ c.K,
    pred0 s = s >>> 1 ∧ c.pred1 s = (s >>> 1) ||| (2 ^ c.K >>> 1) ∧ pred0 s < c.pred1 s ∧ c.pred1 s < 2 ^ c.K ∧
    (pred0 s).testBit (c.K - 1) = false ∧ (c.pred1 s).testBit (c.K - 1) = true ∧
    (∀ i < c.K - 1, (pred0 s).testBit i = s.testBit (i + 1) ∧ (c.pred1 s).testBit i = s.testBit (i + 1)) ∧
    (∀ r < 2 ^ c.K, ∀ b : Bool, c.shift r b = s ↔ b = s.testBit 0 ∧ (r = pred0 s ∨ r = c.pred1 s)) ∧
    (∀ (r : Nat) (b : Bool), c.shift r b = s → ∀ (i t : Nat), c.taps[i]? = some t →
      (c.encStep r b).2[i]? = some (parity (s &&& t)))

/-- R171: the terms, the range and the complement law of the branch metric. -/
def Obligations.BranchMetricIsBoundedAndComplementary : Prop :=
  (∀ o : Byte, softCost o false = o.toNat ∧ softCost o true = 255 - o.toNat) ∧
  (∀ (c : Codec) (s : Nat) (obs : List Byte), obs.length = c.k →
    c.branchMetric s obs = (List.zipWith softCost obs (c.codedBits s)).sum ∧
    c.branchMetric s obs ≤ 255 * c.k ∧
    c.branchMetric s obs + (List.zipWith softCost obs ((c.codedBits s).map not)).sum = 255 * c.k) ∧
  (∀ c : Codec, c.k ≤ 16 → 255 * c.k ≤ 4080)

/-- R175: the decision depends on the predecessors' metrics alone, and the two states of a butterfly decide alike;
comparing first is the same as adding first. -/
def Obligations.ButterflyStatesDecideAlike : Prop :=
  ∀ (c : Codec) (pm : Nat → Metric) (obs : List Byte), 1 ≤ c.K →
    (∀ s < 2 ^ c.K,
      c.acsState pm obs s =
        ((if (pm (c.pred1 s)).lt (pm (pred0 s)) then pm (c.pred1 s) else pm (pred0 s)).add (c.branchMetric s obs),
          (pm (c.pred1 s)).lt (pm (pred0 s)))) ∧
    ∀ j < 2 ^ (c.K - 1),
      pred0 (2 * j) = j ∧ c.pred1 (2 * j) = j + 2 ^ (c.K - 1) ∧
      pred0 (2 * j + 1) = j ∧ c.pred1 (2 * j + 1) = j + 2 ^ (c.K - 1) ∧
      (c.acsStep pm obs).2[2 * j]? = (c.acsStep pm obs).2[2 * j + 1]?

/-- R176, R177: where a column is finite, how large a finite metric can be, and that no finite metric of an accepted
call is the word that stands for `INF`. -/
def Obligations.ColumnIsFiniteWhereReachableAndBounded : Prop :=
  ∀ (c : Codec) (n : Nat) (soft : List Byte), 1 ≤ c.K → ∀ s < 2 ^ c.K,
    (metricAt (c.forward n c.column0 soft).1 s ≠ .inf ↔ s < 2 ^ min n c.K) ∧
    ∀ m, metricAt (c.forward n c.column0 soft).1 s = .fin m →
      m ≤ 255 * c.k * n ∧
      ∀ p : Params, p.Valid → c.k ≤ 16 → n ≤ p.nMax →
        m ≤ 4080 * p.nMax ∧ Metric.ofWord p.pmw (Metric.toWord p.pmw (.fin m)) = .fin m

/-- R178: a finite metric is the least branch-metric sum over the input sequences that drive the encoder from 0 to the
state; an infeasible state is reached by none. -/
def Obligations.PathMetricIsTheLeastOverInputSequences : Prop :=
  ∀ (c : Codec) (n : Nat) (soft : List Byte), 1 ≤ c.K → ∀ s < 2 ^ c.K,
    (∀ m, metricAt (c.forward n c.column0 soft).1 s = .fin m ↔
      (∃ bits : List Bool, bits.length = n ∧ c.finalReg bits = s ∧ c.pathMetric 0 bits soft = m) ∧
      ∀ bits : List Bool, bits.length = n → c.finalReg bits = s → m ≤ c.pathMetric 0 bits soft) ∧
    (metricAt (c.forward n c.column0 soft).1 s = .inf ↔ ∀ bits : List Bool, bits.length = n → c.finalReg bits ≠ s)

/-! ### Decoder, termination and traceback -/

/-- R190 with R192 to R194: the walk, its bits in forward order, the response with the final state, and the end of the
call. What the released arrays then hold is unspecified (log 5), so the statement is silent about it. -/
def Obligations.DendWalksBackAndEmitsTheBits : Prop :=
  FormatZ 0xB .dend ∧
  (∀ s : State, s.dec.decSt = .idle ∨ s.dec.C ≠ s.dec.nReg → exec .dend s = .next (rejectedWith 3 s)) ∧
  ∀ s : State, Invariant s → s.dec.decSt = .run → s.dec.C = s.dec.nReg →
    ∃ (t : State) (path : Nat → Nat) (d : Nat → Bool),
      exec .dend s = .next t ∧
      (s.dec.hintEn = true → path s.dec.nReg = s.dec.fState.toNat) ∧
      (s.dec.hintEn = false → path s.dec.nReg = s.cfg.codec.leastState (metricAt s.dec.pm)) ∧
      (∀ c, 1 ≤ c → c ≤ s.dec.nReg →
        ((Memory.read? s.dec.surv c).bind fun col => col[path c]?) = some (d c) ∧
        path (c - 1) = (path c >>> 1) ||| ((d c).toNat <<< (s.cfg.K - 1))) ∧
      t.decOut = s.decOut ++ (List.range s.dec.nReg).map (fun c => (path (c + 1)).testBit 0) ∧
      t.rsp = s.rsp ++ [BitVec.ofNat 32 (path s.dec.nReg)] ∧ path s.dec.nReg < 2 ^ 28 ∧
      t.dec.decSt = .idle ∧ t.dec.hint = s.dec.hint ∧ t.dec.hLen = s.dec.hLen ∧
      t.cfg = s.cfg ∧ t.stg = s.stg ∧ t.enc = s.enc ∧ t.errFlags = s.errFlags ∧ t.encOut = s.encOut ∧
      t.cmd = s.cmd ∧ t.resetIn = s.resetIn ∧ t.params = s.params

/-- R191: without a hint the final state is the lowest-numbered of least metric, and it is reachable; with a hint it is
the hinted state. -/
def Obligations.FinalStateIsTheLowestOfLeastMetric : Prop :=
  ∀ (u : Unspec) (s : State), Invariant s → s.dec.decSt = .run →
    (s.dec.hintEn = true → finalState u s = s.dec.fState.toNat) ∧
    (s.dec.hintEn = false →
      finalState u s < 2 ^ s.cfg.K ∧ metricAt s.dec.pm (finalState u s) ≠ .inf ∧
      (∀ x < 2 ^ s.cfg.K, (metricAt s.dec.pm x).lt (metricAt s.dec.pm (finalState u s)) = false) ∧
      ∀ x < finalState u s, (metricAt s.dec.pm (finalState u s)).lt (metricAt s.dec.pm x) = true)

/-- R195: the other reading of the path. The last `min(K, N)` bits are the bits of the final state, and the bit of each
earlier step `c - K` is the decision of column `c`. -/
def Obligations.DecodedBitsAreFinalStateBitsThenDecisions : Prop :=
  ∀ (c : Codec) (cols : List (List Bool)) (f : Nat), 1 ≤ c.K → f < 2 ^ c.K →
    (c.traceback cols.reverse f []).length = cols.length ∧
    (∀ j, j < c.K → j < cols.length →
      (c.traceback cols.reverse f [])[cols.length - 1 - j]? = some (f.testBit j)) ∧
    ∀ n, c.K < n → n ≤ cols.length →
      (c.traceback cols.reverse f [])[n - c.K - 1]? =
        some (((cols[n - 1]?.getD [])[c.walkEnd (cols.reverse.take (cols.length - n)) f]?).getD false)

/-- R197: a hint that names an unreachable state decodes to its low `N` bits, and the walk does not end in 0. -/
def Obligations.UnreachableHintDecodesToItsLowBits : Prop :=
  ∀ (p : Params) (c : Codec) (soft : List Byte) (h : List Bool), 1 ≤ c.K → 1 ≤ c.k → h.length = c.K →
    soft.length % c.k = 0 → c.steps soft ≤ p.nMax → c.steps soft * c.S ≤ p.nodeMax →
    metricAt (c.lastColumn soft) (hintValue h) = .inf →
      c.steps soft < c.K ∧ c.finalOf soft (some h) = hintValue h ∧
      c.decode p soft (some h) =
        .ok ((List.range (c.steps soft)).map fun j => (hintValue h).testBit (c.steps soft - 1 - j)) ∧
      c.walkEnd (c.decisions soft).reverse (hintValue h) = hintValue h >>> c.steps soft ∧
      hintValue h >>> c.steps soft ≠ 0

/-- R79: no command's outcome depends on storage that was not written in the same call: not on the unspecified contents
of `PM`, `SURV` and `TBBUF`, and not on the observation registers at and above `G`. -/
def Obligations.NoCommandReadsUnwrittenStorage : Prop :=
  ∀ s : State, Invariant s → ∀ u u' : Unspec,
    (∀ o : BitVec 8, dsoftWith u o s = dsoftWith u' o s) ∧ dendWith u s = dendWith u' s ∧
    ∀ (o : BitVec 8) (obs' : Vector Byte 16) (t : State),
      (∀ i < s.dec.G, readReg obs' i = readReg s.dec.obs i) → dsoftWith u o s = .next t →
        ∃ t', dsoftWith u' o { s with dec := { s.dec with obs := obs' } } = .next t' ∧
          { t' with dec := { t'.dec with obs := t.dec.obs } } = t

/-! ### System commands -/

/-- R210: the status word, field by field, and that nothing but the response is added. -/
def Obligations.StatReportsTheStatusWord : Prop :=
  FormatZ 0xC .stat ∧
  ∀ s : State, Invariant s →
    exec .stat s = .next (acceptedWith
      (s.cfg.cfgValid.toNat + 2 * (decide (s.enc.encSt = .active)).toNat + 4 * (decide (s.dec.decSt = .run)).toNat +
        16 * s.errFlags.toNat + 256 * s.cfg.K + 8192 * s.cfg.nPoly + 262144 * s.cfg.rev.toNat) s) ∧
    (s.cfg.cfgValid = false → s.cfg.K = 0 ∧ s.cfg.nPoly = 0)

/-- R211. -/
def Obligations.SrstPutsEveryRegisterToItsResetValue : Prop :=
  FormatZ 0xD .srst ∧
  ∀ s : State, ∃ t, exec .srst s = .next t ∧ RegistersReset t ∧ t.rsp = s.rsp ++ [0x00000000] ∧
    t = { resetEvent s with rsp := t.rsp, resetIn := t.resetIn } ∧ t.encOut = s.encOut ∧ t.decOut = s.decOut ∧
    t.cmd = s.cmd ∧ t.resetIn = s.resetIn ∧ t.params = s.params

/-! ### Status codes -/

/-- R251, R252, R254: which commands raise `INVALID_CONFIGURATION`, `INVALID_INPUT` and `CAPACITY`, and for exactly
which causes. -/
def Obligations.ArgumentCodesHaveExactlyTheirCauses : Prop :=
  ∀ (i : Instr) (s : State),
    (Responds i s 1 ↔ i = .ccommit ∧ s.enc.encSt = .idle ∧ s.dec.decSt = .idle ∧
      (s.stg.spCount = 0 ∨ s.stg.spOvf = true ∨ ∃ j < s.stg.spCount, readReg s.stg.sPoly j = 0)) ∧
    (Responds i s 2 ↔ ∃ h l, i = .dstart h l ∧ s.cfg.cfgValid = true ∧ s.dec.decSt = .idle ∧
      (l.toNat % s.cfg.nPoly ≠ 0 ∨ (h = true ∧ s.dec.hLen ≠ s.cfg.K))) ∧
    (Responds i s 4 ↔
      (i = .ccommit ∧ s.enc.encSt = .idle ∧ s.dec.decSt = .idle ∧ s.stg.spCount ≠ 0 ∧ s.stg.spOvf = false ∧
        (∀ j < s.stg.spCount, readReg s.stg.sPoly j ≠ 0) ∧
        ∃ j < s.stg.spCount, s.params.kMax < bitlen (readReg s.stg.sPoly j).toNat) ∨
      (∃ h l, i = .dstart h l ∧ s.cfg.cfgValid = true ∧ s.dec.decSt = .idle ∧ l.toNat % s.cfg.nPoly = 0 ∧
        (h = true → s.dec.hLen = s.cfg.K) ∧
        (s.params.nMax < l.toNat / s.cfg.nPoly ∨ s.params.nodeMax < l.toNat / s.cfg.nPoly * 2 ^ s.cfg.K)))

/-- R253: the words and the states for which `PROTOCOL` is raised, exactly. -/
def Obligations.ProtocolHasExactlyItsCauses : Prop :=
  (∀ (i : Instr) (s : State),
    Responds i s 3 ↔
      (i = .ccommit ∧ (s.enc.encSt = .active ∨ s.dec.decSt = .run)) ∨
      (i = .estart ∧ (s.cfg.cfgValid = false ∨ s.enc.encSt = .active)) ∨
      (((∃ b, i = .ebit b) ∨ i = .eend) ∧ s.enc.encSt = .idle) ∨
      ((∃ b, i = .dhbit b) ∧ s.dec.decSt = .run) ∨
      ((∃ h l, i = .dstart h l) ∧ (s.cfg.cfgValid = false ∨ s.dec.decSt = .run)) ∨
      ((∃ o, i = .dsoft o) ∧ (s.dec.decSt = .idle ∨ s.dec.C = s.dec.nReg)) ∨
      (i = .dend ∧ (s.dec.decSt = .idle ∨ s.dec.C ≠ s.dec.nReg))) ∧
  (∀ w : Word,
    ((∃ op, decode w = .error (.reservedOpcode op)) ↔
      w.toNat / 2 ^ 28 = 0x0 ∨ w.toNat / 2 ^ 28 = 0xE ∨ w.toNat / 2 ^ 28 = 0xF) ∧
    ((∃ op, decode w = .error (.reservedBit op)) ↔
      (w.toNat / 2 ^ 28 ∈ [0x1, 0x4, 0x5, 0x7, 0xB, 0xC, 0xD] ∧ w.toNat % 2 ^ 28 ≠ 0) ∨
      (w.toNat / 2 ^ 28 ∈ [0x3, 0x6, 0x8] ∧ w.toNat % 2 ^ 28 / 2 ≠ 0) ∨
      (w.toNat / 2 ^ 28 = 0xA ∧ w.toNat % 2 ^ 28 / 2 ^ 8 ≠ 0))) ∧
  (∀ (e : IllegalWord) (s : State), illegalWord e s = .next (rejectedWith 3 s))

/-- 60_exceptions.md section 1: a rejection sets its flag, responds, and changes nothing else, but for the hint that
`DSTART` has cleared before its `INVALID_INPUT` and `CAPACITY` checks. That the decoder arrays keep their contents over such a `DSTART`
is the model's choice, log 6. -/
def Obligations.RejectionChangesNothingElse : Prop :=
  (∀ (i : Instr) (s t : State) (code : Nat), 1 ≤ code → code ≤ 4 → exec i s = .next t → Responds i s code →
    ((∃ h l, i = .dstart h l) ∧ (code = 2 ∨ code = 4) → t = rejectedWith code (hintCleared s)) ∧
    (¬ ((∃ h l, i = .dstart h l) ∧ (code = 2 ∨ code = 4)) → t = rejectedWith code s)) ∧
  ∀ (e : IllegalWord) (s : State), illegalWord e s = .next (rejectedWith 3 s)

/-! ### Whole-machine rules -/

/-- 10_state.md section 8 (the column "Written by"): which commands can change which registers and channels. That
`N_REG`, `HINT_EN` and `FSTATE` keep their values over `DEND` is the model's choice, log 5: 43_traceback.md section 3
says only that no rule reads them before the next call. -/
def Obligations.OnlyTheirOwnCommandsWriteTheRegisters : Prop :=
  ∀ (i : Instr) (s t : State), exec i s = .next t →
    (isStaging i = false → i ≠ .srst → t.stg = s.stg) ∧
    (isEncoder i = false → i ≠ .srst → t.enc = s.enc) ∧
    (isDecoder i = false → i ≠ .srst → t.dec = s.dec ∧ t.tb = s.tb) ∧
    ((∀ b, i ≠ .ebit b) → t.encOut = s.encOut) ∧
    (i ≠ .dend → t.decOut = s.decOut) ∧
    ((∀ h l, i ≠ .dstart h l) → i ≠ .srst → t.dec.nReg = s.dec.nReg ∧ t.dec.hintEn = s.dec.hintEn ∧
      t.dec.fState = s.dec.fState) ∧
    t.cmd = s.cmd ∧ t.resetIn = s.resetIn ∧ t.params = s.params

/-- R46: no command but a successful `CCOMMIT` and `SRST` writes the active configuration, and `CCOMMIT` is rejected
while a call is open. -/
def Obligations.ActiveConfigurationIsImmutable : Prop :=
  ∀ (i : Instr) (s t : State), exec i s = .next t →
    (i ≠ .ccommit → i ≠ .srst → t.cfg = s.cfg) ∧
    (i = .ccommit → s.enc.encSt = .active ∨ s.dec.decSt = .run → t = rejectedWith 3 s) ∧
    (i = .ccommit → ¬ Responds .ccommit s 0 → t.cfg = s.cfg) ∧
    (isStaging i = true → t = acceptedWith 0 { s with stg := t.stg })

/-- R42: `ERRFLAGS` gains exactly the bit of the response's code, an illegal word's included, only reset and `SRST`
clear it, and no command but `STAT` depends on it. -/
def Obligations.ErrflagsAreStickyAndReadByStatOnly : Prop :=
  State.reset.errFlags = 0 ∧
  (∀ s : State, s.resetIn = true → ∃ t, step s = .next t ∧ t.errFlags = 0) ∧
  (∀ (e : IllegalWord) (s : State), illegalWord e s = .next (rejectedWith 3 s)) ∧
  (∀ (i : Instr) (s t : State), exec i s = .next t →
    (i = .srst → t.errFlags = 0) ∧
    (i ≠ .srst → ∀ code, code ≤ 4 → Responds i s code →
      t.errFlags = if code = 0 then s.errFlags else s.errFlags ||| BitVec.ofNat 4 (2 ^ (code - 1)))) ∧
  (∀ (i : Instr) (s t : State) (e : BitVec 4), i ≠ .stat → exec i s = .next t →
    ∃ e', exec i { s with errFlags := e } = .next { t with errFlags := e' })

/-- R232: an encode call, a decode call, staging commands and `STAT` may be interleaved in any order; each engine ends
as if its own commands had been issued alone. -/
def Obligations.InterleavedCallsDoNotInterfere : Prop :=
  (∀ (is : List Instr) (s t : State), (∀ i ∈ is, i ≠ .srst ∧ i ≠ .ccommit) → execAll is s = .next t →
    ∃ u v w, execAll (is.filter isEncoder) s = .next u ∧ execAll (is.filter isDecoder) s = .next v ∧
      execAll (is.filter isStaging) s = .next w ∧
      t.enc = u.enc ∧ t.encOut = u.encOut ∧ t.dec = v.dec ∧ t.decOut = v.decOut ∧ t.stg = w.stg ∧ t.cfg = s.cfg) ∧
  ∀ s : State, s.enc.encSt = .active ∨ s.dec.decSt = .run → exec .ccommit s = .next (rejectedWith 3 s)

/-! ### Functions of the notation -/

/-- 00_scope.md section 5 (R12): `bitlen`, `parity`, `bitrev_K` and `absdiff`, with the values given there. -/
def Obligations.NotationFunctionsComputeWhatTheRuleSays : Prop :=
  (∀ x n, bitlen x ≤ n ↔ x < 2 ^ n) ∧ bitlen 0 = 0 ∧ bitlen 1 = 1 ∧ bitlen 5 = 3 ∧ bitlen 7 = 3 ∧ bitlen 8 = 4 ∧
  (∀ x n, x < 2 ^ n → parity x = (List.range n).foldl (fun a i => a ^^ x.testBit i) false) ∧
  parity 0 = false ∧ parity 5 = false ∧ parity 7 = true ∧
  (∀ K x, bitrev K x < 2 ^ K ∧ ∀ i < K, (bitrev K x).testBit i = x.testBit (K - 1 - i)) ∧
  bitrev 3 6 = 3 ∧ bitrev 3 1 = 4 ∧ (∀ x < 2, bitrev 1 x = x) ∧
  ∀ a b, (b ≤ a → absdiff a b = a - b) ∧ (a < b → absdiff a b = b - a)

/-- R13: addition with the absorbing `INF`, and the order in which two `INF` values tie. -/
def Obligations.InfeasibleMetricAbsorbsAndTies : Prop :=
  (∀ m x, (Metric.fin m).add x = .fin (m + x)) ∧ (∀ x, Metric.inf.add x = .inf) ∧
  (∀ a b, (Metric.fin a).lt (.fin b) = true ↔ a < b) ∧ (∀ n, (Metric.fin n).lt .inf = true) ∧
  ∀ m, Metric.inf.lt m = false

/-! ### Whole calls -/

/-- 45_call_contracts.md section 1: `CONFIG` and `CONFIG.REV`, issued while no call is open, construct what
`construct` gives. -/
def Obligations.ConfigCommandsImplementConstruct : Prop :=
  ∀ (s : State) (polys : List KWord) (rev : Bool), s.enc.encSt = .idle → s.dec.decSt = .idle →
    ∃ t, execAll (configCmds polys rev) s = .next t ∧
      (∀ c, construct s.params polys rev = .ok c →
        t.cfg.cfgValid = true ∧ t.cfg.codec = c ∧ t.rsp.getLast? = some (BitVec.ofNat 32 c.K)) ∧
      (∀ code, construct s.params polys rev = .error code →
        t.cfg = s.cfg ∧ t.rsp.getLast? = some (BitVec.ofNat 32 ((statusCode code).toNat * 2 ^ 28))) ∧
      t.enc = s.enc ∧ t.dec = s.dec ∧ t.encOut = s.encOut ∧ t.decOut = s.decOut

/-- 45_call_contracts.md sections 1 and 2: `ENCODE` appends `encode(cfg, bits)` to `ENC_OUT`, `k` bits a step, each
command answers `OK`, and nothing else changes. -/
def Obligations.EncodeCommandsImplementEncode : Prop :=
  ∀ (s : State) (bits : List Bool), Invariant s → s.cfg.cfgValid = true → s.enc.encSt = .idle →
    execAll (encodeCmds bits) s =
      .next { s with
        encOut := s.encOut ++ s.cfg.codec.encode bits
        rsp := s.rsp ++ List.replicate (bits.length + 2) 0x00000000 } ∧
    (s.cfg.codec.encode bits).length = bits.length * s.cfg.nPoly

/-- 45_call_contracts.md sections 1 and 2: `DECODE` with the decoder idle and no hint staged appends
`decode(cfg, soft, hint)` to `DEC_OUT`, one bit a group, and answers the final state, or rejects as `decode` does. For lists whose
length fits the `L` field; a longer one has no `DSTART` word, and what the model's `DECODE` then sends is log 18. -/
def Obligations.DecodeCommandsImplementDecode : Prop :=
  ∀ (s : State) (soft : List Byte) (hint : Option (List Bool)), Invariant s → s.cfg.cfgValid = true →
    s.dec.decSt = .idle → s.dec.hLen = 0 → soft.length < 2 ^ 27 →
    ∃ t, runDecode soft hint s = .next t ∧
      (∀ out, s.cfg.codec.decode s.params soft hint = .ok out →
        t.decOut = s.decOut ++ out ∧ out.length = soft.length / s.cfg.nPoly ∧
        t.rsp.getLast? = some (BitVec.ofNat 32 (s.cfg.codec.finalOf soft hint))) ∧
      (∀ code, s.cfg.codec.decode s.params soft hint = .error code →
        t.decOut = s.decOut ∧ t.rsp.getLast? = some (BitVec.ofNat 32 ((statusCode code).toNat * 2 ^ 28))) ∧
      t.dec.decSt = .idle ∧ t.cfg = s.cfg ∧ t.stg = s.stg ∧ t.enc = s.enc ∧ t.encOut = s.encOut

/-- R224: the round trip without noise, for every configuration, both values of the flag, with and without the hint
of zeros. -/
def Obligations.FlushedStreamRoundTripsWithoutNoise : Prop :=
  ∀ (p : Params) (polys : List KWord) (rev : Bool) (c : Codec) (bits : List Bool),
    construct p polys rev = .ok c → bits.length + c.K ≤ p.nMax → (bits.length + c.K) * c.S ≤ p.nodeMax →
      c.decode p (noiseless (c.encode (bits ++ List.replicate c.K false))) none =
        .ok (bits ++ List.replicate c.K false) ∧
      c.decode p (noiseless (c.encode (bits ++ List.replicate c.K false))) (some (List.replicate c.K false)) =
        .ok (bits ++ List.replicate c.K false)

/-- R225: the round trip of any stream, without a hint when some tap mask has bit 0 set, and for every configuration
with the hint of the true final register. -/
def Obligations.AnyStreamRoundTripsWithTapZeroOrTrueHint : Prop :=
  ∀ (p : Params) (polys : List KWord) (rev : Bool) (c : Codec) (bits : List Bool),
    construct p polys rev = .ok c → bits.length ≤ p.nMax → bits.length * c.S ≤ p.nodeMax →
      ((∃ t ∈ c.taps, t.testBit 0 = true) → c.decode p (noiseless (c.encode bits)) none = .ok bits) ∧
      c.decode p (noiseless (c.encode bits)) (some (hintOf c.K (c.finalReg bits))) = .ok bits

/-- 45_call_contracts.md section 2, the final-state hint: the hinted metric is never lower than the unhinted one, and
equal exactly when the hinted state is minimal; both are 0 for a noise-free stream with its true final register. -/
def Obligations.HintNeverLowersTheFinalMetric : Prop :=
  (∀ (c : Codec) (soft : List Byte) (h : List Bool), 1 ≤ c.K → h.length = c.K →
    (c.finalMetric soft (some h)).lt (c.finalMetric soft none) = false ∧
    (c.finalMetric soft (some h) = c.finalMetric soft none ↔
      ∀ x < 2 ^ c.K, (metricAt (c.lastColumn soft) x).lt (c.finalMetric soft (some h)) = false)) ∧
  (∀ (c : Codec) (bits : List Bool), 1 ≤ c.K → 1 ≤ c.k →
    c.finalMetric (noiseless (c.encode bits)) (some (hintOf c.K (c.finalReg bits))) = .fin 0 ∧
    c.finalMetric (noiseless (c.encode bits)) none = .fin 0)

/-- 45_call_contracts.md section 2, optimality: for a reachable final state the decoded sequence drives the encoder
from 0 to it with the least branch-metric sum, and without a hint with the least sum of all sequences; the walk ends
in 0 (43_traceback.md section 3). -/
def Obligations.DecodedSequenceHasLeastMetric : Prop :=
  ∀ (c : Codec) (soft : List Byte) (hint : Option (List Bool)) (m : Nat), 1 ≤ c.K →
    c.finalMetric soft hint = .fin m →
      (c.decodeBits soft hint).length = c.steps soft ∧
      c.finalReg (c.decodeBits soft hint) = c.finalOf soft hint ∧
      c.walkEnd (c.decisions soft).reverse (c.finalOf soft hint) = 0 ∧
      c.pathMetric 0 (c.decodeBits soft hint) soft = m ∧
      (∀ bits : List Bool, bits.length = c.steps soft → c.finalReg bits = c.finalOf soft hint →
        m ≤ c.pathMetric 0 bits soft) ∧
      (hint = none → ∀ bits : List Bool, bits.length = c.steps soft → m ≤ c.pathMetric 0 bits soft)
end

