-- ==== Sys2Proof/Laws/Bits.lean ====
section
/-! SUPPORT. What the functions of 00_scope.md R12 compute, bit by bit. -/

namespace Sys2Proof

/-- `bitlen(x)` is the least `n` with `x < 2^n` (R12). -/
theorem bitlen_le_iff {x n : Nat} : bitlen x ≤ n ↔ x < 2 ^ n := by
  unfold bitlen
  split
  · simp_all
  · rename_i h; rw [Nat.add_one_le_iff, Nat.log2_lt h]

theorem lt_two_pow_bitlen (x : Nat) : x < 2 ^ bitlen x := bitlen_le_iff.1 le_rfl

theorem two_pow_le_of_bitlen {x n : Nat} (h : bitlen x = n + 1) : 2 ^ n ≤ x := by
  by_contra hlt
  have := bitlen_le_iff.2 (not_le.1 hlt)
  omega

@[simp] theorem bitlen_zero : bitlen 0 = 0 := rfl

theorem bitlen_pos {x : Nat} (h : x ≠ 0) : 1 ≤ bitlen x := by
  simp [bitlen, h]

@[simp] theorem parityBelow_zero_right (n : Nat) : parityBelow n 0 = false := by
  induction n with
  | zero => rfl
  | succ n ih => simp [parityBelow, ih]

theorem parityBelow_xor (n x y : Nat) : parityBelow n (x ^^^ y) = (parityBelow n x ^^ parityBelow n y) := by
  induction n with
  | zero => rfl
  | succ n ih => simp only [parityBelow, ih, Nat.testBit_xor]; cases x.testBit n <;> cases y.testBit n <;> simp

/-- Bits above the width add nothing to the parity. -/
theorem parityBelow_of_lt {n m x : Nat} (hx : x < 2 ^ n) (h : n ≤ m) : parityBelow m x = parityBelow n x := by
  induction m, h using Nat.le_induction with
  | base => rfl
  | succ m hm ih =>
    have : x.testBit m = false := Nat.testBit_lt_two_pow (lt_of_lt_of_le hx (Nat.pow_le_pow_right (by omega) hm))
    simp [parityBelow, this, ih]

/-- The parity of a number below `2^n` is the exclusive or of its `n` low bits. -/
theorem parity_eq_parityBelow {n x : Nat} (hx : x < 2 ^ n) : parity x = parityBelow n x :=
  (parityBelow_of_lt (lt_two_pow_bitlen x) (bitlen_le_iff.2 hx)).symm

@[simp] theorem parity_zero : parity 0 = false := rfl

theorem parity_xor (x y : Nat) : parity (x ^^^ y) = (parity x ^^ parity y) := by
  have hx : x < 2 ^ max (bitlen x) (bitlen y) := bitlen_le_iff.1 (le_max_left _ _)
  have hy : y < 2 ^ max (bitlen x) (bitlen y) := bitlen_le_iff.1 (le_max_right _ _)
  rw [parity_eq_parityBelow hx, parity_eq_parityBelow hy, parity_eq_parityBelow (Nat.xor_lt_two_pow hx hy),
    parityBelow_xor]

/-- The exclusive or of the low bits as a left fold. -/
theorem parityBelow_eq_foldl (n x : Nat) :
    parityBelow n x = (List.range n).foldl (fun a i => a ^^ x.testBit i) false := by
  induction n with
  | zero => rfl
  | succ n ih => rw [List.range_succ, List.foldl_append, ← ih]; simp [parityBelow, Bool.xor_comm]

theorem bitrev_lt (n x : Nat) : bitrev n x < 2 ^ n := by
  induction n generalizing x with
  | zero => simp [bitrev]
  | succ n ih =>
    have := ih (x / 2)
    have hb : (x.testBit 0).toNat ≤ 1 := Bool.toNat_le _
    simp only [bitrev, pow_succ]
    nlinarith

/-- Bit `i` of `bitrev_K(x)` is bit `K-1-i` of `x` (R12). -/
theorem testBit_bitrev (n x i : Nat) : (bitrev n x).testBit i = (decide (i < n) && x.testBit (n - 1 - i)) := by
  induction n generalizing x i with
  | zero => simp [bitrev]
  | succ n ih =>
    have hlt := bitrev_lt n (x / 2)
    have heq : bitrev (n + 1) x = 2 ^ n * (x.testBit 0).toNat + bitrev n (x / 2) := by
      rw [bitrev, Nat.mul_comm]
    rw [heq]
    rcases lt_trichotomy i n with h | h | h
    · rw [Nat.testBit_two_pow_mul_add _ hlt, if_pos h, ih, Nat.testBit_div_two]
      have : n - 1 - i + 1 = n + 1 - 1 - i := by omega
      simp [h, this, show i < n + 1 by omega]
    · subst h
      rw [Nat.testBit_two_pow_mul_add _ hlt, if_neg (by omega)]
      cases hx : x.testBit 0 <;> simp [hx]
    · rw [Nat.testBit_two_pow_mul_add _ hlt, if_neg (by omega)]
      have : ¬ i < n + 1 := by omega
      simp only [this, decide_false, Bool.false_and]
      have : (1 : Nat) < 2 ^ (i - n) := Nat.one_lt_two_pow (by omega)
      cases hx : x.testBit 0 <;> simp [Nat.testBit_lt_two_pow this]

theorem bitrev_bitrev {n x : Nat} (hx : x < 2 ^ n) : bitrev n (bitrev n x) = x := by
  apply Nat.eq_of_testBit_eq
  intro i
  rw [testBit_bitrev, testBit_bitrev]
  by_cases h : i < n
  · simp [h, show n - 1 - i < n by omega, show n - 1 - (n - 1 - i) = i by omega]
  · simp [h, Nat.testBit_lt_two_pow (lt_of_lt_of_le hx (Nat.pow_le_pow_right (by omega) (not_lt.1 h)))]

theorem bitrev_ne_zero {n x : Nat} (hx : x < 2 ^ n) (h : x ≠ 0) : bitrev n x ≠ 0 := by
  intro h0
  apply h
  rw [← bitrev_bitrev hx, h0]
  apply Nat.eq_of_testBit_eq
  intro i
  simp [testBit_bitrev]

theorem bitrev_and (n x y : Nat) : bitrev n x &&& bitrev n y = bitrev n (x &&& y) := by
  apply Nat.eq_of_testBit_eq
  intro i
  simp only [Nat.testBit_and, testBit_bitrev]
  by_cases h : i < n <;> simp [h]

/-- Only the bits below `n` count. -/
theorem parityBelow_congr {n x y : Nat} (h : ∀ i < n, x.testBit i = y.testBit i) :
    parityBelow n x = parityBelow n y := by
  induction n with
  | zero => rfl
  | succ n ih => simp [parityBelow, h n (by omega), ih fun i hi => h i (by omega)]

/-- The lowest bit split off. -/
theorem parityBelow_succ_low (n x : Nat) : parityBelow (n + 1) x = (x.testBit 0 ^^ parityBelow n (x / 2)) := by
  induction n with
  | zero => simp [parityBelow]
  | succ n ih =>
    rw [parityBelow, ih, parityBelow, Nat.testBit_div_two]
    cases x.testBit (n + 1) <;> cases x.testBit 0 <;> simp

theorem parityBelow_bitrev (n x : Nat) : parityBelow n (bitrev n x) = parityBelow n x := by
  induction n generalizing x with
  | zero => rfl
  | succ n ih =>
    rw [parityBelow_succ_low n x, ← ih (x / 2), parityBelow, testBit_bitrev]
    congr 1
    · simp
    · apply parityBelow_congr
      intro i hi
      rw [testBit_bitrev, testBit_bitrev, Nat.testBit_div_two]
      simp [hi, show i < n + 1 by omega, show n - 1 - i + 1 = n - i by omega]

/-- Reversal moves bits about, so the parity of a masked word stays (41_encoder.md R147). -/
theorem parity_bitrev_and (n x y : Nat) (hx : x < 2 ^ n) :
    parity (bitrev n x &&& bitrev n y) = parity (x &&& y) := by
  rw [bitrev_and, parity_eq_parityBelow (bitrev_lt n _), parityBelow_bitrev,
    parity_eq_parityBelow (lt_of_le_of_lt Nat.and_le_left hx)]

theorem absdiff_comm (a b : Nat) : absdiff a b = absdiff b a := by
  unfold absdiff
  split <;> split <;> omega

end Sys2Proof
end

