-- ==== Sys2Proof/Laws/Trellis.lean ====
section
/-! SUPPORT. What the encoder step and the trellis functions compute (41_encoder.md, 42_decoder_acs.md). -/

namespace Sys2Proof.Machine

open Sys2Proof

@[simp] theorem add_fin (m x : Nat) : (Metric.fin m).add x = .fin (m + x) := rfl
@[simp] theorem add_inf (x : Nat) : Metric.inf.add x = .inf := rfl
@[simp] theorem lt_fin_fin (a b : Nat) : (Metric.fin a).lt (.fin b) = decide (a < b) := rfl
@[simp] theorem lt_fin_inf (a : Nat) : (Metric.fin a).lt .inf = true := rfl
@[simp] theorem lt_inf (m : Metric) : Metric.inf.lt m = false := by cases m <;> rfl

/-- Adding the same branch metric to both sides does not change the comparison (42_decoder_acs.md R175). -/
@[simp] theorem lt_add_add (a b : Metric) (x : Nat) : (a.add x).lt (b.add x) = a.lt b := by
  cases a <;> cases b <;> simp

theorem Codec.S_pos (c : Codec) : 0 < c.S := Nat.two_pow_pos _

/-- The shifted register as arithmetic (41_encoder.md R144). -/
theorem Codec.shift_eq (c : Codec) (r : Nat) (b : Bool) : c.shift r b = (2 * r + b.toNat) % 2 ^ c.K := by
  have hb : b.toNat < 2 ^ 1 := by cases b <;> decide
  rw [Codec.shift, Codec.mask, Codec.S, Nat.and_two_pow_sub_one_eq_mod, ← Nat.shiftLeft_add_eq_or_of_lt hb,
    Nat.shiftLeft_eq, pow_one, Nat.mul_comm]

theorem Codec.shift_lt (c : Codec) (r : Nat) (b : Bool) : c.shift r b < c.S := by
  rw [c.shift_eq]; exact Nat.mod_lt _ c.S_pos

/-- Bit 0 of the shifted register is the new bit, bit `j` the old bit `j-1` (41_encoder.md R144). -/
theorem Codec.testBit_shift (c : Codec) (r : Nat) (b : Bool) (j : Nat) :
    (c.shift r b).testBit j = (decide (j < c.K) && if j = 0 then b else r.testBit (j - 1)) := by
  rw [Codec.shift, Codec.mask, Codec.S, Nat.and_two_pow_sub_one_eq_mod, Nat.testBit_mod_two_pow, Nat.testBit_or,
    Nat.testBit_shiftLeft]
  rcases j with _ | j
  · cases b <;> simp
  · cases b <;> simp [Nat.testBit_succ]

@[simp] theorem Codec.length_codedBits (c : Codec) (sh : Nat) : (c.codedBits sh).length = c.k := by
  simp [Codec.codedBits, Codec.k]

/-- A decision names one of the two predecessors (10_state.md R39). -/
theorem Codec.predOf_eq (c : Codec) (h : 1 ≤ c.K) (s : Nat) (d : Bool) :
    c.predOf s d = if d then c.pred1 s else pred0 s := by
  have : 2 ^ c.K >>> 1 = 2 ^ (c.K - 1) := by
    rw [Nat.shiftRight_eq_div_pow, pow_one, ← Nat.pow_div h (by omega), pow_one]
  cases d <;> simp [Codec.predOf, Codec.pred1, pred0, Codec.S, this, Nat.shiftLeft_eq]

theorem Codec.pred1_eq (c : Codec) (h : 1 ≤ c.K) {s : Nat} (hs : s < c.S) : c.pred1 s = s / 2 + 2 ^ (c.K - 1) := by
  have h2 : 2 ^ c.K = 2 * 2 ^ (c.K - 1) := by rw [← pow_succ']; congr 1; omega
  have hlt : s / 2 < 2 ^ (c.K - 1) := by unfold Codec.S at hs; omega
  have : 2 ^ c.K >>> 1 = 2 ^ (c.K - 1) := by rw [Nat.shiftRight_eq_div_pow]; omega
  rw [Codec.pred1, Codec.S, this, Nat.shiftRight_eq_div_pow, pow_one]
  have := Nat.two_pow_add_eq_or_of_lt hlt 1
  rw [Nat.or_comm, Nat.add_comm]; simpa using this.symm

theorem pred0_eq (s : Nat) : pred0 s = s / 2 := by simp [pred0, Nat.shiftRight_eq_div_pow]

theorem Codec.pred1_lt (c : Codec) (h : 1 ≤ c.K) {s : Nat} (hs : s < c.S) : c.pred1 s < c.S := by
  have h2 : 2 ^ c.K = 2 * 2 ^ (c.K - 1) := by rw [← pow_succ']; congr 1; omega
  rw [c.pred1_eq h hs]; unfold Codec.S at *; omega

theorem Codec.pred0_lt (c : Codec) {s : Nat} (hs : s < c.S) : pred0 s < c.S := by
  rw [pred0_eq]; omega

theorem Codec.predOf_lt (c : Codec) (h : 1 ≤ c.K) {s : Nat} (hs : s < c.S) (d : Bool) : c.predOf s d < c.S := by
  rw [c.predOf_eq h]; split
  · exact c.pred1_lt h hs
  · exact c.pred0_lt hs

/-- The registers that a bit leads to `s` are exactly the two predecessors, by bit 0 of `s` (42_decoder_acs.md R170). -/
theorem Codec.shift_eq_iff (c : Codec) (h : 1 ≤ c.K) {s r : Nat} (hs : s < c.S) (hr : r < c.S) (b : Bool) :
    c.shift r b = s ↔ b = s.testBit 0 ∧ (r = pred0 s ∨ r = c.pred1 s) := by
  have h2 : 2 ^ c.K = 2 * 2 ^ (c.K - 1) := by rw [← pow_succ']; congr 1; omega
  rw [c.shift_eq, pred0_eq, c.pred1_eq h hs, Nat.testBit_zero]
  unfold Codec.S at hs hr
  generalize 2 ^ (c.K - 1) = p at *
  rw [h2] at hs hr ⊢
  have hb : b.toNat = if b then 1 else 0 := by cases b <;> rfl
  constructor
  · intro he
    rcases lt_or_ge (2 * r + b.toNat) (2 * p) with hlt | hge
    · rw [Nat.mod_eq_of_lt hlt] at he
      cases b <;> simp at * <;> omega
    · rw [Nat.mod_eq_sub_mod hge, Nat.mod_eq_of_lt (by cases b <;> simp at * <;> omega)] at he
      cases b <;> simp at * <;> omega
  · rintro ⟨rfl, rfl | rfl⟩
    · rw [Nat.mod_eq_of_lt (by split at hb <;> simp_all <;> omega)]
      by_cases hm : s % 2 = 1 <;> simp [hm] <;> omega
    · rw [Nat.mod_eq_sub_mod (by omega), Nat.mod_eq_of_lt (by split at hb <;> simp_all <;> omega)]
      by_cases hm : s % 2 = 1 <;> simp [hm] <;> omega

/-- Compare first, add after: the ACS of one state without the common branch metric (42_decoder_acs.md R175). -/
theorem Codec.acsState_eq (c : Codec) (pm : Nat → Metric) (obs : List Byte) (s : Nat) :
    c.acsState pm obs s =
      ((if (pm (c.pred1 s)).lt (pm (pred0 s)) then pm (c.pred1 s) else pm (pred0 s)).add (c.branchMetric s obs),
        (pm (c.pred1 s)).lt (pm (pred0 s))) := by
  simp only [Codec.acsState, lt_add_add]
  split <;> simp_all

@[simp] theorem Codec.length_acsStep_fst (c : Codec) (pm : Nat → Metric) (obs : List Byte) :
    (c.acsStep pm obs).1.length = c.S := by simp [Codec.acsStep]

@[simp] theorem Codec.length_acsStep_snd (c : Codec) (pm : Nat → Metric) (obs : List Byte) :
    (c.acsStep pm obs).2.length = c.S := by simp [Codec.acsStep]

theorem Codec.metricAt_acsStep (c : Codec) (pm : Nat → Metric) (obs : List Byte) {s : Nat} (hs : s < c.S) :
    metricAt (c.acsStep pm obs).1 s = (c.acsState pm obs s).1 := by
  simp [Codec.acsStep, metricAt, hs]

theorem Codec.getElem?_acsStep (c : Codec) (pm : Nat → Metric) (obs : List Byte) {s : Nat} (hs : s < c.S) :
    (c.acsStep pm obs).2[s]? = some (c.acsState pm obs s).2 := by
  simp [Codec.acsStep, hs]

/-- The ACS step reads the old column at the states below `S` only (20_memory.md R79). -/
theorem Codec.acsStep_congr (c : Codec) (h : 1 ≤ c.K) {pm pm' : Nat → Metric} (obs : List Byte)
    (heq : ∀ s < c.S, pm s = pm' s) : c.acsStep pm obs = c.acsStep pm' obs := by
  have key : ∀ s ∈ List.range c.S, c.acsState pm obs s = c.acsState pm' obs s := by
    intro s hs
    have hs := List.mem_range.1 hs
    simp only [Codec.acsState, heq _ (c.pred0_lt hs), heq _ (c.pred1_lt h hs)]
  simp only [Codec.acsStep]
  congr 1 <;> exact List.map_congr_left fun s hs => by rw [key s hs]

@[simp] theorem Codec.length_column0 (c : Codec) : c.column0.length = c.S := by
  have := c.S_pos
  simp [Codec.column0]; omega

theorem Codec.metricAt_column0 (c : Codec) (s : Nat) : metricAt c.column0 s = if s = 0 then .fin 0 else .inf := by
  rcases s with _ | s
  · rfl
  · simp only [metricAt, Codec.column0, List.getElem?_cons_succ, List.getElem?_replicate]
    split <;> simp

/-- The state count is twice the butterfly count. -/
theorem two_pow_K {K : Nat} (h : 1 ≤ K) : 2 ^ K = 2 * 2 ^ (K - 1) := by rw [← pow_succ']; congr 1; omega

/-- `n + 1` steps are `n` steps and one more at the end. -/
theorem Codec.forward_succ (c : Codec) (n : Nat) (pm : List Metric) (soft : List Byte) :
    c.forward (n + 1) pm soft =
      ((c.acsStep (metricAt (c.forward n pm soft).1) ((soft.drop (n * c.k)).take c.k)).1,
        (c.forward n pm soft).2 ++ [(c.acsStep (metricAt (c.forward n pm soft).1) ((soft.drop (n * c.k)).take
          c.k)).2]) := by
  induction n generalizing pm soft with
  | zero => simp [Codec.forward]
  | succ n ih =>
    rw [Codec.forward, ih]
    simp only [Codec.forward, List.drop_drop, List.cons_append]
    have : c.k + n * c.k = (n + 1) * c.k := by ring
    rw [this]

@[simp] theorem Codec.length_forward_snd (c : Codec) (n : Nat) (pm : List Metric) (soft : List Byte) :
    (c.forward n pm soft).2.length = n := by
  induction n generalizing pm soft with
  | zero => rfl
  | succ n ih => simp [Codec.forward, ih]

theorem Codec.length_forward_fst (c : Codec) (n : Nat) (pm : List Metric) (soft : List Byte) (h : pm.length = c.S) :
    (c.forward n pm soft).1.length = c.S := by
  cases n with
  | zero => simpa [Codec.forward] using h
  | succ n => rw [c.forward_succ]; simp

/-- One term of the branch metric is at most 255 (42_decoder_acs.md R171). -/
theorem softCost_le (o : Byte) (e : Bool) : softCost o e ≤ 255 := by
  have := o.isLt
  cases e <;> simp [softCost, absdiff] <;> (try split) <;> omega

theorem sum_softCost_le (obs : List Byte) (es : List Bool) : (List.zipWith softCost obs es).sum ≤ 255 * es.length := by
  induction es generalizing obs with
  | nil => simp
  | cons e es ih =>
    cases obs with
    | nil => simp
    | cons o os =>
      have := ih os
      have := softCost_le o e
      simp only [List.zipWith_cons_cons, List.sum_cons, List.length_cons]; omega

/-- The branch metric of one group is at most 255 a term (42_decoder_acs.md R171). -/
theorem Codec.branchMetric_le (c : Codec) (s : Nat) (obs : List Byte) : c.branchMetric s obs ≤ 255 * c.k := by
  simpa [Codec.branchMetric] using sum_softCost_le obs (c.codedBits s)

/-- The metric of a new state: finite exactly where one of its predecessors is. -/
theorem Codec.acsState_fst_ne_inf (c : Codec) (pm : Nat → Metric) (obs : List Byte) (s : Nat) :
    (c.acsState pm obs s).1 ≠ .inf ↔ pm (pred0 s) ≠ .inf ∨ pm (c.pred1 s) ≠ .inf := by
  rw [c.acsState_eq]
  cases h0 : pm (pred0 s) <;> cases h1 : pm (c.pred1 s) <;> simp
  split <;> simp

/-- A finite metric stands inside the column. -/
theorem metricAt_lt {pm : List Metric} {s m : Nat} (h : metricAt pm s = .fin m) : s < pm.length := by
  by_contra hn
  simp [metricAt, List.getElem?_eq_none (not_lt.1 hn)] at h

/-- The order of metrics is total and transitive (00_scope.md R13). -/
theorem metric_lt_of_lt_of_not_lt {a b c : Metric} (h1 : a.lt b = true) (h2 : c.lt b = false) : a.lt c = true := by
  cases a <;> cases b <;> cases c <;> simp_all
  omega

theorem metric_not_lt_trans {a b c : Metric} (h1 : b.lt a = false) (h2 : c.lt b = false) : c.lt a = false := by
  cases a <;> cases b <;> cases c <;> simp_all
  omega

theorem metric_not_lt_of_lt {a b : Metric} (h1 : a.lt b = true) : b.lt a = false := by
  cases a <;> cases b <;> simp_all
  omega

theorem metric_eq_of_not_lt {a b : Metric} (h1 : a.lt b = false) (h2 : b.lt a = false) : a = b := by
  cases a <;> cases b <;> simp_all
  omega

theorem metric_not_lt_self (a : Metric) : a.lt a = false := by cases a <;> simp

/-- The scan for the least state, up to state `n`. -/
theorem scan_spec (pm : Nat → Metric) (n : Nat) :
   let F := (List.range' 1 n).foldl (fun f s => if (pm s).lt (pm f) then s else f) 0
   F ≤ n ∧ (∀ x ≤ n, (pm x).lt (pm F) = false) ∧ (∀ x < F, (pm F).lt (pm x) = true) := by
  induction n with
  | zero => simp [metric_not_lt_self]
  | succ n ih =>
    obtain ⟨h1, h2, h3⟩ := ih
    rw [List.range'_1_concat, List.foldl_append]
    simp only [List.foldl_cons, List.foldl_nil]
    generalize List.foldl _ 0 (List.range' 1 n) = F at *
    rw [Nat.add_comm 1 n]
    split
    · rename_i h
      refine ⟨le_rfl, ?_, ?_⟩
      · intro x hx
        rcases Nat.lt_or_ge x (n+1) with hx' | hx'
        · exact metric_not_lt_trans (metric_not_lt_of_lt h) (h2 x (by omega))
        · have : x = n + 1 := by omega
          subst this; exact metric_not_lt_self _
      · intro x hx
        exact metric_lt_of_lt_of_not_lt h (h2 x (by omega))
    · rename_i h
      refine ⟨by omega, ?_, h3⟩
      intro x hx
      rcases Nat.lt_or_ge x (n+1) with hx' | hx'
      · exact h2 x (by omega)
      · have : x = n + 1 := by omega
        subst this; simpa using h

/-- What the scan finds: a state, of least metric, the first such (43_traceback.md R191). -/
theorem Codec.leastState_spec (c : Codec) (pm : Nat → Metric) :
    c.leastState pm < c.S ∧ (∀ x < c.S, (pm x).lt (pm (c.leastState pm)) = false) ∧
    (∀ x < c.leastState pm, (pm (c.leastState pm)).lt (pm x) = true) := by
  obtain ⟨h1, h2, h3⟩ := scan_spec pm (c.S - 1)
  have := c.S_pos
  exact ⟨by unfold Codec.leastState; omega, fun x hx => h2 x (by omega), h3⟩

/-- The scan reads the column at the states below `S` only (20_memory.md R79). -/
theorem Codec.leastState_congr (c : Codec) (pm pm' : Nat → Metric) (h : ∀ x < c.S, pm x = pm' x) :
    c.leastState pm = c.leastState pm' := by
  obtain ⟨h1, h2, h3⟩ := Codec.leastState_spec c pm
  obtain ⟨g1, g2, g3⟩ := Codec.leastState_spec c pm'
  rcases lt_trichotomy (c.leastState pm) (c.leastState pm') with hl | hl | hl
  · have a := g3 _ hl; have b := h2 _ g1
    rw [h _ g1, h _ h1] at b; rw [b] at a; simp at a
  · exact hl
  · have a := h3 _ hl; have b := g2 _ h1
    rw [h _ g1, h _ h1] at a; rw [b] at a; simp at a

end Sys2Proof.Machine
end

