-- ==== Sys2Proof/Laws/Encoder.lean ====
section
/-! SUPPORT. The codec of the active configuration, and the register along an encode call (41_encoder.md). -/

namespace Sys2Proof.Machine

open Sys2Proof

/-- The codec's tap masks are those of the registers (40_config.md R128). -/
theorem ActiveConfig.codec_taps (cfg : ActiveConfig) (i : Nat) (h : i < cfg.nPoly) :
    cfg.codec.taps[i]? = some (tapMask cfg i) := by
  simp [ActiveConfig.codec, h, effectiveTap, tapMask]

@[simp] theorem ActiveConfig.codec_k (cfg : ActiveConfig) :
    cfg.codec.k = cfg.nPoly := by simp [ActiveConfig.codec, Codec.k]

@[simp] theorem ActiveConfig.codec_K (cfg : ActiveConfig) : cfg.codec.K = cfg.K := rfl

/-- Bit `j` of the register: the bit `j` steps back, or what was in the register before. -/
theorem Codec.testBit_encodeFrom (c : Codec) (r : Nat) (bits : List Bool) (hr : r < 2 ^ c.K) (j : Nat) :
    (c.encodeFrom r bits).1.testBit j = (decide (j < c.K) &&
      if j < bits.length then (bits[bits.length - 1 - j]?).getD false else r.testBit (j - bits.length)) := by
  induction bits generalizing r with
  | nil =>
    simp [Codec.encodeFrom]
    intro h; by_contra hj
    rw [Nat.testBit_lt_two_pow (lt_of_lt_of_le hr (Nat.pow_le_pow_right (by omega) (not_lt.1 hj)))] at h
    simp at h
  | cons b bs ih =>
    rw [Codec.encodeFrom, ih _ (c.shift_lt r b), c.testBit_shift]
    by_cases hj : j < c.K
    · rcases lt_trichotomy j bs.length with h | h | h
      · have : bs.length + 1 - 1 - j = (bs.length - 1 - j) + 1 := by omega
        simp only [hj, h, show j < bs.length + 1 by omega, List.length_cons, this, List.getElem?_cons_succ, if_true]
      · subst h; simp [hj, show 0 < c.K by omega]
      · simp [hj, show ¬ j < bs.length by omega, show ¬ j < bs.length + 1 by omega, show j - bs.length ≠ 0 by omega,
        show j - bs.length < c.K by omega,
         show j - bs.length - 1 = j - (bs.length + 1) by omega]
    · simp [hj]

/-- Encoding a list in two parts. -/
theorem Codec.encodeFrom_append (c : Codec) (r : Nat) (xs ys : List Bool) :
   c.encodeFrom r (xs ++ ys) = ((c.encodeFrom (c.encodeFrom r xs).1 ys).1,
     (c.encodeFrom r xs).2 ++ (c.encodeFrom (c.encodeFrom r xs).1 ys).2) := by
  induction xs generalizing r with
  | nil => simp [Codec.encodeFrom]
  | cons b bs ih => simp [Codec.encodeFrom, ih]

end Sys2Proof.Machine
end

