-- ==== Sys2Proof/Laws/Calls.lean ====
section
/-! SUPPORT. Command sequences, the hint as a number, and the lengths of whole calls (45_call_contracts.md). -/

namespace Sys2Proof.Machine

open Sys2Proof

/-- A command sequence in two parts (00_scope.md R16). -/
theorem execAll_append (xs ys : List Instr) (s : State) :
    execAll (xs ++ ys) s =
      match execAll xs s with
      | .next t => execAll ys t
      | .fault r => .fault r
      | .refused r => .refused r := by
  induction xs generalizing s with
  | nil => simp [execAll]
  | cons x xs ih =>
    simp only [List.cons_append, execAll]
    cases exec x s <;> simp [ih]

/-- One more hint bit doubles the value (20_memory.md R68). -/
theorem hintValue_snoc (bits : List Bool) (b : Bool) : hintValue (bits ++ [b]) = 2 * hintValue bits + b.toNat := by
  simp [hintValue]

theorem hintValue_lt (bits : List Bool) : hintValue bits < 2 ^ bits.length := by
  induction bits using List.reverseRecOn with
  | nil => simp [hintValue]
  | append_singleton bits b ih => rw [hintValue_snoc]; simp [pow_succ]; have := Bool.toNat_le b; omega

/-- The register stays below `S`. -/
theorem Codec.finalReg_lt (c : Codec) (bits : List Bool) : c.finalReg bits < c.S := by
  apply Nat.lt_pow_two_of_testBit; intro j hj
  rw [Codec.finalReg, c.testBit_encodeFrom _ _ (Nat.two_pow_pos _)]; simp; intro h; omega

/-- `k` coded bits a step (45_call_contracts.md R221). -/
theorem Codec.length_encodeFrom (c : Codec) (r : Nat) (bits : List Bool) :
    (c.encodeFrom r bits).2.length = bits.length * c.k := by
  induction bits generalizing r with
  | nil => simp [Codec.encodeFrom]
  | cons b bs ih => simp [Codec.encodeFrom, ih]; ring

end Sys2Proof.Machine
end

