-- ==== Sys2Proof/Laws/Memory.lean ====
section
/-! SUPPORT. The laws of the internal memories and of the register files. -/

namespace Sys2Proof.Machine

variable {α : Type}

@[simp] theorem Memory.read?_nil (a : Nat) : Memory.read? ([] : Memory α) a = none := rfl

/-- A read after a write at the same index gives the word written. -/
@[simp] theorem Memory.read?_write_same (m : Memory α) (a : Nat) (v : α) :
    Memory.read? (Memory.write m a v) a = some v := by
  induction m with
  | nil => simp [Memory.write, Memory.read?]
  | cons p m ih =>
    obtain ⟨b, w⟩ := p
    unfold Memory.write
    split
    · simp [Memory.read?]
    · split
      · simp [Memory.read?]
      · rename_i hab; simp [Memory.read?, hab, ih]

/-- A write leaves every other index alone. -/
theorem Memory.read?_write_ne (m : Memory α) {a a' : Nat} (v : α) (h : a' ≠ a) :
    Memory.read? (Memory.write m a v) a' = Memory.read? m a' := by
  induction m with
  | nil => simp [Memory.write, Memory.read?, h]
  | cons p m ih =>
    obtain ⟨b, w⟩ := p
    unfold Memory.write
    split
    · simp [Memory.read?, h]
    · split
      · rename_i hab; subst hab; simp [Memory.read?, h]
      · simp [Memory.read?, ih]

theorem Memory.mem_write {m : Memory α} {a : Nat} {v : α} {x : Nat × α} (h : x ∈ Memory.write m a v) :
    x = (a, v) ∨ x ∈ m := by
  induction m with
  | nil => simpa [Memory.write] using h
  | cons p m ih =>
    obtain ⟨b, w⟩ := p
    unfold Memory.write at h
    split at h
    · simpa using h
    · split at h
      · rcases List.mem_cons.1 h with h | h
        · exact .inl h
        · exact .inr (List.mem_cons_of_mem _ h)
      · rcases List.mem_cons.1 h with h | h
        · exact .inr (h ▸ List.mem_cons_self)
        · exact (ih h).imp_right (List.mem_cons_of_mem _)

/-- A write keeps the canonical form. -/
theorem Memory.wf_write {m : Memory α} (a : Nat) (v : α) (h : Memory.wf m) : Memory.wf (Memory.write m a v) := by
  induction m with
  | nil => simp [Memory.write]
  | cons p m ih =>
    obtain ⟨b, w⟩ := p
    obtain ⟨hb, hm⟩ := List.pairwise_cons.1 h
    unfold Memory.write
    split
    · rename_i hab
      refine List.pairwise_cons.2 ⟨?_, h⟩
      intro x hx
      rcases List.mem_cons.1 hx with rfl | hx
      · exact hab
      · exact lt_trans hab (hb x hx)
    · split
      · rename_i hab; subst hab; exact List.pairwise_cons.2 ⟨hb, hm⟩
      · rename_i h1 h2
        refine List.pairwise_cons.2 ⟨?_, ih hm⟩
        intro x hx
        rcases Memory.mem_write hx with rfl | hx
        · change b < a; omega
        · exact hb x hx

theorem Memory.wf_nil : Memory.wf ([] : Memory α) := List.Pairwise.nil

variable {n : Nat}

@[simp] theorem readReg_regFile (f : Nat → BitVec n) (i : Nat) (h : i < 16) : readReg (regFile f) i = f i := by
  rcases i with _ | _ | _ | _ | _ | _ | _ | _ | _ | _ | _ | _ | _ | _ | _ | _ | i <;> first | rfl | omega

theorem readReg_of_ge (v : Vector (BitVec n) 16) {i : Nat} (h : 16 ≤ i) : readReg v i = 0 := by
  simp [readReg, h]

@[simp] theorem readReg_zeros16 (i : Nat) : readReg (zeros16 n) i = 0 := by
  by_cases h : i < 16
  · rcases i with _ | _ | _ | _ | _ | _ | _ | _ | _ | _ | _ | _ | _ | _ | _ | _ | i <;> rfl
  · exact readReg_of_ge _ (by omega)

/-- A register read after a write. -/
theorem readReg_writeReg (v : Vector (BitVec n) 16) (i j : Nat) (x : BitVec n) :
    readReg (writeReg v i x) j = if i = j ∧ j < 16 then x else readReg v j := by
  by_cases hj : j < 16
  · by_cases hij : i = j
    · subst hij; simp [readReg, writeReg, hj]
    · simp [readReg, writeReg, hij, hj]
  · have h1 : readReg (writeReg v i x) j = 0 := readReg_of_ge _ (by omega)
    have h2 : readReg v j = 0 := readReg_of_ge _ (by omega)
    simp [h1, h2, hj]

theorem readReg_eq_getElem (v : Vector (BitVec n) 16) (i : Nat) (h : i < 16) : readReg v i = v[i] := by
  simp [readReg, h]

end Sys2Proof.Machine
end

