-- ==== Sys2Proof/Laws/Config.lean ====
section
/-! SUPPORT. What the configuration commands compute from the staged list (spec/40_config.md). -/

namespace Sys2Proof.Machine

open Sys2Proof

/-- The running maximum is at least its start and every entry, and is one of them. -/
theorem foldl_max_spec (l : List KWord) (a : Nat) : a ≤ l.foldl (fun m p => max m p.toNat) a ∧
   (∀ p ∈ l, p.toNat ≤ l.foldl (fun m p => max m p.toNat) a) ∧
   (l.foldl (fun m p => max m p.toNat) a = a ∨ ∃ p ∈ l, p.toNat = l.foldl (fun m p => max m p.toNat) a) := by
  induction l generalizing a with
  | nil => simp
  | cons x l ih =>
    obtain ⟨h1, h2, h3⟩ := ih (max a x.toNat)
    simp only [List.foldl_cons, List.mem_cons, forall_eq_or_imp]
    refine ⟨by omega, ⟨by omega, h2⟩, ?_⟩
    rcases h3 with h3 | ⟨p, hp, h3⟩
    · rcases le_total a x.toNat with h | h
      · right; exact ⟨x, by simp, by rw [h3]; omega⟩
      · left; rw [h3]; omega
    · right; exact ⟨p, by simp [hp], h3⟩

/-- No entry is above the largest. -/
theorem toNat_le_maxPoly {l : List KWord} {p : KWord} (h : p ∈ l) : p.toNat ≤ maxPoly l := (foldl_max_spec l 0).2.1 p h

/-- The largest is an entry. -/
theorem maxPoly_mem {l : List KWord} (h : l ≠ []) : ∃ p ∈ l, p.toNat = maxPoly l := by
  obtain ⟨x, hx⟩ := List.exists_mem_of_ne_nil l h
  rcases (foldl_max_spec l 0).2.2 with h0 | h1
  · refine ⟨x, hx, ?_⟩
    have := toNat_le_maxPoly hx
    unfold maxPoly at *
    omega
  · exact h1

theorem polys_mem (g : Staging) (q : KWord) : q ∈ g.polys ↔ ∃ i < g.spCount, readReg g.sPoly i = q := by
  simp [Staging.polys]

theorem maxPoly_eq (g : Staging) (m : Nat) (h1 : ∃ i < g.spCount, (readReg g.sPoly i).toNat = m)
    (h2 : ∀ i < g.spCount, (readReg g.sPoly i).toNat ≤ m) :
   maxPoly g.polys = m := by
  obtain ⟨i, hi, he⟩ := h1
  obtain ⟨ha, hb, hc⟩ := foldl_max_spec g.polys 0
  have := hb (readReg g.sPoly i) ((polys_mem g _).2 ⟨i, hi, rfl⟩)
  unfold maxPoly
  rcases hc with hc | ⟨p, hp, hc⟩
  · omega
  · obtain ⟨j, hj, rfl⟩ := (polys_mem g _).1 hp
    have := h2 j hj
    omega

theorem stagedInvalid_iff (g : Staging) : stagedInvalid g = true ↔
    (g.spCount = 0 ∨ g.spOvf = true ∨ ∃ i < g.spCount, readReg g.sPoly i = 0) := by
  unfold stagedInvalid
  rw [Bool.or_eq_true, Bool.or_eq_true, List.any_eq_true]
  constructor
  · rintro ((h | h) | ⟨x, hx, h⟩)
    · left; simpa using h
    · right; left; exact h
    · right; right; obtain ⟨i, hi, rfl⟩ := (polys_mem g _).1 hx; exact ⟨i, hi, by simpa using h⟩
  · rintro (h | h | ⟨i, hi, h⟩)
    · simp [h]
    · simp [h]
    · right; exact ⟨_, (polys_mem g _).2 ⟨i, hi, rfl⟩, by simp [h]⟩

theorem callOpen_iff (s : State) : callOpen s = true ↔ s.enc.encSt = .active ∨ s.dec.decSt = .run := by
  simp [callOpen]

theorem callOpen_false (s : State) (h : s.enc.encSt = .idle) (h' : s.dec.decSt = .idle) : callOpen s = false := by
  simp [callOpen, h, h']

end Sys2Proof.Machine
end

