-- ==== Sys2Proof/Laws/Encoding.lean ====
section
/-! SUPPORT. The fields of the word of a command, and that every command is well-formed (30_encoding.md R90 to R94,
R98). -/

namespace Sys2Proof

/-- The operand types have the widths of the fields, so no command is an assembly error. -/
theorem Instr.wellFormed_of_type (i : Instr) : i.wellFormed = true := by
  cases i with
  | cpoly p => simpa [Instr.wellFormed, Instr.toAsm, Asm.wellFormed] using p.isLt
  | crev b => cases b <;> rfl
  | ebit b => cases b <;> rfl
  | dhbit b => cases b <;> rfl
  | dstart h l => simpa [Instr.wellFormed, Instr.toAsm, Asm.wellFormed] using l.isLt
  | dsoft o => have := o.isLt; simp [Instr.wellFormed, Instr.toAsm, Asm.wellFormed]; omega
  | _ => rfl

/-- The opcode of a word put together from opcode and payload. -/
theorem opField_append (a : BitVec 4) (b : BitVec 28) : opField (a ++ b) = a := by
  unfold opField; rw [BitVec.extractLsb'_append_eq_left]

/-- The payload of a word put together from opcode and payload. -/
theorem payload_append (a : BitVec 4) (b : BitVec 28) : payload (a ++ b) = b := by
  unfold payload; rw [BitVec.extractLsb'_append_eq_right]

/-- A word is its opcode above its payload (R90). -/
theorem word_eq_append (w : Word) : (opField w ++ payload w : Word) = w := by
  apply BitVec.eq_of_toNat_eq
  rw [BitVec.toNat_append, ← Nat.shiftLeft_add_eq_or_of_lt (payload w).isLt]
  simp only [opField, payload, BitVec.extractLsb'_toNat, Nat.shiftLeft_eq, Nat.shiftRight_eq_div_pow]
  have := w.isLt
  omega

theorem toNat_append_28 (a : BitVec 4) (b : BitVec 28) : (a ++ b : Word).toNat = a.toNat * 2 ^ 28 + b.toNat := by
  rw [BitVec.toNat_append, ← Nat.shiftLeft_add_eq_or_of_lt b.isLt, Nat.shiftLeft_eq]

theorem opField_toNat (w : Word) : (opField w).toNat = w.toNat / 2 ^ 28 := by
  have := w.isLt
  simp only [opField, BitVec.extractLsb'_toNat, Nat.shiftRight_eq_div_pow]
  omega

theorem payload_toNat (w : Word) : (payload w).toNat = w.toNat % 2 ^ 28 := by
  simp [payload, BitVec.extractLsb'_toNat]

end Sys2Proof
end

