-- ==== Sys2Proof/Laws/State.lean ====
section
/-! SUPPORT. One lemma a field of State and named update: what the update leaves in the field. -/

namespace Sys2Proof.Machine

@[simp] theorem emitEnc_params (bits : List Bool) (s : State) : (emitEnc bits s).params = s.params := rfl
@[simp] theorem emitEnc_cfg (bits : List Bool) (s : State) : (emitEnc bits s).cfg = s.cfg := rfl
@[simp] theorem emitEnc_stg (bits : List Bool) (s : State) : (emitEnc bits s).stg = s.stg := rfl
@[simp] theorem emitEnc_enc (bits : List Bool) (s : State) : (emitEnc bits s).enc = s.enc := rfl
@[simp] theorem emitEnc_dec (bits : List Bool) (s : State) : (emitEnc bits s).dec = s.dec := rfl
@[simp] theorem emitEnc_tb (bits : List Bool) (s : State) : (emitEnc bits s).tb = s.tb := rfl
@[simp] theorem emitEnc_errFlags (bits : List Bool) (s : State) : (emitEnc bits s).errFlags = s.errFlags := rfl
@[simp] theorem emitEnc_cmd (bits : List Bool) (s : State) : (emitEnc bits s).cmd = s.cmd := rfl
@[simp] theorem emitEnc_resetIn (bits : List Bool) (s : State) : (emitEnc bits s).resetIn = s.resetIn := rfl
@[simp] theorem emitEnc_rsp (bits : List Bool) (s : State) : (emitEnc bits s).rsp = s.rsp := rfl
@[simp] theorem emitEnc_encOut (bits : List Bool) (s : State) : (emitEnc bits s).encOut = s.encOut ++ bits := rfl
@[simp] theorem emitEnc_decOut (bits : List Bool) (s : State) : (emitEnc bits s).decOut = s.decOut := rfl
@[simp] theorem emitEnc_epoch (bits : List Bool) (s : State) : (emitEnc bits s).epoch = s.epoch := rfl

@[simp] theorem emitDec_params (bits : List Bool) (s : State) : (emitDec bits s).params = s.params := rfl
@[simp] theorem emitDec_cfg (bits : List Bool) (s : State) : (emitDec bits s).cfg = s.cfg := rfl
@[simp] theorem emitDec_stg (bits : List Bool) (s : State) : (emitDec bits s).stg = s.stg := rfl
@[simp] theorem emitDec_enc (bits : List Bool) (s : State) : (emitDec bits s).enc = s.enc := rfl
@[simp] theorem emitDec_dec (bits : List Bool) (s : State) : (emitDec bits s).dec = s.dec := rfl
@[simp] theorem emitDec_tb (bits : List Bool) (s : State) : (emitDec bits s).tb = s.tb := rfl
@[simp] theorem emitDec_errFlags (bits : List Bool) (s : State) : (emitDec bits s).errFlags = s.errFlags := rfl
@[simp] theorem emitDec_cmd (bits : List Bool) (s : State) : (emitDec bits s).cmd = s.cmd := rfl
@[simp] theorem emitDec_resetIn (bits : List Bool) (s : State) : (emitDec bits s).resetIn = s.resetIn := rfl
@[simp] theorem emitDec_rsp (bits : List Bool) (s : State) : (emitDec bits s).rsp = s.rsp := rfl
@[simp] theorem emitDec_encOut (bits : List Bool) (s : State) : (emitDec bits s).encOut = s.encOut := rfl
@[simp] theorem emitDec_decOut (bits : List Bool) (s : State) : (emitDec bits s).decOut = s.decOut ++ bits := rfl
@[simp] theorem emitDec_epoch (bits : List Bool) (s : State) : (emitDec bits s).epoch = s.epoch := rfl

@[simp] theorem pushRsp_params (w : Word) (s : State) : (pushRsp w s).params = s.params := rfl
@[simp] theorem pushRsp_cfg (w : Word) (s : State) : (pushRsp w s).cfg = s.cfg := rfl
@[simp] theorem pushRsp_stg (w : Word) (s : State) : (pushRsp w s).stg = s.stg := rfl
@[simp] theorem pushRsp_enc (w : Word) (s : State) : (pushRsp w s).enc = s.enc := rfl
@[simp] theorem pushRsp_dec (w : Word) (s : State) : (pushRsp w s).dec = s.dec := rfl
@[simp] theorem pushRsp_tb (w : Word) (s : State) : (pushRsp w s).tb = s.tb := rfl
@[simp] theorem pushRsp_errFlags (w : Word) (s : State) : (pushRsp w s).errFlags = s.errFlags := rfl
@[simp] theorem pushRsp_cmd (w : Word) (s : State) : (pushRsp w s).cmd = s.cmd := rfl
@[simp] theorem pushRsp_resetIn (w : Word) (s : State) : (pushRsp w s).resetIn = s.resetIn := rfl
@[simp] theorem pushRsp_rsp (w : Word) (s : State) : (pushRsp w s).rsp = s.rsp ++ [w] := rfl
@[simp] theorem pushRsp_encOut (w : Word) (s : State) : (pushRsp w s).encOut = s.encOut := rfl
@[simp] theorem pushRsp_decOut (w : Word) (s : State) : (pushRsp w s).decOut = s.decOut := rfl
@[simp] theorem pushRsp_epoch (w : Word) (s : State) : (pushRsp w s).epoch = s.epoch := rfl

@[simp] theorem raiseFlag_params (c : Status) (s : State) : (raiseFlag c s).params = s.params := rfl
@[simp] theorem raiseFlag_cfg (c : Status) (s : State) : (raiseFlag c s).cfg = s.cfg := rfl
@[simp] theorem raiseFlag_stg (c : Status) (s : State) : (raiseFlag c s).stg = s.stg := rfl
@[simp] theorem raiseFlag_enc (c : Status) (s : State) : (raiseFlag c s).enc = s.enc := rfl
@[simp] theorem raiseFlag_dec (c : Status) (s : State) : (raiseFlag c s).dec = s.dec := rfl
@[simp] theorem raiseFlag_tb (c : Status) (s : State) : (raiseFlag c s).tb = s.tb := rfl
@[simp] theorem raiseFlag_errFlags (c : Status) (s : State) :
    (raiseFlag c s).errFlags = s.errFlags ||| errBit c := rfl
@[simp] theorem raiseFlag_cmd (c : Status) (s : State) : (raiseFlag c s).cmd = s.cmd := rfl
@[simp] theorem raiseFlag_resetIn (c : Status) (s : State) : (raiseFlag c s).resetIn = s.resetIn := rfl
@[simp] theorem raiseFlag_rsp (c : Status) (s : State) : (raiseFlag c s).rsp = s.rsp := rfl
@[simp] theorem raiseFlag_encOut (c : Status) (s : State) : (raiseFlag c s).encOut = s.encOut := rfl
@[simp] theorem raiseFlag_decOut (c : Status) (s : State) : (raiseFlag c s).decOut = s.decOut := rfl
@[simp] theorem raiseFlag_epoch (c : Status) (s : State) : (raiseFlag c s).epoch = s.epoch := rfl

@[simp] theorem hostSend_params (w : Word) (s : State) : (hostSend w s).params = s.params := rfl
@[simp] theorem hostSend_cfg (w : Word) (s : State) : (hostSend w s).cfg = s.cfg := rfl
@[simp] theorem hostSend_stg (w : Word) (s : State) : (hostSend w s).stg = s.stg := rfl
@[simp] theorem hostSend_enc (w : Word) (s : State) : (hostSend w s).enc = s.enc := rfl
@[simp] theorem hostSend_dec (w : Word) (s : State) : (hostSend w s).dec = s.dec := rfl
@[simp] theorem hostSend_tb (w : Word) (s : State) : (hostSend w s).tb = s.tb := rfl
@[simp] theorem hostSend_errFlags (w : Word) (s : State) : (hostSend w s).errFlags = s.errFlags := rfl
@[simp] theorem hostSend_cmd (w : Word) (s : State) : (hostSend w s).cmd = s.cmd ++ [w] := rfl
@[simp] theorem hostSend_resetIn (w : Word) (s : State) : (hostSend w s).resetIn = s.resetIn := rfl
@[simp] theorem hostSend_rsp (w : Word) (s : State) : (hostSend w s).rsp = s.rsp := rfl
@[simp] theorem hostSend_encOut (w : Word) (s : State) : (hostSend w s).encOut = s.encOut := rfl
@[simp] theorem hostSend_decOut (w : Word) (s : State) : (hostSend w s).decOut = s.decOut := rfl
@[simp] theorem hostSend_epoch (w : Word) (s : State) : (hostSend w s).epoch = s.epoch := rfl

@[simp] theorem hostReset_params (s : State) : (hostReset s).params = s.params := rfl
@[simp] theorem hostReset_cfg (s : State) : (hostReset s).cfg = s.cfg := rfl
@[simp] theorem hostReset_stg (s : State) : (hostReset s).stg = s.stg := rfl
@[simp] theorem hostReset_enc (s : State) : (hostReset s).enc = s.enc := rfl
@[simp] theorem hostReset_dec (s : State) : (hostReset s).dec = s.dec := rfl
@[simp] theorem hostReset_tb (s : State) : (hostReset s).tb = s.tb := rfl
@[simp] theorem hostReset_errFlags (s : State) : (hostReset s).errFlags = s.errFlags := rfl
@[simp] theorem hostReset_cmd (s : State) : (hostReset s).cmd = s.cmd := rfl
@[simp] theorem hostReset_resetIn (s : State) : (hostReset s).resetIn = true := rfl
@[simp] theorem hostReset_rsp (s : State) : (hostReset s).rsp = s.rsp := rfl
@[simp] theorem hostReset_encOut (s : State) : (hostReset s).encOut = s.encOut := rfl
@[simp] theorem hostReset_decOut (s : State) : (hostReset s).decOut = s.decOut := rfl
@[simp] theorem hostReset_epoch (s : State) : (hostReset s).epoch = s.epoch := rfl

@[simp] theorem presentWord_params (w : Word) (s : State) : (presentWord w s).params = s.params := rfl
@[simp] theorem presentWord_cfg (w : Word) (s : State) : (presentWord w s).cfg = s.cfg := rfl
@[simp] theorem presentWord_stg (w : Word) (s : State) : (presentWord w s).stg = s.stg := rfl
@[simp] theorem presentWord_enc (w : Word) (s : State) : (presentWord w s).enc = s.enc := rfl
@[simp] theorem presentWord_dec (w : Word) (s : State) : (presentWord w s).dec = s.dec := rfl
@[simp] theorem presentWord_tb (w : Word) (s : State) : (presentWord w s).tb = s.tb := rfl
@[simp] theorem presentWord_errFlags (w : Word) (s : State) : (presentWord w s).errFlags = s.errFlags := rfl
@[simp] theorem presentWord_cmd (w : Word) (s : State) : (presentWord w s).cmd = w :: s.cmd := rfl
@[simp] theorem presentWord_resetIn (w : Word) (s : State) : (presentWord w s).resetIn = false := rfl
@[simp] theorem presentWord_rsp (w : Word) (s : State) : (presentWord w s).rsp = s.rsp := rfl
@[simp] theorem presentWord_encOut (w : Word) (s : State) : (presentWord w s).encOut = s.encOut := rfl
@[simp] theorem presentWord_decOut (w : Word) (s : State) : (presentWord w s).decOut = s.decOut := rfl
@[simp] theorem presentWord_epoch (w : Word) (s : State) : (presentWord w s).epoch = s.epoch := rfl

@[simp] theorem resetRegs_params (s : State) : (resetRegs s).params = s.params := rfl
@[simp] theorem resetRegs_cfg (s : State) : (resetRegs s).cfg = State.reset.cfg := rfl
@[simp] theorem resetRegs_stg (s : State) : (resetRegs s).stg = State.reset.stg := rfl
@[simp] theorem resetRegs_enc (s : State) : (resetRegs s).enc = State.reset.enc := rfl
@[simp] theorem resetRegs_dec (s : State) : (resetRegs s).dec = State.reset.dec := rfl
@[simp] theorem resetRegs_tb (s : State) : (resetRegs s).tb = State.reset.tb := rfl
@[simp] theorem resetRegs_errFlags (s : State) : (resetRegs s).errFlags = State.reset.errFlags := rfl
@[simp] theorem resetRegs_cmd (s : State) : (resetRegs s).cmd = s.cmd := rfl
@[simp] theorem resetRegs_resetIn (s : State) : (resetRegs s).resetIn = s.resetIn := rfl
@[simp] theorem resetRegs_rsp (s : State) : (resetRegs s).rsp = s.rsp := rfl
@[simp] theorem resetRegs_encOut (s : State) : (resetRegs s).encOut = s.encOut := rfl
@[simp] theorem resetRegs_decOut (s : State) : (resetRegs s).decOut = s.decOut := rfl
@[simp] theorem resetRegs_epoch (s : State) : (resetRegs s).epoch = s.epoch + 1 := rfl

@[simp] theorem resetEvent_params (s : State) : (resetEvent s).params = s.params := rfl
@[simp] theorem resetEvent_cfg (s : State) : (resetEvent s).cfg = State.reset.cfg := rfl
@[simp] theorem resetEvent_stg (s : State) : (resetEvent s).stg = State.reset.stg := rfl
@[simp] theorem resetEvent_enc (s : State) : (resetEvent s).enc = State.reset.enc := rfl
@[simp] theorem resetEvent_dec (s : State) : (resetEvent s).dec = State.reset.dec := rfl
@[simp] theorem resetEvent_tb (s : State) : (resetEvent s).tb = State.reset.tb := rfl
@[simp] theorem resetEvent_errFlags (s : State) : (resetEvent s).errFlags = State.reset.errFlags := rfl
@[simp] theorem resetEvent_cmd (s : State) : (resetEvent s).cmd = s.cmd := rfl
@[simp] theorem resetEvent_resetIn (s : State) : (resetEvent s).resetIn = false := rfl
@[simp] theorem resetEvent_rsp (s : State) : (resetEvent s).rsp = s.rsp := rfl
@[simp] theorem resetEvent_encOut (s : State) : (resetEvent s).encOut = s.encOut := rfl
@[simp] theorem resetEvent_decOut (s : State) : (resetEvent s).decOut = s.decOut := rfl
@[simp] theorem resetEvent_epoch (s : State) : (resetEvent s).epoch = s.epoch + 1 := rfl

@[simp] theorem clearHint_params (s : State) : (clearHint s).params = s.params := rfl
@[simp] theorem clearHint_cfg (s : State) : (clearHint s).cfg = s.cfg := rfl
@[simp] theorem clearHint_stg (s : State) : (clearHint s).stg = s.stg := rfl
@[simp] theorem clearHint_enc (s : State) : (clearHint s).enc = s.enc := rfl
@[simp] theorem clearHint_dec (s : State) : (clearHint s).dec = { s.dec with hLen := 0, hint := 0 } := rfl
@[simp] theorem clearHint_tb (s : State) : (clearHint s).tb = s.tb := rfl
@[simp] theorem clearHint_errFlags (s : State) : (clearHint s).errFlags = s.errFlags := rfl
@[simp] theorem clearHint_cmd (s : State) : (clearHint s).cmd = s.cmd := rfl
@[simp] theorem clearHint_resetIn (s : State) : (clearHint s).resetIn = s.resetIn := rfl
@[simp] theorem clearHint_rsp (s : State) : (clearHint s).rsp = s.rsp := rfl
@[simp] theorem clearHint_encOut (s : State) : (clearHint s).encOut = s.encOut := rfl
@[simp] theorem clearHint_decOut (s : State) : (clearHint s).decOut = s.decOut := rfl
@[simp] theorem clearHint_epoch (s : State) : (clearHint s).epoch = s.epoch := rfl

@[simp] theorem openCall_params (n : Nat) (h : Bool) (f : KWord) (s : State) :
    (openCall n h f s).params = s.params := rfl
@[simp] theorem openCall_cfg (n : Nat) (h : Bool) (f : KWord) (s : State) : (openCall n h f s).cfg = s.cfg := rfl
@[simp] theorem openCall_stg (n : Nat) (h : Bool) (f : KWord) (s : State) : (openCall n h f s).stg = s.stg := rfl
@[simp] theorem openCall_enc (n : Nat) (h : Bool) (f : KWord) (s : State) : (openCall n h f s).enc = s.enc := rfl
@[simp] theorem openCall_dec (n : Nat) (h : Bool) (f : KWord) (s : State) :
    (openCall n h f s).dec = { s.dec with decSt := .run, nReg := n, C := 0, G := 0, hintEn := h, fState := f, pm :=
    s.cfg.codec.column0 } := rfl
@[simp] theorem openCall_tb (n : Nat) (h : Bool) (f : KWord) (s : State) : (openCall n h f s).tb = s.tb := rfl
@[simp] theorem openCall_errFlags (n : Nat) (h : Bool) (f : KWord) (s : State) :
    (openCall n h f s).errFlags = s.errFlags := rfl
@[simp] theorem openCall_cmd (n : Nat) (h : Bool) (f : KWord) (s : State) : (openCall n h f s).cmd = s.cmd := rfl
@[simp] theorem openCall_resetIn (n : Nat) (h : Bool) (f : KWord) (s : State) :
    (openCall n h f s).resetIn = s.resetIn := rfl
@[simp] theorem openCall_rsp (n : Nat) (h : Bool) (f : KWord) (s : State) : (openCall n h f s).rsp = s.rsp := rfl
@[simp] theorem openCall_encOut (n : Nat) (h : Bool) (f : KWord) (s : State) :
    (openCall n h f s).encOut = s.encOut := rfl
@[simp] theorem openCall_decOut (n : Nat) (h : Bool) (f : KWord) (s : State) :
    (openCall n h f s).decOut = s.decOut := rfl
@[simp] theorem openCall_epoch (n : Nat) (h : Bool) (f : KWord) (s : State) :
    (openCall n h f s).epoch = s.epoch := rfl

@[simp] theorem releaseDecoder_params (s : State) : (releaseDecoder s).params = s.params := rfl
@[simp] theorem releaseDecoder_cfg (s : State) : (releaseDecoder s).cfg = s.cfg := rfl
@[simp] theorem releaseDecoder_stg (s : State) : (releaseDecoder s).stg = s.stg := rfl
@[simp] theorem releaseDecoder_enc (s : State) : (releaseDecoder s).enc = s.enc := rfl
@[simp] theorem releaseDecoder_dec (s : State) :
    (releaseDecoder s).dec = { s.dec with obs := regFile (unspecAt s.params (s.epoch + 1)).obs, pm := [], surv := [] } :=
    rfl
@[simp] theorem releaseDecoder_tb (s : State) :
    (releaseDecoder s).tb = { tbS := (unspecAt s.params (s.epoch + 1)).tbS, tbC :=
    (unspecAt s.params (s.epoch + 1)).tbC, tbBuf := [] } := rfl
@[simp] theorem releaseDecoder_errFlags (s : State) : (releaseDecoder s).errFlags = s.errFlags := rfl
@[simp] theorem releaseDecoder_cmd (s : State) : (releaseDecoder s).cmd = s.cmd := rfl
@[simp] theorem releaseDecoder_resetIn (s : State) : (releaseDecoder s).resetIn = s.resetIn := rfl
@[simp] theorem releaseDecoder_rsp (s : State) : (releaseDecoder s).rsp = s.rsp := rfl
@[simp] theorem releaseDecoder_encOut (s : State) : (releaseDecoder s).encOut = s.encOut := rfl
@[simp] theorem releaseDecoder_decOut (s : State) : (releaseDecoder s).decOut = s.decOut := rfl
@[simp] theorem releaseDecoder_epoch (s : State) : (releaseDecoder s).epoch = s.epoch + 1 := rfl

/-- Unspecified contents of `TB_S` fit in `K_MAX` bits (10_state.md R41). -/
theorem unspecAt_tbS_lt (p : Params) (n : Nat) : (unspecAt p n).tbS.toNat < 2 ^ p.kMax :=
  lt_of_le_of_lt (by simpa [unspecAt, Unspec.cut] using Nat.mod_le _ _) (Nat.mod_lt _ (Nat.two_pow_pos _))

/-- Unspecified contents of `TB_C` fit in `bitlen(N_MAX)` bits (10_state.md R41). -/
theorem unspecAt_tbC_lt (p : Params) (n : Nat) : (unspecAt p n).tbC < 2 ^ bitlen p.nMax :=
  Nat.mod_lt _ (Nat.two_pow_pos _)

/-- An unspecified word of `PM` is the metric that some word of `PMW` bits stands for (10_state.md R38). -/
theorem unspecAt_pm (p : Params) (n s : Nat) : ∃ w, (unspecAt p n).pm s = Metric.ofWord p.pmw w := ⟨_, rfl⟩

end Sys2Proof.Machine
end

