-- ==== Sys2Proof/Laws/Exec.lean ====
section
/-! SUPPORT. What responding, rejecting and any one command do, said once. -/

namespace Sys2Proof.Machine

open Sys2Proof

/-- `respond(OK, info)` as the update of `RSP` it is. -/
theorem respond_ok (info : BitVec 28) (s : State) : respond .ok info s = .next (acceptedWith info.toNat s) := by
  have : respWord .ok info = BitVec.ofNat 32 info.toNat := by
    apply BitVec.eq_of_toNat_eq
    rw [respWord, toNat_append_28]
    have := info.isLt
    simp [statusCode]
    omega
  simp [respond, pushRsp, acceptedWith, this]

/-- `respond(OK, n)` for a count that fits. -/
theorem respond_ok_ofNat (n : Nat) (h : n < 2 ^ 28) (s : State) :
    respond .ok (BitVec.ofNat 28 n) s = .next (acceptedWith n s) := by
  rw [respond_ok]; congr 2; simpa using Nat.mod_eq_of_lt h

@[simp] theorem respond_ok_zero (s : State) : respond .ok 0#28 s = .next (acceptedWith 0 s) := respond_ok 0 s

/-- `reject(code)` as the update it is. -/
theorem reject_eq (c : Status) (h : c ≠ .ok) (s : State) :
    reject c s = .next (rejectedWith (statusCode c).toNat s) := by
  cases c <;> first | exact absurd rfl h | rfl

@[simp] theorem reject_protocol (s : State) : reject .protocol s = .next (rejectedWith 3 s) := rfl
@[simp] theorem reject_invalidInput (s : State) : reject .invalidInput s = .next (rejectedWith 2 s) := rfl
@[simp] theorem reject_capacity (s : State) : reject .capacity s = .next (rejectedWith 4 s) := rfl
@[simp] theorem reject_invalidConfiguration (s : State) :
    reject .invalidConfiguration s = .next (rejectedWith 1 s) := rfl

theorem clearHint_eq (s : State) : clearHint s = hintCleared s := rfl

/-- What any command does, said once: it answers with one response; a rejection is `reject` on the state it found, or,
for `DSTART`, on that state with the hint cleared; an accepted command appends its word to a state with the same
responses. -/
theorem exec_cases (i : Instr) (s : State) :
    (∃ c, c ≠ .ok ∧ (exec i s = reject c s ∨ ((∃ h l, i = .dstart h l) ∧ exec i s = reject c (clearHint s)))) ∨
    (∃ info t, exec i s = respond .ok info t ∧ t.rsp = s.rsp) := by
  cases i <;> simp only [exec, execCclr, execCpoly, execCrev, execCcommit, execEstart, execEbit, execEend, execDhbit,
    execDstart, execDsoft, dsoftWith, execDend, dendWith, execStat, execSrst]
  all_goals (repeat' split)
  all_goals first
    | exact .inr ⟨_, _, rfl, rfl⟩
    | exact .inl ⟨_, by decide, .inl rfl⟩
    | exact .inl ⟨_, by decide, .inr ⟨⟨_, _, rfl⟩, rfl⟩⟩

/-- No command stops the block (30_encoding.md R96). -/
theorem exec_next (i : Instr) (s : State) : ∃ t, exec i s = .next t := by
  rcases exec_cases i s with ⟨c, hc, h | ⟨-, h⟩⟩ | ⟨info, t, h, -⟩ <;> exact ⟨_, h⟩

/-- Two response words are equal only when code and `info` are (R91). -/
theorem respWord_inj {c c' : Status} {i i' : BitVec 28} (h : respWord c i = respWord c' i') : c = c' ∧ i = i' := by
  unfold respWord at h
  have h1 := congrArg opField h
  have h2 := congrArg payload h
  rw [opField_append, opField_append] at h1
  rw [payload_append, payload_append] at h2
  refine ⟨?_, h2⟩
  revert h1; cases c <;> cases c' <;> decide

/-- A response word as a number. -/
theorem respWord_ofNat (c : Status) (info : BitVec 28) :
    respWord c info = BitVec.ofNat 32 ((statusCode c).toNat * 2 ^ 28 + info.toNat) := by
  apply BitVec.eq_of_toNat_eq
  rw [respWord, toNat_append_28]
  have := info.isLt
  cases c <;> simp [statusCode] <;> omega

/-- Which code a command that rejects answers with. -/
theorem responds_reject (i : Instr) (s : State) (c : Status) (t : State) (ht : t.rsp = s.rsp)
    (h : exec i s = reject c t) (code : Nat) (hc : code ≤ 4) : Responds i s code ↔ code = (statusCode c).toNat := by
  have hr := respWord_ofNat c 0
  constructor
  · rintro ⟨t', info, h1, h2, h3⟩
    rw [h] at h1
    simp only [reject, respond, Host.Outcome.next.injEq] at h1
    subst h1
    simp only [pushRsp_rsp, raiseFlag_rsp, ht, hr] at h2
    have := List.append_cancel_left h2
    simp only [List.cons.injEq, and_true] at this
    have := congrArg BitVec.toNat this
    have h4 : (statusCode c).toNat ≤ 4 := by cases c <;> decide
    simp only [BitVec.toNat_ofNat] at this
    simp at this
    omega
  · rintro rfl
    refine ⟨_, 0, h, ?_, by norm_num⟩
    simp only [pushRsp_rsp, raiseFlag_rsp, ht, hr]; simp

/-- A command that responds `OK` answers with no other code. -/
theorem responds_ok (i : Instr) (s : State) (info : BitVec 28) (t : State) (ht : t.rsp = s.rsp)
    (h : exec i s = respond .ok info t) (code : Nat) (hc : code ≤ 4) : Responds i s code ↔ code = 0 := by
  have hr := respWord_ofNat .ok info
  constructor
  · rintro ⟨t', info', h1, h2, h3⟩
    rw [h] at h1
    simp only [respond, Host.Outcome.next.injEq] at h1
    subst h1
    simp only [pushRsp_rsp, ht, hr] at h2
    have := List.append_cancel_left h2
    simp only [List.cons.injEq, and_true] at this
    have := congrArg BitVec.toNat this
    have hlt := info.isLt
    simp only [statusCode] at this
    simp at this
    omega
  · rintro rfl
    refine ⟨_, info.toNat, h, ?_, info.isLt⟩
    simp only [pushRsp_rsp, ht, hr]; simp [statusCode]

end Sys2Proof.Machine
end

