-- ==== Sys2Proof/Laws/Format.lean ====
section
/-! SUPPORT. Which words the decoder reads by each payload format (30_encoding.md R92 to R95). -/

namespace Sys2Proof.Machine

open Sys2Proof

/-- A word that does not decode is rejected. -/
theorem wordRejected_of_error {w : Word} {e : IllegalWord} (h : decode w = .error e) : WordRejected w :=
  ⟨e, h, fun _ => rfl⟩

theorem decodeZ_spec (w : Word) (i : Instr) :
    (w.toNat % 2 ^ 28 = 0 → decodeZ w i = .ok i) ∧ (w.toNat % 2 ^ 28 ≠ 0 → ∃ e, decodeZ w i = .error e) := by
  have hp : payload w = 0 ↔ w.toNat % 2 ^ 28 = 0 := by rw [← payload_toNat, ← BitVec.toNat_inj]; rfl
  unfold decodeZ
  exact ⟨fun h => if_pos (hp.2 h), fun h => ⟨_, if_neg (mt hp.1 h)⟩⟩

theorem decodeB_spec (w : Word) (mk : Bool → Instr) :
    (∀ b : Bool, w.toNat % 2 ^ 28 = b.toNat → decodeB w mk = .ok (mk b)) ∧
      (2 ≤ w.toNat % 2 ^ 28 → ∃ e, decodeB w mk = .error e) := by
  have hp : w.extractLsb' 1 27 = 0 ↔ w.toNat % 2 ^ 28 < 2 := by
    rw [← BitVec.toNat_inj]
    simp only [BitVec.extractLsb'_toNat, Nat.shiftRight_eq_div_pow, BitVec.ofNat_eq_ofNat, BitVec.toNat_ofNat]
    omega
  unfold decodeB
  refine ⟨fun b h => ?_, fun h => ⟨_, if_neg (by rw [hp]; omega)⟩⟩
  have hb : b.toNat < 2 := Bool.toNat_lt b
  have : w.getLsbD 0 = b := by
    rw [BitVec.getLsbD, Nat.testBit_zero]
    cases b <;> simp at h ⊢ <;> omega
  rw [if_pos (by rw [hp]; omega), this]

theorem decodeO_spec (w : Word) (mk : BitVec 8 → Instr) :
    (∀ o : BitVec 8, w.toNat % 2 ^ 28 = o.toNat → decodeO w mk = .ok (mk o)) ∧
      (256 ≤ w.toNat % 2 ^ 28 → ∃ e, decodeO w mk = .error e) := by
  have hp : w.extractLsb' 8 20 = 0 ↔ w.toNat % 2 ^ 28 < 256 := by
    rw [← BitVec.toNat_inj]
    simp only [BitVec.extractLsb'_toNat, Nat.shiftRight_eq_div_pow, BitVec.ofNat_eq_ofNat, BitVec.toNat_ofNat]
    omega
  unfold decodeO
  refine ⟨fun o h => ?_, fun h => ⟨_, if_neg (by rw [hp]; omega)⟩⟩
  have ho := o.isLt
  have : w.extractLsb' 0 8 = o := by
    rw [← BitVec.toNat_inj, BitVec.extractLsb'_toNat, Nat.shiftRight_zero]
    omega
  rw [if_pos (by rw [hp]; omega), this]

theorem decodeL_spec (w : Word) (mk : Bool → BitVec 27 → Instr) (h : Bool) (l : BitVec 27)
    (hw : w.toNat % 2 ^ 28 = h.toNat * 2 ^ 27 + l.toNat) : decodeL w mk = .ok (mk h l) := by
  have hl := l.isLt
  have h1 : w.getLsbD 27 = h := by
    rw [BitVec.getLsbD, Nat.testBit_eq_decide_div_mod_eq]
    cases h <;> simp at hw ⊢ <;> omega
  have h2 : w.extractLsb' 0 27 = l := by
    rw [← BitVec.toNat_inj, BitVec.extractLsb'_toNat, Nat.shiftRight_zero]
    cases h <;> simp at hw ⊢ <;> omega
  rw [decodeL, h1, h2]

/-- An opcode whose words `decodeZ` reads has format `Z`. -/
theorem formatZ_of {op : Nat} {i : Instr} (h : ∀ w : Word, w.toNat / 2 ^ 28 = op → decode w = decodeZ w i) :
    FormatZ op i := by
  intro w hw
  rw [h w hw]
  refine ⟨(decodeZ_spec w i).1, fun hn => ?_⟩
  obtain ⟨e, he⟩ := (decodeZ_spec w i).2 hn
  exact wordRejected_of_error ((h w hw).trans he)

/-- An opcode whose words `decodeB` reads has format `B`. -/
theorem formatB_of {op : Nat} {mk : Bool → Instr} (h : ∀ w : Word, w.toNat / 2 ^ 28 = op → decode w = decodeB w mk) :
    FormatB op mk := by
  intro w hw
  rw [h w hw]
  refine ⟨(decodeB_spec w mk).1, fun hn => ?_⟩
  obtain ⟨e, he⟩ := (decodeB_spec w mk).2 hn
  exact wordRejected_of_error ((h w hw).trans he)

/-- An opcode whose words `decodeO` reads has format `O`. -/
theorem formatO_of {op : Nat} {mk : BitVec 8 → Instr}
    (h : ∀ w : Word, w.toNat / 2 ^ 28 = op → decode w = decodeO w mk) : FormatO op mk := by
  intro w hw
  rw [h w hw]
  refine ⟨(decodeO_spec w mk).1, fun hn => ?_⟩
  obtain ⟨e, he⟩ := (decodeO_spec w mk).2 hn
  exact wordRejected_of_error ((h w hw).trans he)

/-- The decoder goes by the opcode (30_encoding.md R93, R94). -/
theorem decode_of_op {w : Word} {n : Nat} (h : w.toNat / 2 ^ 28 = n) : (opField w).toNat = n := by
  rw [opField_toNat, h]

end Sys2Proof.Machine
end

