-- ==== Sys2Proof/Laws/PerInstr.lean ====
section
/-! SUPPORT. Per command: its word is a command of its own row of opcode_table.json (30_encoding.md R94). -/

namespace Sys2Proof.Laws.RowOf

open Sys2Proof

/-- The word of the command matches the row that has the command's mnemonic. -/
def Statement (i : Instr) : Prop := ∃ r ∈ opcodeTable, r.mnemonic = i.mnemonic ∧ r.accepts (encode i) = true

theorem cclr : Statement .cclr := ⟨⟨"CCLR", 0x10000000, 0xFFFFFFFF⟩, by decide, rfl, by decide⟩

theorem cpoly (p : BitVec 28) : Statement (.cpoly p) := by
  refine ⟨⟨"CPOLY", 0x20000000, 0xF0000000⟩, by decide, rfl, ?_⟩
  show ((0x2#4 ++ p) &&& (0xF#4 ++ 0#28) : Word) == (0x2#4 ++ 0#28 : Word)
  rw [BitVec.and_append]; simp

theorem crev (b : Bool) : Statement (.crev b) :=
  ⟨⟨"CREV", 0x30000000, 0xFFFFFFFE⟩, by decide, rfl, by cases b <;> decide⟩

theorem ccommit : Statement .ccommit := ⟨⟨"CCOMMIT", 0x40000000, 0xFFFFFFFF⟩, by decide, rfl, by decide⟩

theorem estart : Statement .estart := ⟨⟨"ESTART", 0x50000000, 0xFFFFFFFF⟩, by decide, rfl, by decide⟩

theorem ebit (b : Bool) : Statement (.ebit b) :=
  ⟨⟨"EBIT", 0x60000000, 0xFFFFFFFE⟩, by decide, rfl, by cases b <;> decide⟩

theorem eend : Statement .eend := ⟨⟨"EEND", 0x70000000, 0xFFFFFFFF⟩, by decide, rfl, by decide⟩

theorem dhbit (b : Bool) : Statement (.dhbit b) :=
  ⟨⟨"DHBIT", 0x80000000, 0xFFFFFFFE⟩, by decide, rfl, by cases b <;> decide⟩

theorem dstart (h : Bool) (l : BitVec 27) : Statement (.dstart h l) := by
  refine ⟨⟨"DSTART", 0x90000000, 0xF0000000⟩, by decide, rfl, ?_⟩
  show ((0x9#4 ++ (BitVec.ofBool h ++ l)) &&& (0xF#4 ++ 0#28) : Word) == (0x9#4 ++ 0#28 : Word)
  rw [BitVec.and_append]; simp

theorem dsoft (o : BitVec 8) : Statement (.dsoft o) := by
  refine ⟨⟨"DSOFT", 0xA0000000, 0xFFFFFF00⟩, by decide, rfl, ?_⟩
  show ((0xA#4 ++ (0#20 ++ o)) &&& (0xF#4 ++ (0xFFFFF#20 ++ 0#8)) : Word) == (0xA#4 ++ (0#20 ++ 0#8) : Word)
  rw [BitVec.and_append, BitVec.and_append]; simp

theorem dend : Statement .dend := ⟨⟨"DEND", 0xB0000000, 0xFFFFFFFF⟩, by decide, rfl, by decide⟩

theorem stat : Statement .stat := ⟨⟨"STAT", 0xC0000000, 0xFFFFFFFF⟩, by decide, rfl, by decide⟩

theorem srst : Statement .srst := ⟨⟨"SRST", 0xD0000000, 0xFFFFFFFF⟩, by decide, rfl, by decide⟩

end Sys2Proof.Laws.RowOf
end

