-- ==== Sys2Proof/Laws/Reset.lean ====
section
/-! SUPPORT. The memories after power-on are in canonical form, and no command leaves them otherwise. -/

namespace Sys2Proof.Machine

theorem reset_surv_wf : Memory.wf State.reset.dec.surv := Memory.wf_nil

theorem reset_tbBuf_wf : Memory.wf State.reset.tb.tbBuf := Memory.wf_nil

/-- The walk writes `TBBUF` word by word, so it keeps the canonical form. -/
theorem walkFrom_wf (u : Unspec) (s : State) (n : Nat) (t : Traceback) (h : Memory.wf t.tbBuf) :
    Memory.wf (walkFrom u s n t).tbBuf := by
  induction n generalizing t with
  | zero => exact h
  | succ n ih => exact ih _ (Memory.wf_write _ _ h)

/-- The ACS step writes one column of `SURV`, so it keeps the canonical form. -/
theorem acsUpdate_wf (u : Unspec) (cfg : ActiveConfig) (d : Decoder) (h : Memory.wf d.surv) :
    Memory.wf (acsUpdate u cfg d).surv := Memory.wf_write _ _ h

end Sys2Proof.Machine
end

