-- ==== Sys2Proof/Laws/Traceback.lean ====
section
/-! SUPPORT. The reads of the decoder arrays, and the walk back (43_traceback.md). -/

namespace Sys2Proof.Machine

open Sys2Proof

/-- Inside the column that has been written, `PM` is what was written (20_memory.md R79). -/
theorem Decoder.readPm_eq (u : Unspec) (d : Decoder) (s : Nat) (h : s < d.pm.length) :
    d.readPm u s = metricAt d.pm s := by
  simp [Decoder.readPm, metricAt, h]

/-- The observations of a group, register by register (10_state.md R37). -/
theorem Decoder.group_eq (d : Decoder) (k : Nat) (hk : k ≤ 16) : d.group k = (List.range k).map (readReg d.obs) := by
  apply List.ext_getElem?; intro i
  unfold Decoder.group
  by_cases h : i < k
  · simp [h, readReg_eq_getElem d.obs i (by omega), show i < 16 by omega]
  · simp [h]

/-- A step back shifts the state right and puts the decision on top (43_traceback.md R192). -/
theorem Codec.testBit_predOf (c : Codec) (hK : 1 ≤ c.K) (s : Nat) (hs : s < c.S) (d : Bool) (i : Nat) (hi : i < c.K) :
   (c.predOf s d).testBit i = if i = c.K - 1 then d else s.testBit (i + 1) := by
  unfold Codec.predOf
  rw [Nat.testBit_or, Nat.testBit_shiftRight, Nat.testBit_shiftLeft]
  split
  · rename_i h; subst h
    have : s.testBit (1 + (c.K - 1)) = false :=
    Nat.testBit_lt_two_pow (lt_of_lt_of_le hs (Nat.pow_le_pow_right (by omega) (by omega)))
    rw [this]; cases d <;> simp
  · have : ¬ c.K - 1 ≤ i := by omega
    simp [this, Nat.add_comm]

/-- The walk in two parts. -/
theorem Codec.walkEnd_append (c : Codec) (xs ys : List (List Bool)) (f : Nat) :
    c.walkEnd (xs ++ ys) f = c.walkEnd ys (c.walkEnd xs f) := by
  induction xs generalizing f with
  | nil => rfl
  | cons x xs ih => simp [Codec.walkEnd, ih]

/-- The walk stays among the states. -/
theorem Codec.walkEnd_lt (c : Codec) (hK : 1 ≤ c.K) (xs : List (List Bool)) (f : Nat) (hf : f < c.S) :
    c.walkEnd xs f < c.S := by
  induction xs generalizing f with
  | nil => exact hf
  | cons x xs ih => exact ih _ (c.predOf_lt hK hf _)

/-- One more column at the old end adds one bit in front. -/
theorem Codec.traceback_append (c : Codec) (cols : List (List Bool)) (d : List Bool) (f : Nat) (out : List Bool) :
   c.traceback (cols ++ [d]) f out = (c.walkEnd cols f).testBit 0 :: c.traceback cols f out ∧
     c.walkEnd (cols ++ [d]) f = c.predOf (c.walkEnd cols f) (d[c.walkEnd cols f]?.getD false) := by
  induction cols generalizing f out with
  | nil => simp [Codec.traceback, Codec.walkEnd]
  | cons x xs ih => simp only [List.cons_append, Codec.traceback, Codec.walkEnd]; exact ih _ _

theorem Codec.length_traceback (c : Codec) (xs : List (List Bool)) (f : Nat) (out : List Bool) :
    (c.traceback xs f out).length = xs.length + out.length := by
  induction xs generalizing f out with
  | nil => simp [Codec.traceback]
  | cons x xs ih => simp [Codec.traceback, ih]; omega

/-- The walk writes the columns from `n` down to 1 only. -/
theorem walkFrom_read (u : Unspec) (s : State) (n : Nat) (t : Traceback) (c : Nat) (hc : n < c) :
    Memory.read? (walkFrom u s n t).tbBuf c = Memory.read? t.tbBuf c := by
  induction n generalizing t with
  | zero => rfl
  | succ n ih =>
    rw [walkFrom, ih _ (by omega)]
    simp only [walkStep]
    exact Memory.read?_write_ne _ _ (by omega)

end Sys2Proof.Machine
end

