-- ==== Sys2Proof/Tests/Slice0.lean ====
section
/-! SUPPORT. The model's own tests. Expected values are written out from spec/: the vectors V1 to V22 of
95_test_vectors.md, the encodings of 30_encoding.md, and states that meet the hypotheses of the statements. -/

namespace Sys2Proof.Tests

open Sys2Proof Sys2Proof.Machine

/-- The state after the commands. -/
def run (is : List Instr) (s : State) : State :=
  match execAll is s with
  | .next t => t
  | .fault _ => s
  | .refused _ => s

/-- After `CONFIG 7, 5` from reset (V1). -/
def config75 : State := run (configCmds [7, 5] false) State.reset

/-- An encode call open, `R = 010` (30_encoding.md R142, its example). -/
def encoding : State := run [.estart, .ebit true, .ebit false] config75

/-- A decode call of two groups open, one soft value received. -/
def decoding : State := run [.dstart false 4, .dsoft 255] config75

/-- A decode call of one group with all its soft values received. -/
def decoded : State := run [.dstart false 2, .dsoft 255, .dsoft 255] config75

/-- The words still to be taken. -/
def waiting (ws : List Word) (s : State) : State := { s with cmd := ws }

/-! ### WellFormed refuses what does not fit (30_encoding.md R98) -/

theorem test_wf_cpoly : (Asm.cpoly (2 ^ 28)).wellFormed = false := by decide
theorem test_wf_crev : (Asm.crev 2).wellFormed = false := by decide
theorem test_wf_ebit : (Asm.ebit 2).wellFormed = false := by decide
theorem test_wf_dhbit : (Asm.dhbit 2).wellFormed = false := by decide
theorem test_wf_dstart : (Asm.dstart (2 ^ 27) true).wellFormed = false := by decide
theorem test_wf_dsoft : (Asm.dsoft 256).wellFormed = false := by decide
theorem test_wf_largest : (Asm.cpoly (2 ^ 28 - 1)).wellFormed = true ∧ (Asm.dstart (2 ^ 27 - 1) false).wellFormed = true ∧
    (Asm.dsoft 255).wellFormed = true := by decide

/-! ### Decode, one word a command and the words it refuses (30_encoding.md sections 2 to 4) -/

theorem test_decode_cclr : decode 0x10000000 = .ok .cclr := by rfl
theorem test_decode_cpoly : decode 0x2FFFFFFF = .ok (.cpoly 0xFFFFFFF) := by rfl
theorem test_decode_crev : decode 0x30000001 = .ok (.crev true) := by rfl
theorem test_decode_ccommit : decode 0x40000000 = .ok .ccommit := by rfl
theorem test_decode_estart : decode 0x50000000 = .ok .estart := by rfl
theorem test_decode_ebit : decode 0x60000000 = .ok (.ebit false) := by rfl
theorem test_decode_eend : decode 0x70000000 = .ok .eend := by rfl
theorem test_decode_dhbit : decode 0x80000001 = .ok (.dhbit true) := by rfl
theorem test_decode_dstart : decode 0x90100001 = .ok (.dstart false 1048577) := by rfl
theorem test_decode_dstart_hint : decode 0x9FFFFFFF = .ok (.dstart true 0x7FFFFFF) := by rfl
theorem test_decode_dsoft : decode 0xA00000C8 = .ok (.dsoft 200) := by rfl
theorem test_decode_dend : decode 0xB0000000 = .ok .dend := by rfl
theorem test_decode_stat : decode 0xC0000000 = .ok .stat := by rfl
theorem test_decode_srst : decode 0xD0000000 = .ok .srst := by rfl
theorem test_decode_reserved_opcode : decode 0x00000000 = .error (.reservedOpcode 0) ∧
    decode 0xE0000000 = .error (.reservedOpcode 14) ∧ decode 0xF1234567 = .error (.reservedOpcode 15) := by
  exact ⟨rfl, rfl, rfl⟩
theorem test_decode_reserved_bit : decode 0x10000001 = .error (.reservedBit 1) ∧
    decode 0x30000003 = .error (.reservedBit 3) ∧ decode 0x60000002 = .error (.reservedBit 6) ∧
    decode 0xA0000100 = .error (.reservedBit 10) ∧ decode 0xC8000000 = .error (.reservedBit 12) := by
  exact ⟨rfl, rfl, rfl, rfl, rfl⟩
theorem test_decodeTableWord : decodeTableWord 32 0x90000004 = some (.dstart false 4) ∧
    decodeTableWord 32 0xD0000001 = none := by exact ⟨rfl, rfl⟩

/-! ### The assembler (30_encoding.md section 6) -/

theorem test_assembler_comma : parseLine ['D', 'S', 'T', 'A', 'R', 'T', ' ', '0', 'x', '1', '0', ',', ' ', 'H', 'I', 'N', 'T'] =
    some (.cmd (.dstart 16 true)) := by decide
theorem test_assembler_config : ((parseLine ['C', 'O', 'N', 'F', 'I', 'G', '.', 'R', 'E', 'V', ' ', '0', 'o', '7', ',', '0', 'b', '1', '1', '#']).bind
    Line.expand) = some ([.cclr, .cpoly 7, .cpoly 3, .crev true, .ccommit], []) := by decide
theorem test_assembler_error : ((parseLine ['E', 'B', 'I', 'T', ' ', '2']).bind Line.expand) = none := by decide

/-! ### One step or one command at a time -/

/-- V4: a seventeenth polynomial is remembered, its value dropped. -/
theorem test_cpoly_overflow :
    (run (List.replicate 17 (.cpoly 1)) State.reset).stg.spCount = 16 ∧
      (run (List.replicate 17 (.cpoly 1)) State.reset).stg.spOvf = true := by decide
theorem test_cclr : (run [.cpoly 7, .crev true, .cclr] State.reset).stg = State.reset.stg := by decide
theorem test_crev : (run [.crev true] State.reset).stg.sRev = true := by decide
/-- V1: the configuration and the answer of `CCOMMIT`. -/
theorem test_ccommit : config75.cfg.nPoly = 2 ∧ config75.cfg.K = 3 ∧ config75.rsp.getLast? = some 0x00000003 := by decide
/-- V4: the earlier check wins. -/
theorem test_ccommit_zero_first : (run [.cpoly 0, .cpoly 0x1000000, .ccommit] State.reset).rsp.getLast? = some 0x10000000 ∧
    (run [.cpoly 0x1000000, .ccommit] State.reset).rsp.getLast? = some 0x40000000 := by decide
/-- V5: the reversal is over `K` bits. -/
theorem test_taps_reversed : (run (configCmds [7, 1] true) State.reset).cfg.codec.taps = [7, 4] := by decide
/-- V21: `ESTART` while a call is open is refused and does not clear `R`. -/
theorem test_estart_twice : (run [.estart] encoding).enc.R = 2 ∧ (run [.estart] encoding).rsp.getLast? = some 0x30000000 := by
  decide
/-- V6: `enc_step(010, 1)`, the example of R142. -/
theorem test_ebit : (run [.ebit true] encoding).enc.R = 5 ∧ (run [.ebit true] encoding).encOut = [true, true, true, false, false, false] := by
  decide
/-- V7: polynomial order and `REV`. -/
theorem test_ebit_reversed : (run (encodeCmds [true, false, false]) (run (configCmds [6, 1] true) State.reset)).encOut =
    [true, false, true, false, false, true] := by decide
theorem test_eend : (run [.eend] encoding).enc = { encSt := .idle, R := 0 } := by decide
/-- R161: the first bit given ends up highest; `HLEN` saturates. -/
theorem test_dhbit : (run [.dhbit true, .dhbit false, .dhbit false] State.reset).dec.hint = 4 ∧
    (run (List.replicate 33 (.dhbit true)) State.reset).dec.hLen = 31 := by decide
/-- V19: the word and the answer. -/
theorem test_dstart : (run [.dstart false 11] config75).rsp.getLast? = some 0x20000000 ∧
    (run [.dstart false 12] config75).rsp.getLast? = some 0x00000006 := by decide
/-- V19: a `DSTART` that fails has consumed the staged hint. -/
theorem test_dstart_hint : (run [.dhbit true, .dstart false 11] config75).dec.hLen = 0 ∧
    (run [.dhbit true, .dhbit false, .dstart true 4] config75).rsp.getLast? = some 0x20000000 := by decide
/-- V20: column 1. -/
theorem test_dsoft : decoded.dec.pm = [.fin 510, .fin 0, .inf, .inf, .inf, .inf, .inf, .inf] ∧ decoded.dec.C = 1 := by decide
/-- V13: the tie goes to the lower predecessor. -/
theorem test_dsoft_tie : (run [.dstart false 4, .dsoft 128, .dsoft 127, .dsoft 0, .dsoft 0]
    (run (configCmds [1, 1] false) State.reset)).dec.surv = [(1, [false, false]), (2, [false, false])] := by decide
/-- V2: the walk, in forward order. -/
theorem test_dend : (run (decodeOpenCmds [255, 0, 255] none ++ decodeDataCmds [255, 0, 255])
    (run (configCmds [3] false) State.reset)).decOut = [true, true, false] := by decide
/-- V17: a hint that names an unreachable state. -/
theorem test_dend_unreachable : (run (decodeOpenCmds [255, 255, 0, 255] (some [true, true, false]) ++
    decodeDataCmds [255, 255, 0, 255]) config75).rsp.getLast? = some 0x00000006 := by decide
/-- V22. -/
theorem test_stat : (run [.stat] config75).rsp.getLast? = some 0x00004301 ∧
    (run [.stat] (run (configCmds [6, 1] true) State.reset)).rsp.getLast? = some 0x00044301 := by decide
/-- R211, its example: `ESTART; EBIT 1; SRST; STAT`. -/
theorem test_srst : (run [.estart, .ebit true, .srst, .stat] config75).encOut = [true, true] ∧
    (run [.estart, .ebit true, .srst, .stat] config75).rsp.getLast? = some 0x00000000 := by decide

/-! ### For each statement with hypotheses, states and operands that meet them, clause by clause -/

/-- A hinted call of one group, all received: the hint 1, 1, 1 of V17. -/
def hinted : State := run [.dhbit true, .dhbit true, .dhbit true, .dstart true 2, .dsoft 255, .dsoft 255] config75

/-- A hint of three bits staged. -/
def staged : State := run [.dhbit true, .dhbit false, .dhbit true] config75

/-- Two polynomials staged, nothing committed. -/
def polysStaged : State := run [.cpoly 7, .cpoly 5] State.reset

/-- Responses with code `OK` meet the invariant. -/
theorem accepted {rsp : List Word} (h : rsp.all (fun w => w.toNat < 0x10000000) = true) : RspOk rsp := by
  intro w hw
  have hc : w.extractLsb' 28 4 = 0 := by
    apply BitVec.eq_of_toNat_eq
    have := of_decide_eq_true (List.all_eq_true.mp h w hw)
    simp [BitVec.extractLsb'_toNat, Nat.shiftRight_eq_div_pow]
    omega
  simp [hc]

theorem config75_invariant : Invariant config75 :=
  ⟨by decide, by decide, by decide, by decide, by decide, by decide, accepted (by decide)⟩
theorem encoding_invariant : Invariant encoding :=
  ⟨by decide, by decide, by decide, by decide, by decide, by decide, accepted (by decide)⟩
theorem decoding_invariant : Invariant decoding :=
  ⟨by decide, by decide, by decide, by decide, by decide, by decide, accepted (by decide)⟩
theorem decoded_invariant : Invariant decoded :=
  ⟨by decide, by decide, by decide, by decide, by decide, by decide, accepted (by decide)⟩
theorem hinted_invariant : Invariant hinted :=
  ⟨by decide, by decide, by decide, by decide, by decide, by decide, accepted (by decide)⟩
theorem staged_invariant : Invariant staged :=
  ⟨by decide, by decide, by decide, by decide, by decide, by decide, accepted (by decide)⟩
theorem polysStaged_invariant : Invariant polysStaged :=
  ⟨by decide, by decide, by decide, by decide, by decide, by decide, accepted (by decide)⟩

theorem witness_EncodeOfDecodeIsTheWord : decode 0x9800000C = .ok (.dstart true 12) := by rfl

theorem witness_WordIsCommandOfTheOneRowItMatches : decode 0xA00000FF = .ok (.dsoft 255) ∧
    (∀ r ∈ opcodeTable, r.accepts 0xA0000100 = false) := ⟨rfl, by decide⟩

theorem witness_IllegalWordIsRejectedWithProtocol : (waiting [0x10000001, 7] decoding).resetIn = false ∧
    (waiting [0x10000001, 7] decoding).cmd = 0x10000001 :: [7] ∧ decode 0x10000001 = .error (.reservedBit 1) :=
  ⟨rfl, rfl, rfl⟩

theorem witness_StepExecutesTheDecodedCommand : (waiting [0x60000001] encoding).resetIn = false ∧
    (waiting [0x60000001] encoding).cmd = 0x60000001 :: [] ∧ decode 0x60000001 = .ok (.ebit true) ∧
    encoding.resetIn = false ∧ encoding.cmd = [] := ⟨rfl, rfl, rfl, by decide, by decide⟩

theorem witness_ResetEventWritesEveryListedRegister : (hostReset decoding).resetIn = true := rfl

theorem witness_EveryStepKeepsTheInvariant : Invariant (waiting [0xA00000FF] decoding) ∧
    step (waiting [0xA00000FF] decoding) = .next (run [.dsoft 255] decoding) := ⟨decoding_invariant, rfl⟩

theorem witness_CpolyAppendsOrRemembersOverflow :
    (run (List.replicate 15 (.cpoly 1)) State.reset).stg.spCount < 16 ∧
      16 ≤ (run (List.replicate 16 (.cpoly 1)) State.reset).stg.spCount := by decide

theorem witness_CcommitConstructsOrRejects_open : encoding.enc.encSt = .active ∧ decoding.dec.decSt = .run := by decide

theorem witness_CcommitConstructsOrRejects_invalid : State.reset.enc.encSt = .idle ∧ State.reset.dec.decSt = .idle ∧
    State.reset.stg.spCount = 0 ∧ (run (List.replicate 17 (.cpoly 1)) State.reset).stg.spOvf = true ∧
    (∃ i < (run [.cpoly 7, .cpoly 0] State.reset).stg.spCount,
      readReg (run [.cpoly 7, .cpoly 0] State.reset).stg.sPoly i = 0) := by decide

theorem witness_CcommitConstructsOrRejects_valid : (∀ s ∈ [run [.cpoly 0xFFFFFF] State.reset, run [.cpoly 0x1000000] State.reset],
    s.enc.encSt = .idle ∧ s.dec.decSt = .idle ∧ s.stg.spCount ≠ 0 ∧ s.stg.spOvf = false ∧
      (∀ i < s.stg.spCount, readReg s.stg.sPoly i ≠ 0) ∧ (readReg s.stg.sPoly 0).toNat ∈ [0xFFFFFF, 0x1000000]) ∧
    bitlen 0xFFFFFF ≤ State.reset.params.kMax ∧ State.reset.params.kMax < bitlen 0x1000000 := by decide

theorem witness_ConstructedConfigurationIsWithinBounds : Invariant polysStaged ∧
    exec .ccommit polysStaged = .next (run [.ccommit] polysStaged) ∧ Responds .ccommit polysStaged 0 :=
  ⟨polysStaged_invariant, rfl, run [.ccommit] polysStaged, 3, rfl, by decide, by decide⟩

theorem witness_TapMaskIsThePolynomialOrItsReversal :
    CfgOk State.reset.params config75.cfg ∧ config75.cfg.cfgValid = true ∧ 1 < config75.cfg.nPoly ∧
    config75.cfg.rev = false ∧
    CfgOk State.reset.params (run (configCmds [6, 1] true) State.reset).cfg ∧
    (run (configCmds [6, 1] true) State.reset).cfg.rev = true :=
  ⟨config75_invariant.2.1, by decide, by decide, by decide, by decide, by decide⟩

theorem witness_EstartOpensTheEncodeCall : config75.cfg.cfgValid = true ∧ config75.enc.encSt = .idle ∧
    State.reset.cfg.cfgValid = false ∧ encoding.enc.encSt = .active := by decide

theorem witness_EbitEmitsParitiesAndShifts : State.reset.enc.encSt = .idle ∧ encoding.enc.encSt = .active ∧
    (((encoding.enc.R.toNat <<< 1) ||| true.toNat) &&& (2 ^ encoding.cfg.K - 1)) = 5 ∧ 1 < encoding.cfg.nPoly := by decide

theorem witness_EendClosesTheEncodeCall : encoding.enc.encSt = .active ∧ State.reset.enc.encSt = .idle := by decide

/-- The codec of `[7, 5]`. -/
def codec75 : Codec := { K := 3, taps := [7, 5] }

theorem witness_FlushBitsClearTheRegister : 1 ≤ codec75.K ∧ 7 < 2 ^ codec75.K := by decide

theorem witness_RegisterHoldsTheLastInputBits : codec75.taps[1]? = some 5 ∧ [true, false].length = [true, true].length := by
  decide

theorem witness_MirroredEncoderEmitsTheSameStream : 1 ≤ codec75.K ∧ (∀ t ∈ codec75.taps, t < 2 ^ codec75.K) ∧
    5 < 2 ^ codec75.K := by decide

theorem witness_DhbitAppendsOneHintBit : decoding.dec.decSt = .run ∧ config75.dec.decSt = .idle ∧
    config75.params.Valid := by decide

theorem witness_HintBitsSpellTheStateNumber : config75.params.Valid ∧ config75.dec.decSt = .idle ∧
    config75.dec.hLen = 0 ∧ config75.dec.hint = 0 ∧ [true, false, false].length ≤ config75.params.kMax ∧
    2 < [true, false, false].length := by decide

theorem witness_DstartChecksAndOpensTheDecodeCall_rejects : State.reset.cfg.cfgValid = false ∧ decoding.dec.decSt = .run ∧
    config75.cfg.cfgValid = true ∧ config75.dec.decSt = .idle ∧ (11#27).toNat % config75.cfg.nPoly ≠ 0 ∧
    (run [.dhbit true, .dhbit true] config75).dec.hLen ≠ (run [.dhbit true, .dhbit true] config75).cfg.K := by decide

theorem witness_DstartChecksAndOpensTheDecodeCall_capacity : (0x100001#27).toNat % (run (configCmds [1] false) State.reset).cfg.nPoly = 0 ∧
    (run (configCmds [1] false) State.reset).params.nMax < (0x100001#27).toNat / (run (configCmds [1] false) State.reset).cfg.nPoly ∧
    (run (configCmds [0x800000] false) State.reset).params.nodeMax < 5 * 2 ^ (run (configCmds [0x800000] false) State.reset).cfg.K := by
  decide

/-- `N = N_MAX` still opens a call. -/
theorem witness_DstartChecksAndOpensTheDecodeCall_full :
    (run (configCmds [1] false) State.reset).cfg.cfgValid = true ∧
    (run (configCmds [1] false) State.reset).dec.decSt = .idle ∧
    (0x100000#27).toNat / (run (configCmds [1] false) State.reset).cfg.nPoly =
      (run (configCmds [1] false) State.reset).params.nMax ∧
    (0x100000#27).toNat % (run (configCmds [1] false) State.reset).cfg.nPoly = 0 ∧
    0x100000 * 2 ^ (run (configCmds [1] false) State.reset).cfg.K ≤
      (run (configCmds [1] false) State.reset).params.nodeMax ∧
    (run [.dstart false 0x100000] (run (configCmds [1] false) State.reset)).rsp.getLast? = some 0x00100000 := by
  decide

theorem witness_DstartChecksAndOpensTheDecodeCall_opens :
    Invariant staged ∧
    staged.cfg.cfgValid = true ∧
    staged.dec.decSt = .idle ∧
    staged.dec.hLen = staged.cfg.K ∧
    (4#27).toNat % staged.cfg.nPoly = 0 ∧ 2 ≤ staged.params.nMax ∧ 2 * 2 ^ staged.cfg.K ≤ staged.params.nodeMax :=
  ⟨staged_invariant, by decide⟩

theorem witness_DsoftTakesOneSoftValue : config75.dec.decSt = .idle ∧ decoded.dec.C = decoded.dec.nReg ∧
    (run [.dstart false 4] config75).dec.decSt = .run ∧
    (run [.dstart false 4] config75).dec.C ≠ (run [.dstart false 4] config75).dec.nReg ∧
    (run [.dstart false 4] config75).dec.G + 1 < (run [.dstart false 4] config75).cfg.nPoly ∧
    decoding.dec.decSt = .run ∧ decoding.dec.C ≠ decoding.dec.nReg ∧
    decoding.dec.G + 1 = decoding.cfg.nPoly ∧ Invariant decoding :=
  ⟨by decide, by decide, by decide, by decide, by decide, by decide, by decide, by decide, decoding_invariant⟩

theorem witness_DsoftRunsTheAcsStepOnAFullGroup : Invariant decoding ∧ decoding.dec.decSt = .run ∧
    decoding.dec.C ≠ decoding.dec.nReg ∧ decoding.dec.G + 1 = decoding.cfg.nPoly ∧ 7 < 2 ^ decoding.cfg.K :=
  ⟨decoding_invariant, by decide⟩

theorem witness_PredecessorsAreExactlyTheTwoOfTheFormulas : 1 ≤ codec75.K ∧ 5 < 2 ^ codec75.K ∧ 6 < 2 ^ codec75.K ∧
    codec75.shift 6 true = 5 ∧ codec75.taps[0]? = some 7 := by decide

theorem witness_BranchMetricIsBoundedAndComplementary : ([200, 30] : List Byte).length = codec75.k ∧ codec75.k ≤ 16 := by
  decide

theorem witness_ButterflyStatesDecideAlike : 1 ≤ codec75.K ∧ 7 < 2 ^ codec75.K ∧ 3 < 2 ^ (codec75.K - 1) := by decide

theorem witness_ColumnIsFiniteWhereReachableAndBounded : 1 ≤ codec75.K ∧ 1 < 2 ^ codec75.K ∧
    metricAt (codec75.forward 1 codec75.column0 [255, 0]).1 1 = .fin 255 ∧ Params.defaults.Valid ∧ codec75.k ≤ 16 ∧
    1 ≤ Params.defaults.nMax := by decide

theorem witness_PathMetricIsTheLeastOverInputSequences : 1 ≤ codec75.K ∧ 7 < 2 ^ codec75.K ∧
    codec75.finalReg [true, true, true] = 7 := by decide

theorem witness_DendWalksBackAndEmitsTheBits : config75.dec.decSt = .idle ∧ decoding.dec.C ≠ decoding.dec.nReg ∧
    Invariant decoded ∧ decoded.dec.decSt = .run ∧ decoded.dec.C = decoded.dec.nReg ∧ decoded.dec.hintEn = false :=
  ⟨by decide, by decide, decoded_invariant, by decide⟩

theorem witness_DendWalksBackAndEmitsTheBits_hint : Invariant hinted ∧ hinted.dec.decSt = .run ∧
    hinted.dec.C = hinted.dec.nReg ∧ hinted.dec.hintEn = true ∧ 1 ≤ hinted.dec.nReg := ⟨hinted_invariant, by decide⟩

theorem witness_FinalStateIsTheLowestOfLeastMetric : Invariant hinted ∧ hinted.dec.decSt = .run ∧
    hinted.dec.hintEn = true ∧ Invariant decoded ∧ decoded.dec.decSt = .run ∧ decoded.dec.hintEn = false :=
  ⟨hinted_invariant, by decide, by decide, decoded_invariant, by decide⟩

theorem witness_DecodedBitsAreFinalStateBitsThenDecisions : 1 ≤ codec75.K ∧ 4 < 2 ^ codec75.K ∧ 2 < codec75.K ∧
    2 < (List.replicate 4 (List.replicate 8 true)).length ∧ codec75.K < 4 ∧
    4 ≤ (List.replicate 4 (List.replicate 8 true)).length := by decide

theorem witness_UnreachableHintDecodesToItsLowBits : 1 ≤ codec75.K ∧ 1 ≤ codec75.k ∧
    [true, true, true].length = codec75.K ∧ ([255, 255] : List Byte).length % codec75.k = 0 ∧
    codec75.steps [255, 255] ≤ Params.defaults.nMax ∧ codec75.steps [255, 255] * codec75.S ≤ Params.defaults.nodeMax ∧
    metricAt (codec75.lastColumn [255, 255]) (hintValue [true, true, true]) = .inf := by decide

theorem witness_NoCommandReadsUnwrittenStorage : Invariant decoding ∧
    (∀ i < decoding.dec.G, readReg (writeReg decoding.dec.obs 1 7) i = readReg decoding.dec.obs i) ∧
    dsoftWith default 255 decoding = .next (run [.dsoft 255] decoding) := ⟨decoding_invariant, by decide, rfl⟩

theorem witness_StatReportsTheStatusWord : Invariant encoding ∧
    (Invariant polysStaged ∧ polysStaged.cfg.cfgValid = false) :=
  ⟨encoding_invariant, polysStaged_invariant, by decide⟩

theorem witness_RejectionChangesNothingElse : exec .dend config75 = .next (run [.dend] config75) ∧
    Responds .dend config75 3 ∧ exec (.dstart false 11) config75 = .next (run [.dstart false 11] config75) ∧
    Responds (.dstart false 11) config75 2 :=
  ⟨rfl, ⟨run [.dend] config75, 0, rfl, by decide, by decide⟩, rfl,
    run [.dstart false 11] config75, 0, rfl, by decide, by decide⟩

theorem witness_OnlyTheirOwnCommandsWriteTheRegisters : exec (.ebit true) encoding = .next (run [.ebit true] encoding) ∧
    isStaging (.ebit true) = false ∧ isDecoder (.ebit true) = false ∧ isEncoder .stat = false := ⟨rfl, by decide⟩

theorem witness_ActiveConfigurationIsImmutable : exec .ccommit encoding = .next (run [.ccommit] encoding) ∧
    encoding.enc.encSt = .active ∧ exec (.cpoly 3) encoding = .next (run [.cpoly 3] encoding) ∧
    isStaging (.cpoly 3) = true := ⟨rfl, by decide, rfl, rfl⟩

theorem witness_ActiveConfigurationIsImmutable_rejected : ¬ Responds .ccommit encoding 0 := by
  rintro ⟨t, info, h, hr, hi⟩
  have ht : Host.Outcome.next (run [.ccommit] encoding) = .next t := (show exec .ccommit encoding = .next (run [.ccommit] encoding) from rfl).symm.trans h
  obtain rfl := Host.Outcome.next.inj ht
  have h3 : (run [.ccommit] encoding).rsp = encoding.rsp ++ [0x30000000] := by decide
  rw [h3] at hr
  have := congrArg BitVec.toNat (List.cons.inj (List.append_cancel_left hr)).1
  simp at this
  omega

theorem witness_ErrflagsAreStickyAndReadByStatOnly : exec .srst encoding = .next (run [.srst] encoding) ∧
    exec .dend encoding = .next (run [.dend] encoding) ∧ Responds .dend encoding 3 :=
  ⟨rfl, rfl, run [.dend] encoding, 0, rfl, by decide, by decide⟩

theorem witness_InterleavedCallsDoNotInterfere :
    (∀ i ∈ [Instr.ebit true, .dsoft 255, .cpoly 3, .stat], i ≠ .srst ∧ i ≠ .ccommit) ∧
    execAll [Instr.ebit true, .dsoft 255, .cpoly 3, .stat] (run [.dstart false 4] encoding) =
      .next (run [Instr.ebit true, .dsoft 255, .cpoly 3, .stat] (run [.dstart false 4] encoding)) := ⟨by decide, rfl⟩

theorem witness_ConfigCommandsImplementConstruct : State.reset.enc.encSt = .idle ∧ State.reset.dec.decSt = .idle ∧
    construct State.reset.params [7, 5] true = .ok { K := 3, taps := [7, 5] } ∧
    construct State.reset.params [] false = .error .invalidConfiguration := ⟨rfl, rfl, rfl, rfl⟩

theorem witness_EncodeCommandsImplementEncode : Invariant config75 ∧ config75.cfg.cfgValid = true ∧
    config75.enc.encSt = .idle := ⟨config75_invariant, by decide⟩

theorem witness_DecodeCommandsImplementDecode : Invariant config75 ∧ config75.cfg.cfgValid = true ∧
    config75.dec.decSt = .idle ∧ config75.dec.hLen = 0 ∧ ([255, 255] : List Byte).length < 2 ^ 27 :=
  ⟨config75_invariant, by decide⟩

theorem witness_DecodeCommandsImplementDecode_results :
    config75.cfg.codec.decode config75.params [255, 255] none = .ok [true] ∧
      config75.cfg.codec.decode config75.params [255] none = .error .invalidInput := ⟨rfl, rfl⟩

theorem witness_FlushedStreamRoundTripsWithoutNoise : construct .defaults [6] true = .ok { K := 3, taps := [3] } ∧
    [true, false].length + 3 ≤ Params.defaults.nMax ∧ ([true, false].length + 3) * 8 ≤ Params.defaults.nodeMax :=
  ⟨rfl, by decide, by decide⟩

theorem witness_AnyStreamRoundTripsWithTapZeroOrTrueHint : construct .defaults [7, 5] false = .ok codec75 ∧
    [true, false].length ≤ Params.defaults.nMax ∧ [true, false].length * codec75.S ≤ Params.defaults.nodeMax ∧
    (∃ t ∈ codec75.taps, t.testBit 0 = true) := ⟨rfl, by decide, by decide, by decide⟩

theorem witness_HintNeverLowersTheFinalMetric : 1 ≤ codec75.K ∧ [false, false, true].length = codec75.K ∧
    1 ≤ codec75.k := by decide

theorem witness_DecodedSequenceHasLeastMetric : 1 ≤ codec75.K ∧ codec75.finalMetric [255, 255] none = .fin 0 ∧
    [true].length = codec75.steps [255, 255] ∧ codec75.finalReg [true] = codec75.finalOf [255, 255] none := by decide

/-- A word inside each payload format and one outside it, at the boundary (30_encoding.md R92). -/
theorem witness_Formats : decode 0x50000000 = .ok .estart ∧ (0x50000001#32).toNat / 2 ^ 28 = 5 ∧
    decode 0x50000001 = .error (.reservedBit 5) ∧ decode 0x60000001 = .ok (.ebit true) ∧
    decode 0x60000002 = .error (.reservedBit 6) ∧ decode 0xA00000FF = .ok (.dsoft 255) ∧
    decode 0xA0000100 = .error (.reservedBit 10) ∧ decode 0x2FFFFFFF = .ok (.cpoly 0xFFFFFFF) ∧
    decode 0x9FFFFFFF = .ok (.dstart true 0x7FFFFFF) := ⟨rfl, by decide, rfl, rfl, rfl, rfl, rfl, rfl, rfl⟩

theorem witness_NotationFunctions : 6 < 2 ^ 3 ∧ 2 < 3 ∧ (1 : Nat) < 2 := by decide

end Sys2Proof.Tests
end

section
/-! PROOFS. The statements of 00_scope.md. -/

namespace Sys2Proof.Machine

open Sys2Proof

/-- Between finite metrics the order is that of the naturals (00_scope.md R13). -/
theorem lt_fin_fin_iff (a b : Nat) : (Metric.fin a).lt (.fin b) = true ↔ a < b := by
  rw [lt_fin_fin, decide_eq_true_iff]

/-- Settles O51: one rule of metric addition or order per clause. -/
theorem infeasibleMetricAbsorbsAndTies : Obligations.InfeasibleMetricAbsorbsAndTies :=
  ⟨add_fin, add_inf, lt_fin_fin_iff, lt_fin_inf, lt_inf⟩

end Sys2Proof.Machine
end

section
/-! PROOFS. The statements of 10_state.md on the active configuration (R46) and on `ERRFLAGS` (R42). -/

namespace Sys2Proof.Machine

open Sys2Proof

/-- What an answer to command `i` leaves as it was before it sets a flag and appends its word: the responses, the
flags and, but for `CCOMMIT`, the active configuration. -/
structure KeptBy (i : Instr) (s t : State) : Prop where
  rsp : t.rsp = s.rsp
  errFlags : t.errFlags = s.errFlags
  cfg : i ≠ .ccommit → t.cfg = s.cfg

/-- The outcome is a rejection, or an `OK` response, from a state that keeps what `KeptBy` names. -/
def Answers (i : Instr) (s : State) (o : Host.Outcome State Fault Refusal) : Prop :=
  (∃ c t, c ≠ .ok ∧ KeptBy i s t ∧ o = reject c t) ∨ ∃ info t, KeptBy i s t ∧ o = respond .ok info t

theorem answers_reject {i : Instr} {s t : State} {c : Status} (hc : c ≠ .ok) (h : KeptBy i s t) :
    Answers i s (reject c t) := .inl ⟨c, t, hc, h, rfl⟩

theorem answers_respond {i : Instr} {s t : State} {info : BitVec 28} (h : KeptBy i s t) :
    Answers i s (respond .ok info t) := .inr ⟨info, t, h, rfl⟩

theorem answers_ite {i : Instr} {s : State} {p : Prop} [Decidable p] {a b : Host.Outcome State Fault Refusal}
    (ha : Answers i s a) (hb : Answers i s b) : Answers i s (if p then a else b) := by
  split
  · exact ha
  · exact hb

/-- Every command but `SRST` is a chain of checks that ends in a rejection or an `OK` response. -/
theorem answers_exec (i : Instr) (s : State) (hi : i ≠ .srst) : Answers i s (exec i s) := by
  have accepted {info : BitVec 28} {t : State} :
      t.rsp = s.rsp ∧ t.errFlags = s.errFlags ∧ t.cfg = s.cfg → Answers i s (respond .ok info t) :=
    fun ⟨hrsp, hflags, hcfg⟩ => answers_respond ⟨hrsp, hflags, fun _ => hcfg⟩
  have rejected {c : Status} (hc : c ≠ .ok) : Answers i s (reject c s) :=
    answers_reject hc ⟨rfl, rfl, fun _ => rfl⟩
  have rejectedCleared {c : Status} (hc : c ≠ .ok) : Answers i s (reject c (clearHint s)) :=
    answers_reject hc ⟨rfl, rfl, fun _ => rfl⟩
  cases i with
  | cclr => exact accepted ⟨rfl, rfl, rfl⟩
  | cpoly p => exact answers_ite (accepted ⟨rfl, rfl, rfl⟩) (accepted ⟨rfl, rfl, rfl⟩)
  | crev b => exact accepted ⟨rfl, rfl, rfl⟩
  | ccommit =>
    exact answers_ite (rejected nofun) <| answers_ite (rejected nofun) <| answers_ite (rejected nofun) <|
      answers_respond ⟨rfl, rfl, fun h => absurd rfl h⟩
  | estart => exact answers_ite (rejected nofun) (accepted ⟨rfl, rfl, rfl⟩)
  | ebit b => exact answers_ite (rejected nofun) (accepted ⟨rfl, rfl, rfl⟩)
  | eend => exact answers_ite (rejected nofun) (accepted ⟨rfl, rfl, rfl⟩)
  | dhbit b => exact answers_ite (rejected nofun) (accepted ⟨rfl, rfl, rfl⟩)
  | dstart h l =>
    exact answers_ite (rejected nofun) <| answers_ite (rejectedCleared nofun) <|
      answers_ite (rejectedCleared nofun) <| answers_ite (rejectedCleared nofun) <| accepted ⟨rfl, rfl, rfl⟩
  | dsoft o =>
    exact answers_ite (rejected nofun) <| answers_ite (accepted ⟨rfl, rfl, rfl⟩) (accepted ⟨rfl, rfl, rfl⟩)
  | dend => exact answers_ite (rejected nofun) (accepted ⟨rfl, rfl, rfl⟩)
  | stat => exact accepted ⟨rfl, rfl, rfl⟩
  | srst => exact absurd rfl hi

/-! ### The active configuration (R46) -/

/-- No command but `CCOMMIT` and `SRST` writes the active configuration. -/
theorem exec_cfg_eq {i : Instr} {s t : State} (h : exec i s = .next t) (hc : i ≠ .ccommit) (hr : i ≠ .srst) :
    t.cfg = s.cfg := by
  obtain ⟨c, u, -, hu, ho⟩ | ⟨info, u, hu, ho⟩ := answers_exec i s hr
  all_goals
    obtain rfl := Host.Outcome.next.inj (ho.symm.trans h)
    exact hu.cfg hc

/-- `CCOMMIT` is rejected while a call is open (R124). -/
theorem exec_ccommit_of_open {s : State} (h : s.enc.encSt = .active ∨ s.dec.decSt = .run) :
    exec .ccommit s = .next (rejectedWith 3 s) := by
  show execCcommit s = _
  rw [execCcommit, if_pos ((callOpen_iff s).2 h), reject_protocol]

/-- A `CCOMMIT` that does not answer `OK` is a rejection, which keeps the active configuration. -/
theorem exec_ccommit_cfg_eq {s t : State} (h : exec .ccommit s = .next t) (hn : ¬ Responds .ccommit s 0) :
    t.cfg = s.cfg := by
  obtain ⟨c, -, ho | ⟨⟨_, _, ⟨⟩⟩, -⟩⟩ | ⟨info, u, ho, hu⟩ := exec_cases .ccommit s
  · obtain rfl := Host.Outcome.next.inj (ho.symm.trans h)
    rfl
  · exact absurd ((responds_ok _ s info u hu ho 0 (by omega)).2 rfl) hn

/-- A staging command is always accepted, and writes the staging registers only. -/
theorem exec_staging {i : Instr} (hi : isStaging i = true) (s : State) :
    ∃ g, exec i s = .next (acceptedWith 0 { s with stg := g }) := by
  cases i with
  | cclr => exact ⟨_, respond_ok_zero _⟩
  | cpoly p =>
    show ∃ g, execCpoly p s = _
    unfold execCpoly
    split
    · exact ⟨_, respond_ok_zero _⟩
    · exact ⟨_, respond_ok_zero _⟩
  | crev b => exact ⟨_, respond_ok_zero _⟩
  | _ => cases hi

/-- Settles O47: the frame of each kind of command. -/
theorem activeConfigurationIsImmutable : Obligations.ActiveConfigurationIsImmutable := by
  intro i s t h
  refine ⟨exec_cfg_eq h, ?_, ?_, fun hi => ?_⟩
  · rintro rfl hopen
    exact Host.Outcome.next.inj (h.symm.trans (exec_ccommit_of_open hopen))
  · rintro rfl
    exact exec_ccommit_cfg_eq h
  · obtain ⟨g, hg⟩ := exec_staging hi s
    obtain rfl := Host.Outcome.next.inj (hg.symm.trans h)
    rfl

/-! ### `ERRFLAGS` (R42) -/

/-- A command adds the bit of its response's code to the flags, and no bit for `OK`. -/
theorem exec_errFlags {i : Instr} {s t : State} (h : exec i s = .next t) (hi : i ≠ .srst) {code : Nat}
    (hcode : code ≤ 4) (hresp : Responds i s code) :
    t.errFlags = if code = 0 then s.errFlags else s.errFlags ||| BitVec.ofNat 4 (2 ^ (code - 1)) := by
  obtain ⟨c, u, hc, hu, ho⟩ | ⟨info, u, hu, ho⟩ := answers_exec i s hi
  · obtain rfl := (responds_reject i s c u hu.rsp ho code hcode).1 hresp
    have hne : (statusCode c).toNat ≠ 0 := by revert hc; cases c <;> decide
    obtain rfl := Host.Outcome.next.inj ((ho.trans (reject_eq c hc u)).symm.trans h)
    rw [if_neg hne, ← hu.errFlags]
    rfl
  · obtain rfl := (responds_ok i s info u hu.rsp ho code hcode).1 hresp
    obtain rfl := Host.Outcome.next.inj (ho.symm.trans h)
    rw [if_pos rfl, ← hu.errFlags]
    rfl

/-- If the first outcome is a next state, the second is the same state but for `ERRFLAGS`. -/
def SameButFlags (o o' : Host.Outcome State Fault Refusal) : Prop :=
  ∀ t, o = .next t → ∃ e, o' = .next { t with errFlags := e }

theorem sameButFlags_respond (c : Status) (info : BitVec 28) (t : State) (e : BitVec 4) :
    SameButFlags (respond c info t) (respond c info { t with errFlags := e }) := by
  rintro _ ⟨⟩
  exact ⟨e, rfl⟩

theorem sameButFlags_reject (c : Status) (s : State) (e : BitVec 4) :
    SameButFlags (reject c s) (reject c { s with errFlags := e }) := by
  rintro _ ⟨⟩
  exact ⟨e ||| errBit c, rfl⟩

theorem sameButFlags_ite {p : Prop} [Decidable p] {a a' b b' : Host.Outcome State Fault Refusal}
    (ha : SameButFlags a a') (hb : SameButFlags b b') : SameButFlags (if p then a else b) (if p then a' else b') := by
  split
  · exact ha
  · exact hb

/-- The walk reads the decoder and the configuration only. -/
theorem walkFrom_setErrFlags (u : Unspec) (s : State) (e : BitVec 4) (n : Nat) (t : Traceback) :
    walkFrom u { s with errFlags := e } n t = walkFrom u s n t := by
  induction n generalizing t with
  | zero => rfl
  | succ n ih => exact ih _

theorem decodedBits_setErrFlags (u : Unspec) (s : State) (e : BitVec 4) (f : Nat) :
    decodedBits u { s with errFlags := e } f = decodedBits u s f := by
  simp only [decodedBits, walked, walkFrom_setErrFlags]

/-- `DEND` does not read the flags: neither the final state nor the walk does. -/
theorem sameButFlags_execDend (s : State) (e : BitVec 4) :
    SameButFlags (execDend s) (execDend { s with errFlags := e }) := by
  simp only [execDend, dendWith, decodedBits_setErrFlags]
  exact sameButFlags_ite (sameButFlags_reject _ s e) (sameButFlags_respond _ _ _ e)

/-- No command but `STAT` depends on the flags: each makes the same checks and gives the same answer. -/
theorem sameButFlags_exec (i : Instr) (s : State) (e : BitVec 4) (hi : i ≠ .stat) :
    SameButFlags (exec i s) (exec i { s with errFlags := e }) := by
  have rejected (c : Status) := sameButFlags_reject c s e
  have rejectedCleared (c : Status) := sameButFlags_reject c (clearHint s) e
  have accepted (info : BitVec 28) (t : State) := sameButFlags_respond .ok info t e
  cases i with
  | cclr => exact accepted _ _
  | cpoly p => exact sameButFlags_ite (accepted _ _) (accepted _ _)
  | crev b => exact accepted _ _
  | ccommit =>
    exact sameButFlags_ite (rejected _) <| sameButFlags_ite (rejected _) <| sameButFlags_ite (rejected _) <|
      accepted _ _
  | estart => exact sameButFlags_ite (rejected _) (accepted _ _)
  | ebit b => exact sameButFlags_ite (rejected _) (accepted _ _)
  | eend => exact sameButFlags_ite (rejected _) (accepted _ _)
  | dhbit b => exact sameButFlags_ite (rejected _) (accepted _ _)
  | dstart h l =>
    exact sameButFlags_ite (rejected _) <| sameButFlags_ite (rejectedCleared _) <|
      sameButFlags_ite (rejectedCleared _) <| sameButFlags_ite (rejectedCleared _) <| accepted _ _
  | dsoft o => exact sameButFlags_ite (rejected _) (sameButFlags_ite (accepted _ _) (accepted _ _))
  | dend => exact sameButFlags_execDend s e
  | stat => exact absurd rfl hi
  | srst => exact sameButFlags_respond .ok 0 (resetRegs s) 0

/-- The reset event clears the flags (R280). -/
theorem step_reset_errFlags {s : State} (h : s.resetIn = true) : ∃ t, step s = .next t ∧ t.errFlags = 0 :=
  ⟨resetEvent s, if_pos h, rfl⟩

theorem exec_srst_errFlags {s t : State} (h : exec .srst s = .next t) : t.errFlags = 0 := by
  obtain rfl := Host.Outcome.next.inj h
  rfl

/-- Settles O48: who sets, clears and reads the flags. -/
theorem errflagsAreStickyAndReadByStatOnly : Obligations.ErrflagsAreStickyAndReadByStatOnly := by
  refine ⟨rfl, fun s => step_reset_errFlags, fun _ s => reject_protocol s, fun i s t h => ⟨?_, ?_⟩, ?_⟩
  · rintro rfl
    exact exec_srst_errFlags h
  · exact fun hi code => exec_errFlags h hi
  · exact fun i s t e hi => sameButFlags_exec i s e hi t

end Sys2Proof.Machine
end

section
/-! PROOFS. The statements of 20_memory.md: no command reads a location of `OBS`, `PM`, `SURV` or `TBBUF` that the open
call has not written (R79). -/

namespace Sys2Proof.Machine

open Sys2Proof

/-- What the invariant says of an open decode call about the storage that the call reads (10_state.md R45). -/
structure InCall (s : State) : Prop where
  K_pos : 1 ≤ s.cfg.K
  nPoly_le : s.cfg.nPoly ≤ 16
  G_lt : s.dec.G < s.cfg.nPoly
  fState_lt : s.dec.fState.toNat < s.cfg.codec.S
  pm_length : s.dec.pm.length = s.cfg.codec.S
  surv : SurvOk s.cfg s.dec

theorem InCall.of_invariant {s : State} (hs : Invariant s) (hrun : s.dec.decSt ≠ .idle) : InCall s := by
  obtain ⟨-, ⟨hcfg, -⟩, -, -, ⟨-, hdec⟩, -, -⟩ := hs
  have hrun : s.dec.decSt = .run := by
    cases h : s.dec.decSt with
    | idle => exact absurd h hrun
    | run => rfl
  obtain ⟨hvalid, -, hG, -, hf, ⟨hpm, -⟩, hsurv⟩ := hdec hrun
  obtain ⟨-, hk, -, -, -, hK, -, -⟩ := hcfg hvalid
  exact ⟨hK, hk, hG, hf, hpm, hsurv⟩

/-! ### The forward pass: `PM` and `OBS` -/

theorem InCall.readPm_indep {s : State} (h : InCall s) (u u' : Unspec) {x : Nat} (hx : x < s.cfg.codec.S) :
    s.dec.readPm u x = s.dec.readPm u' x := by
  have hx : x < s.dec.pm.length := h.pm_length ▸ hx
  rw [Decoder.readPm_eq u _ _ hx, Decoder.readPm_eq u' _ _ hx]

theorem Decoder.readPm_setObs (u : Unspec) (d : Decoder) (obs : Vector Byte 16) :
    { d with obs := obs }.readPm u = d.readPm u := rfl

/-- An observation taken into register `g` makes two register files that agreed below `g` agree there too. -/
theorem readReg_writeReg_congr {n : Nat} {v v' : Vector (BitVec n) 16} {g : Nat} (x : BitVec n) (hg : g < 16)
    (hv : ∀ i < g, readReg v' i = readReg v i) {i : Nat} (hi : i ≤ g) :
    readReg (writeReg v' g x) i = readReg (writeReg v g x) i := by
  rw [readReg_writeReg, readReg_writeReg]
  split
  · rfl
  · exact hv i (by omega)

/-- The ACS step at the end of a group: it takes the observations of the group and the written column, and nothing
else. -/
theorem InCall.acsUpdate_congr {s : State} (h : InCall s) (u u' : Unspec) {obs obs' : Vector Byte 16}
    (hobs : ∀ i < s.cfg.nPoly, readReg obs' i = readReg obs i) :
    acsUpdate u' s.cfg { s.dec with obs := obs' } =
      { acsUpdate u s.cfg { s.dec with obs := obs } with obs := obs' } := by
  have hgroup : { s.dec with obs := obs' }.group s.cfg.nPoly = { s.dec with obs := obs }.group s.cfg.nPoly := by
    rw [Decoder.group_eq _ _ h.nPoly_le, Decoder.group_eq _ _ h.nPoly_le]
    exact List.map_congr_left fun i hi => hobs i (List.mem_range.1 hi)
  have hcol (g : List Byte) : s.cfg.codec.acsStep (s.dec.readPm u') g = s.cfg.codec.acsStep (s.dec.readPm u) g :=
    s.cfg.codec.acsStep_congr h.K_pos g fun _ hx => h.readPm_indep u' u hx
  simp only [acsUpdate, Decoder.readPm_setObs, hgroup, hcol]

theorem dsoftWith_indep {s : State} (hs : Invariant s) (u u' : Unspec) (o : BitVec 8) :
    dsoftWith u o s = dsoftWith u' o s := by
  unfold dsoftWith
  split
  · rfl
  · rename_i hrun
    have h := InCall.of_invariant hs (not_or.1 hrun).1
    have hacs : acsUpdate u s.cfg { s.dec with obs := writeReg s.dec.obs s.dec.G o } =
        acsUpdate u' s.cfg { s.dec with obs := writeReg s.dec.obs s.dec.G o } :=
      h.acsUpdate_congr u' u fun _ _ => rfl
    simp only [hacs]

/-- Where the first outcome is a next state, the second is that state up to the observation registers. -/
def SameButObs (o o' : Host.Outcome State Fault Refusal) : Prop :=
  ∀ t, o = .next t → ∃ t', o' = .next t' ∧ { t' with dec := { t'.dec with obs := t.dec.obs } } = t

theorem sameButObs_respond (c : Status) (info : BitVec 28) (t : State) (obs' : Vector Byte 16) :
    SameButObs (respond c info t) (respond c info { t with dec := { t.dec with obs := obs' } }) := by
  rintro _ ⟨⟩
  exact ⟨_, rfl, rfl⟩

/-- `DSOFT` reads the observation registers below `G` and the one it writes itself. -/
theorem sameButObs_dsoftWith {s : State} (hs : Invariant s) (u u' : Unspec) (o : BitVec 8) {obs' : Vector Byte 16}
    (hobs : ∀ i < s.dec.G, readReg obs' i = readReg s.dec.obs i) :
    SameButObs (dsoftWith u o s) (dsoftWith u' o { s with dec := { s.dec with obs := obs' } }) := by
  unfold dsoftWith
  split
  · exact sameButObs_respond _ _ (raiseFlag .protocol s) obs'
  · rename_i hrun
    have h := InCall.of_invariant hs (not_or.1 hrun).1
    have hG := h.G_lt
    have hk := h.nPoly_le
    split
    · exact sameButObs_respond _ _ _ (writeReg obs' s.dec.G o)
    · have hacs := h.acsUpdate_congr u u' (obs := writeReg s.dec.obs s.dec.G o)
        (obs' := writeReg obs' s.dec.G o) fun i hi => readReg_writeReg_congr o (by omega) hobs (by omega)
      simp only [hacs]
      exact sameButObs_respond _ _ _ (writeReg obs' s.dec.G o)

/-! ### Termination and traceback: `PM`, `SURV` and `TBBUF` -/

theorem InCall.finalState_indep {s : State} (h : InCall s) (u u' : Unspec) : finalState u s = finalState u' s := by
  unfold finalState
  split
  · rfl
  · exact s.cfg.codec.leastState_congr _ _ fun _ hx => h.readPm_indep u u' hx

theorem InCall.finalState_lt {s : State} (h : InCall s) (u : Unspec) : finalState u s < s.cfg.codec.S := by
  unfold finalState
  split
  · exact h.fState_lt
  · exact (s.cfg.codec.leastState_spec _).1

theorem InCall.readSurv_indep {s : State} (h : InCall s) (u u' : Unspec) {c x : Nat} (hc : c < s.dec.C)
    (hx : x < s.cfg.codec.S) : s.dec.readSurv u (c + 1) x = s.dec.readSurv u' (c + 1) x := by
  obtain ⟨col, hcol, hlen⟩ := Option.map_eq_some_iff.1 (h.surv c hc)
  have hx : x < col.length := hlen ▸ hx
  simp [Decoder.readSurv, hcol, hx]

theorem toNat_ofNat_lt {w n m : Nat} (h : n < m) : (BitVec.ofNat w n).toNat < m :=
  (BitVec.toNat_ofNat n w ▸ Nat.mod_le n _).trans_lt h

/-- The walk stays among the states, where every column it reads has been written (item 4 of R45). -/
theorem InCall.walkFrom_indep {s : State} (h : InCall s) (u u' : Unspec) {n : Nat} (hn : n ≤ s.dec.C)
    (t : Traceback) (ht : t.tbS.toNat < s.cfg.codec.S) : walkFrom u s n t = walkFrom u' s n t := by
  induction n generalizing t with
  | zero => rfl
  | succ n ih =>
    have hstep : walkStep u s (n + 1) t = walkStep u' s (n + 1) t := by
      simp only [walkStep, h.readSurv_indep u u' hn ht]
    rw [walkFrom, walkFrom, hstep]
    exact ih (by omega) _ (toNat_ofNat_lt (s.cfg.codec.predOf_lt h.K_pos ht _))

/-- The walk from column `n` writes `TBBUF[1]` to `TBBUF[n]`. -/
theorem walkFrom_writes (u : Unspec) (s : State) {n c : Nat} (hc : c < n) (t : Traceback) :
    ∃ b, Memory.read? (walkFrom u s n t).tbBuf (c + 1) = some b := by
  induction n generalizing t with
  | zero => omega
  | succ n ih =>
    rcases Nat.lt_succ_iff_lt_or_eq.1 hc with hc | rfl
    · exact ih hc _
    · rw [walkFrom, walkFrom_read u s c _ _ (Nat.lt_succ_self c)]
      exact ⟨_, Memory.read?_write_same _ _ _⟩

theorem InCall.decodedBits_indep {s : State} (h : InCall s) (u u' : Unspec) (hC : s.dec.C = s.dec.nReg) {f : Nat}
    (hf : f < s.cfg.codec.S) : decodedBits u s f = decodedBits u' s f := by
  have hwalk : walked u s f = walked u' s f := h.walkFrom_indep u u' hC.ge _ (toNat_ofNat_lt hf)
  rw [decodedBits, decodedBits, hwalk]
  refine List.map_congr_left fun c hc => ?_
  obtain ⟨b, hb⟩ := walkFrom_writes u' s (List.mem_range.1 hc) { s.tb with tbS := BitVec.ofNat 28 f }
  simp only [Traceback.readBuf, walked, hb, Option.getD_some]

theorem dendWith_indep {s : State} (hs : Invariant s) (u u' : Unspec) : dendWith u s = dendWith u' s := by
  unfold dendWith
  split
  · rfl
  · rename_i hopen
    obtain ⟨hrun, hC⟩ := not_or.1 hopen
    have h := InCall.of_invariant hs hrun
    simp only [h.finalState_indep u u', h.decodedBits_indep u u' (not_not.1 hC) (h.finalState_lt u')]

/-- Settles O40: each read of `DSOFT` and `DEND` is at a location that the open call has written. -/
theorem noCommandReadsUnwrittenStorage : Obligations.NoCommandReadsUnwrittenStorage := fun _ hs u u' =>
  ⟨dsoftWith_indep hs u u', dendWith_indep hs u u', fun o _ t hobs h => sameButObs_dsoftWith hs u u' o hobs t h⟩

end Sys2Proof.Machine
end

section
/-! PROOFS. The statements of 30_encoding.md: which words are no command (R95), and what the block does with one
(R95, R212). -/

namespace Sys2Proof.Machine

open Sys2Proof

/-- The opcode is none of those that 30_encoding.md R94 assigns. -/
abbrev HasReservedOpcode (w : Word) : Prop :=
  w.toNat / 2 ^ 28 = 0x0 ∨ w.toNat / 2 ^ 28 = 0xE ∨ w.toNat / 2 ^ 28 = 0xF

/-- The opcode is assigned, to a command of format `Z`, `B` or `O`, and a reserved payload bit of that format is 1
(30_encoding.md R92). -/
abbrev HasReservedBit (w : Word) : Prop :=
  (w.toNat / 2 ^ 28 ∈ [0x1, 0x4, 0x5, 0x7, 0xB, 0xC, 0xD] ∧ w.toNat % 2 ^ 28 ≠ 0) ∨
  (w.toNat / 2 ^ 28 ∈ [0x3, 0x6, 0x8] ∧ w.toNat % 2 ^ 28 / 2 ≠ 0) ∨
  (w.toNat / 2 ^ 28 = 0xA ∧ w.toNat % 2 ^ 28 / 2 ^ 8 ≠ 0)

/-- The payload bits from `k` up are all 0 exactly when the payload is below `2^k`. -/
theorem extractLsb'_eq_zero_iff (w : Word) {k n : Nat} (h : 2 ^ 28 = 2 ^ k * 2 ^ n) :
    w.extractLsb' k n = 0 ↔ w.toNat % 2 ^ 28 / 2 ^ k = 0 := by
  rw [h, Nat.mod_mul_right_div_self, ← BitVec.toNat_inj, BitVec.extractLsb'_toNat, Nat.shiftRight_eq_div_pow]
  rfl

theorem ite_ok_error_eq_error_iff {p : Prop} [Decidable p] {i : Instr} {e' e : IllegalWord} :
    (if p then .ok i else .error e' : Except IllegalWord Instr) = .error e ↔ ¬ p ∧ e' = e := by
  split <;> simp [*]

theorem decodeZ_eq_error_iff {w : Word} {i : Instr} {e : IllegalWord} :
    decodeZ w i = .error e ↔ w.toNat % 2 ^ 28 ≠ 0 ∧ .reservedBit (opField w) = e := by
  rw [decodeZ, ite_ok_error_eq_error_iff, payload, extractLsb'_eq_zero_iff w rfl, pow_zero, Nat.div_one]

theorem decodeB_eq_error_iff {w : Word} {mk : Bool → Instr} {e : IllegalWord} :
    decodeB w mk = .error e ↔ w.toNat % 2 ^ 28 / 2 ≠ 0 ∧ .reservedBit (opField w) = e := by
  rw [decodeB, ite_ok_error_eq_error_iff, extractLsb'_eq_zero_iff w rfl, pow_one]

theorem decodeO_eq_error_iff {w : Word} {mk : BitVec 8 → Instr} {e : IllegalWord} :
    decodeO w mk = .error e ↔ w.toNat % 2 ^ 28 / 2 ^ 8 ≠ 0 ∧ .reservedBit (opField w) = e := by
  rw [decodeO, ite_ok_error_eq_error_iff, extractLsb'_eq_zero_iff w rfl]

/-- The words the decoder refuses, and the cause it names, opcode by opcode (30_encoding.md R94, R95). -/
theorem decode_eq_error_iff {w : Word} {e : IllegalWord} :
    decode w = .error e ↔
      (HasReservedOpcode w ∧ .reservedOpcode (opField w) = e) ∨ (HasReservedBit w ∧ .reservedBit (opField w) = e) := by
  have hop : w.toNat / 2 ^ 28 < 16 := by omega
  simp only [decode, opField_toNat, HasReservedOpcode, HasReservedBit]
  generalize w.toNat / 2 ^ 28 = op at hop
  match op, hop with
  | 0, _ | 14, _ | 15, _ => simp
  | 1, _ | 4, _ | 5, _ | 7, _ | 11, _ | 12, _ | 13, _ => simp [decodeZ_eq_error_iff]
  | 3, _ | 6, _ | 8, _ => simp [decodeB_eq_error_iff]
  | 10, _ => simp [decodeO_eq_error_iff]
  | 2, _ | 9, _ => simp [decodeL]
  | _ + 16, h => omega

theorem exists_decode_eq_error_iff (w : Word) :
    (∃ e, decode w = .error e) ↔ HasReservedOpcode w ∨ HasReservedBit w := by
  simp only [decode_eq_error_iff, exists_or, exists_and_left, exists_eq', and_true]

/-- A step that takes a word that is no command rejects it, and leaves the later words waiting (R95, R212). -/
theorem step_of_decode_eq_error {s : State} {w : Word} {rest : List Word} {e : IllegalWord} (hreset : s.resetIn = false)
    (hcmd : s.cmd = w :: rest) (he : decode w = .error e) : step s = .next (rejectedWith 3 { s with cmd := rest }) := by
  simp only [step, takeCommand, hreset, hcmd, he, illegalWord, reject_protocol, Bool.false_eq_true, if_false]

/-- Settles O4: the decoder's refusals by opcode and format, and the rejecting step. -/
theorem illegalWordIsRejectedWithProtocol : Obligations.IllegalWordIsRejectedWithProtocol :=
  ⟨exists_decode_eq_error_iff, fun _ _ _ _ => step_of_decode_eq_error, ⟨_, rfl⟩, ⟨_, rfl⟩⟩

end Sys2Proof.Machine
end

section
/-! PROOFS. The statements of 40_config.md: what the configuration commands do (R121 to R124), and the bounds (R127) and
tap masks (R128) of the configuration they construct. -/

namespace Sys2Proof.Machine

open Sys2Proof

/-! ### Staging (R121 to R123) -/

theorem formatZ_cclr : FormatZ 0x1 .cclr := formatZ_of fun w hw => by simp only [decode, decode_of_op hw]

theorem formatP_cpoly : FormatP 0x2 .cpoly := by
  intro w hw p hp
  have hpayload : payload w = p := BitVec.eq_of_toNat_eq ((payload_toNat w).trans hp)
  simp only [decode, decode_of_op hw, hpayload]

theorem formatB_crev : FormatB 0x3 .crev := formatB_of fun w hw => by simp only [decode, decode_of_op hw]

/-- Settles O14: the staging file that `CCLR` writes is all zeros. -/
theorem cclrEmptiesTheStagingList : Obligations.CclrEmptiesTheStagingList :=
  ⟨formatZ_cclr, fun _ => ⟨_, respond_ok_zero _, rfl, rfl, rfl, fun i _ => readReg_zeros16 i⟩⟩

/-- While the list has room, `CPOLY` writes its next register and raises the count. -/
theorem exec_cpoly_of_lt (p : BitVec 28) {s : State} (h : s.stg.spCount < 16) :
    exec (.cpoly p) s = .next (acceptedWith 0
      { s with stg := { s.stg with sPoly := writeReg s.stg.sPoly s.stg.spCount p, spCount := s.stg.spCount + 1 } }) :=
  (if_pos h).trans (respond_ok_zero _)

/-- With a full list, `CPOLY` remembers the overflow and drops its polynomial. -/
theorem exec_cpoly_of_ge (p : BitVec 28) {s : State} (h : 16 ≤ s.stg.spCount) :
    exec (.cpoly p) s = .next (acceptedWith 0 { s with stg := { s.stg with spOvf := true } }) :=
  (if_neg (Nat.not_lt.2 h)).trans (respond_ok_zero _)

/-- Settles O15: the two branches of `CPOLY`, and the register file after a write. -/
theorem cpolyAppendsOrRemembersOverflow : Obligations.CpolyAppendsOrRemembersOverflow := by
  refine ⟨formatP_cpoly, fun p s => ⟨fun h => ⟨_, exec_cpoly_of_lt p h, fun j hj => ?_⟩, exec_cpoly_of_ge p⟩⟩
  simp only [readReg_writeReg, hj, and_true, eq_comm]

/-- Settles O16: `CREV` is one register update. -/
theorem crevStagesTheFlag : Obligations.CrevStagesTheFlag := ⟨formatB_crev, fun _ _ => respond_ok_zero _⟩

/-! ### Construction (R124) -/

theorem formatZ_ccommit : FormatZ 0x4 .ccommit := formatZ_of fun w hw => by simp only [decode, decode_of_op hw]

/-- The largest of a list of polynomials fits in the 28 bits of a register. -/
theorem bitlen_maxPoly_le (l : List KWord) : bitlen (maxPoly l) ≤ 28 := by
  rw [bitlen_le_iff]
  rcases eq_or_ne l [] with rfl | hl
  · decide
  · obtain ⟨p, -, hp⟩ := maxPoly_mem hl
    exact hp ▸ p.isLt

/-- What `CCOMMIT` does once no call is open: the two checks of the staged list, and the construction. -/
theorem exec_ccommit_of_closed {s : State} (h : callOpen s = false) :
    exec .ccommit s =
      if stagedInvalid s.stg then .next (rejectedWith 1 s)
      else if s.params.kMax < bitlen (maxPoly s.stg.polys) then .next (rejectedWith 4 s)
      else .next (acceptedWith (bitlen (maxPoly s.stg.polys)) { s with cfg := builtConfig s.stg }) := by
  have hinfo : bitlen (maxPoly s.stg.polys) < 2 ^ 28 := (bitlen_maxPoly_le _).trans_lt (by decide)
  show execCcommit s = _
  simp only [execCcommit, h, Bool.false_eq_true, if_false, reject_invalidConfiguration, reject_capacity,
    respond_ok_ofNat _ hinfo]

/-- A staged list that `CCOMMIT` does not refuse: not empty, not overflowed, no zero in it (R124). -/
theorem stagedInvalid_eq_false_iff (g : Staging) : stagedInvalid g = false ↔
    g.spCount ≠ 0 ∧ g.spOvf = false ∧ ∀ i < g.spCount, readReg g.sPoly i ≠ 0 := by
  rw [← Bool.not_eq_true, stagedInvalid_iff]
  simp only [not_or, not_exists, not_and, Bool.not_eq_true, ne_eq]

/-- The polynomials of the constructed configuration are the staged ones, and 0 past them. -/
theorem readReg_builtConfig (g : Staging) {i : Nat} (h : i < 16) :
    readReg (builtConfig g).poly i = if i < g.spCount then readReg g.sPoly i else 0 := readReg_regFile _ i h

/-- Settles O17: the checks of `CCOMMIT` in their order, and the configuration it constructs. -/
theorem ccommitConstructsOrRejects : Obligations.CcommitConstructsOrRejects := by
  refine ⟨formatZ_ccommit, fun _ => exec_ccommit_of_open, fun s henc hdec => ?_⟩
  have hexec := exec_ccommit_of_closed (callOpen_false s henc hdec)
  refine ⟨fun hinvalid => ?_, fun hcount hovf hzero m hmem hle => ?_⟩
  · rw [hexec, if_pos ((stagedInvalid_iff s.stg).2 hinvalid)]
  · rw [(stagedInvalid_eq_false_iff s.stg).2 ⟨hcount, hovf, hzero⟩, if_neg Bool.false_ne_true,
      maxPoly_eq s.stg m hmem hle] at hexec
    refine ⟨fun hwide => hexec.trans (if_pos hwide), fun hfits => ⟨(builtConfig s.stg).poly, ?_, ?_⟩⟩
    · rw [hexec, if_neg (Nat.not_lt.2 hfits), builtConfig, maxPoly_eq s.stg m hmem hle]
    · exact fun i => readReg_builtConfig s.stg

/-! ### The constructed configuration (R127, R128) -/

/-- A `CCOMMIT` that answers `OK` found a valid staged list and made its configuration the active one. -/
theorem cfg_of_ccommit_responds_ok {s t : State} (h : exec .ccommit s = .next t) (hok : Responds .ccommit s 0) :
    stagedInvalid s.stg = false ∧ t.cfg = builtConfig s.stg := by
  have hrejected {c : Status} (hc : c ≠ .ok) : exec .ccommit s ≠ reject c s := fun he => by
    have hcode := (responds_reject .ccommit s c s rfl he 0 (Nat.zero_le 4)).1 hok
    revert hc hcode
    cases c <;> decide
  cases hopen : callOpen s with
  | true => exact absurd (exec_ccommit_of_open ((callOpen_iff s).1 hopen)) (hrejected (c := .protocol) nofun)
  | false =>
    have hexec := exec_ccommit_of_closed hopen
    split at hexec
    · exact absurd hexec (hrejected (c := .invalidConfiguration) nofun)
    · rename_i hvalid
      split at hexec
      · exact absurd hexec (hrejected (c := .capacity) nofun)
      · obtain rfl := Host.Outcome.next.inj (hexec.symm.trans h)
        exact ⟨Bool.eq_false_iff.2 hvalid, rfl⟩

theorem readReg_mem_polys {g : Staging} {i : Nat} (hi : i < g.spCount) : readReg g.sPoly i ∈ g.polys :=
  (polys_mem g _).2 ⟨i, hi, rfl⟩

/-- `K` is the bit length of the largest staged polynomial (R125): every polynomial fits in `K` bits, and the largest
has bit `K-1` set. -/
theorem builtConfig_bounds {g : Staging} (hle : g.spCount ≤ 16) (hvalid : stagedInvalid g = false) :
    1 ≤ (builtConfig g).K ∧
      (∀ i < g.spCount, (readReg (builtConfig g).poly i).toNat < 2 ^ (builtConfig g).K) ∧
      ∃ i < g.spCount, 2 ^ ((builtConfig g).K - 1) ≤ (readReg (builtConfig g).poly i).toNat := by
  obtain ⟨hcount, -, hzero⟩ := (stagedInvalid_eq_false_iff g).1 hvalid
  have hpoly {i : Nat} (hi : i < g.spCount) : readReg (builtConfig g).poly i = readReg g.sPoly i :=
    (readReg_builtConfig g (by omega)).trans (if_pos hi)
  have hne : g.polys ≠ [] := List.ne_nil_of_mem (readReg_mem_polys (Nat.pos_of_ne_zero hcount))
  obtain ⟨p, hp, hmax⟩ := maxPoly_mem hne
  obtain ⟨i, hi, rfl⟩ := (polys_mem g p).1 hp
  have hK : 1 ≤ bitlen (maxPoly g.polys) := bitlen_pos (hmax ▸ BitVec.toNat_injective.ne (hzero i hi))
  refine ⟨hK, fun j hj => ?_, i, hi, ?_⟩
  · rw [hpoly hj]
    exact (toNat_le_maxPoly (readReg_mem_polys hj)).trans_lt (lt_two_pow_bitlen _)
  · rw [hpoly hi, hmax]
    exact two_pow_le_of_bitlen (Nat.sub_add_cancel hK).symm

/-- Settles O18: the bounds of the configuration that a valid staged list constructs. -/
theorem constructedConfigurationIsWithinBounds : Obligations.ConstructedConfigurationIsWithinBounds := by
  rintro s t ⟨-, -, ⟨hle, -, -⟩, -⟩ h hok
  obtain ⟨hvalid, hcfg⟩ := cfg_of_ccommit_responds_ok h hok
  have hcount : s.stg.spCount ≠ 0 := ((stagedInvalid_eq_false_iff s.stg).1 hvalid).1
  rw [hcfg]
  exact ⟨Nat.pos_of_ne_zero hcount, hle, builtConfig_bounds hle hvalid⟩

/-- Reversed over `K` bits or not, a polynomial of a valid configuration gives a non-zero mask of `K` bits. -/
theorem tapMask_bounds {cfg : ActiveConfig} {i : Nat} (hne : readReg cfg.poly i ≠ 0)
    (hlt : (readReg cfg.poly i).toNat < 2 ^ cfg.K) : tapMask cfg i ≠ 0 ∧ tapMask cfg i < 2 ^ cfg.K := by
  have hne : (readReg cfg.poly i).toNat ≠ 0 := BitVec.toNat_injective.ne hne
  unfold tapMask
  split
  · exact ⟨bitrev_ne_zero hlt hne, bitrev_lt _ _⟩
  · exact ⟨hne, hlt⟩

/-- Settles O19: the two values of the flag, bit by bit. -/
theorem tapMaskIsThePolynomialOrItsReversal : Obligations.TapMaskIsThePolynomialOrItsReversal := by
  rintro p cfg ⟨hcfg, -⟩ hvalid i hi
  obtain ⟨-, hnPoly, hne, -, -, -, -, hlt⟩ := hcfg hvalid
  have hbounds := tapMask_bounds (hne i hi) (hlt i (by omega))
  refine ⟨cfg.codec_taps i hi, cfg.codec_k, fun hrev => ?_, fun hrev j => ?_, hbounds⟩
  · simp only [tapMask, hrev, Bool.false_eq_true, if_false]
  · simp only [tapMask, hrev, if_true]
    exact testBit_bitrev _ _ _

end Sys2Proof.Machine
end

section
/-! PROOFS. The statements of 41_encoder.md: what the encoder commands do (R141 to R143), the input bits that the
register holds and the linearity of the code (R146), and the mirrored encoder (R147). -/

namespace Sys2Proof.Machine

open Sys2Proof

/-! ### The encoder commands (R141 to R143) -/

theorem formatZ_estart : FormatZ 0x5 .estart := formatZ_of fun w hw => by simp only [decode, decode_of_op hw]

theorem formatB_ebit : FormatB 0x6 .ebit := formatB_of fun w hw => by simp only [decode, decode_of_op hw]

theorem formatZ_eend : FormatZ 0x7 .eend := formatZ_of fun w hw => by simp only [decode, decode_of_op hw]

theorem exec_estart_of_ready {s : State} (hvalid : s.cfg.cfgValid = true) (hidle : s.enc.encSt = .idle) :
    exec .estart s = .next (acceptedWith 0 { s with enc := { R := 0, encSt := .active } }) := by
  have hready : ¬(s.cfg.cfgValid = false ∨ s.enc.encSt = .active) := by simp only [hvalid, hidle]; decide
  exact (if_neg hready).trans (respond_ok_zero _)

/-- Settles O20: the check of `ESTART`, and its two register writes. -/
theorem estartOpensTheEncodeCall : Obligations.EstartOpensTheEncodeCall :=
  ⟨formatZ_estart, fun s => ⟨exec_estart_of_ready, fun hbad => (if_pos hbad).trans (reject_protocol s)⟩⟩

/-- Inside a call `EBIT` emits the coded bits of the shifted register and keeps that register (R144). -/
theorem exec_ebit_of_active (b : Bool) {s : State} (h : s.enc.encSt = .active) :
    exec (.ebit b) s = .next (acceptedWith 0 { s with
      enc := { R := BitVec.ofNat 28 (s.cfg.codec.shift s.enc.R.toNat b), encSt := .active }
      encOut := s.encOut ++ s.cfg.codec.codedBits (s.cfg.codec.shift s.enc.R.toNat b) }) := by
  have hopen : ¬ s.enc.encSt = .idle := by rw [h]; decide
  rw [← h]
  exact (if_neg hopen).trans (respond_ok_zero _)

/-- Coded bit `i` is the parity of the register under tap mask `i` (R144). -/
theorem ActiveConfig.getElem?_codedBits (cfg : ActiveConfig) (sh : Nat) {i : Nat} (hi : i < cfg.nPoly) :
    (cfg.codec.codedBits sh)[i]? = some (parity (sh &&& tapMask cfg i)) := by
  rw [Codec.codedBits, List.getElem?_map, cfg.codec_taps i hi, Option.map_some]

/-- Settles O21: the emitted list is the coded bits of the shifted register. -/
theorem ebitEmitsParitiesAndShifts : Obligations.EbitEmitsParitiesAndShifts := by
  refine ⟨formatB_ebit, fun b s => ⟨fun hidle => (if_pos hidle).trans (reject_protocol s), ?_⟩⟩
  rintro hactive sh rfl
  refine ⟨_, exec_ebit_of_active b hactive, ?_, fun i => s.cfg.getElem?_codedBits _⟩
  rw [Codec.length_codedBits, ActiveConfig.codec_k]

/-- Settles O22: the check of `EEND`, and its two register writes. -/
theorem eendClosesTheEncodeCall : Obligations.EendClosesTheEncodeCall := by
  refine ⟨formatZ_eend, fun s => ⟨fun hactive => ?_, fun hidle => (if_pos hidle).trans (reject_protocol s)⟩⟩
  have hopen : ¬ s.enc.encSt = .idle := by rw [hactive]; decide
  exact (if_neg hopen).trans (respond_ok_zero _)

/-! ### The register as the last input bits, and linearity (R146) -/

/-- Bit `j` of the register after a call's bits is the bit that arrived `j` steps before the newest. -/
theorem Codec.testBit_finalReg (c : Codec) (bits : List Bool) (j : Nat) :
    (c.finalReg bits).testBit j =
      (decide (j < c.K) && decide (j < bits.length) && (bits[bits.length - 1 - j]?).getD false) := by
  rw [Codec.finalReg, c.testBit_encodeFrom 0 bits (Nat.two_pow_pos _), Nat.zero_testBit]
  by_cases hj : j < bits.length <;> simp [hj]

/-- The same, counted from the newest bit back. -/
theorem Codec.testBit_finalReg_reverse (c : Codec) (bits : List Bool) {j : Nat} (hj : j < c.K) :
    (c.finalReg bits).testBit j = (bits.reverse[j]?).getD false := by
  rw [c.testBit_finalReg]
  by_cases hlen : j < bits.length
  · rw [List.getElem?_reverse hlen, decide_eq_true hj, decide_eq_true hlen, Bool.true_and, Bool.true_and]
  · simp [hj, hlen]

/-- One more input bit adds the coded bits of the new register. -/
theorem Codec.encode_snoc (c : Codec) (bits : List Bool) (b : Bool) :
    c.encode (bits ++ [b]) = c.encode bits ++ c.codedBits (c.finalReg (bits ++ [b])) := by
  simp only [Codec.encode, Codec.finalReg, c.encodeFrom_append, Codec.encodeFrom, List.append_nil]

/-- The parity of a masked word of `n` bits, as the exclusive or of the tapped bits. -/
theorem parity_and_eq_foldl {n x t : Nat} {f : Nat → Bool} (hx : x < 2 ^ n) (hf : ∀ j < n, x.testBit j = f j) :
    parity (x &&& t) = (List.range n).foldl (fun a j => a ^^ (t.testBit j && f j)) false := by
  rw [parity_eq_parityBelow (Nat.and_le_left.trans_lt hx), parityBelow_eq_foldl]
  refine List.foldl_ext _ _ _ fun a j hj => ?_
  rw [Nat.testBit_and, hf j (List.mem_range.1 hj), Bool.and_comm]

theorem Codec.shift_xor (c : Codec) (r r' : Nat) (b b' : Bool) :
    c.shift (r ^^^ r') (b ^^ b') = c.shift r b ^^^ c.shift r' b' := by
  apply Nat.eq_of_testBit_eq
  intro j
  rw [Nat.testBit_xor]
  simp only [Codec.testBit_shift]
  split
  · exact Bool.and_xor_distrib_left _ _ _
  · rw [Nat.testBit_xor]
    exact Bool.and_xor_distrib_left _ _ _

theorem Codec.codedBits_xor (c : Codec) (x y : Nat) :
    c.codedBits (x ^^^ y) = List.zipWith xor (c.codedBits x) (c.codedBits y) := by
  simp only [Codec.codedBits, List.zipWith_map, List.zipWith_self, Nat.and_xor_distrib_right, parity_xor]

/-- Linearity of the coded stream, from any two registers. -/
theorem Codec.encodeFrom_xor (c : Codec) {xs ys : List Bool} (h : xs.length = ys.length) (r r' : Nat) :
    (c.encodeFrom (r ^^^ r') (List.zipWith xor xs ys)).2 =
      List.zipWith xor (c.encodeFrom r xs).2 (c.encodeFrom r' ys).2 := by
  induction xs generalizing ys r r' with
  | nil => rfl
  | cons x xs ih =>
    cases ys with
    | nil => cases h
    | cons y ys =>
      have hk : (c.codedBits (c.shift r x)).length = (c.codedBits (c.shift r' y)).length := by
        rw [c.length_codedBits, c.length_codedBits]
      simp only [List.zipWith_cons_cons, Codec.encodeFrom, c.shift_xor, c.codedBits_xor, List.zipWith_append hk,
        ih (Nat.succ.inj h)]

/-- Settles O24: the register holds the last input bits, so a coded bit is a sum of input bits, and the step is
linear. -/
theorem registerHoldsTheLastInputBits : Obligations.RegisterHoldsTheLastInputBits := by
  refine ⟨Codec.testBit_finalReg, fun c bits b => ?_, fun c xs ys h => c.encodeFrom_xor h 0 0⟩
  refine ⟨_, c.encode_snoc bits b, c.length_codedBits _, fun i t ht => ?_⟩
  have hreg (j : Nat) (hj : j < c.K) :
      (c.finalReg (bits ++ [b])).testBit j = ((b :: bits.reverse)[j]?).getD false := by
    rw [c.testBit_finalReg_reverse _ hj, List.reverse_concat]
  rw [Codec.codedBits, List.getElem?_map, ht, Option.map_some, parity_and_eq_foldl (c.finalReg_lt _) hreg]

/-! ### The mirrored encoder (R147) -/

/-- Inserting at bit `K-1` and shifting right (which is `predOf`) is, on reversed registers, inserting at bit 0 and
shifting left. -/
theorem Codec.predOf_bitrev (c : Codec) (hK : 1 ≤ c.K) (r : Nat) (b : Bool) :
    c.predOf (bitrev c.K r) b = bitrev c.K (c.shift r b) := by
  have hrev : bitrev c.K r < c.S := bitrev_lt _ _
  apply Nat.eq_of_testBit_eq
  intro i
  by_cases hi : i < c.K
  · rw [c.testBit_predOf hK _ hrev b i hi, testBit_bitrev, testBit_bitrev, c.testBit_shift]
    by_cases htop : i = c.K - 1
    · simp [htop, show 0 < c.K by omega]
    · simp [htop, hi, show i + 1 < c.K by omega, show c.K - 1 - i < c.K by omega, show ¬ c.K - 1 - i = 0 by omega,
        show c.K - 1 - (i + 1) = c.K - 1 - i - 1 by omega]
  · have hpow : 2 ^ c.K ≤ 2 ^ i := Nat.pow_le_pow_right (by omega) (Nat.not_lt.1 hi)
    rw [Nat.testBit_lt_two_pow ((c.predOf_lt hK hrev b).trans_le hpow),
      Nat.testBit_lt_two_pow ((bitrev_lt _ _).trans_le hpow)]

/-- One step of the simulation: the mirrored encoder on the reversed register is the encoder, reversed. -/
theorem mirroredStep_bitrev (c : Codec) (hK : 1 ≤ c.K) (r : Nat) (b : Bool) :
    mirroredStep c (bitrev c.K r) b = (bitrev c.K (c.shift r b), c.codedBits (c.shift r b)) := by
  have hsh : (mirroredStep c (bitrev c.K r) b).1 = bitrev c.K (c.shift r b) := c.predOf_bitrev hK r b
  refine Prod.ext hsh (List.map_congr_left fun t _ => ?_)
  exact (congrArg (fun x => parity (x &&& bitrev c.K t)) hsh).trans (parity_bitrev_and _ _ t (c.shift_lt r b))

/-- The simulation along a stream. -/
theorem mirroredFrom_bitrev (c : Codec) (hK : 1 ≤ c.K) (r : Nat) (bits : List Bool) :
    mirroredFrom c (bitrev c.K r) bits = (c.encodeFrom r bits).2 := by
  induction bits generalizing r with
  | nil => rfl
  | cons b bs ih => rw [mirroredFrom, mirroredStep_bitrev c hK, ih, Codec.encodeFrom]

theorem bitrev_zero_right (n : Nat) : bitrev n 0 = 0 := by
  apply Nat.eq_of_testBit_eq
  intro i
  simp only [testBit_bitrev, Nat.zero_testBit, Bool.and_false]

/-- Settles O25: the step of the simulation, and its induction over the stream from the reversed register 0. -/
theorem mirroredEncoderEmitsTheSameStream : Obligations.MirroredEncoderEmitsTheSameStream := by
  intro c hK _
  refine ⟨fun r b _ => ?_, fun bits => ?_⟩
  · rw [mirroredStep_bitrev c hK]
    exact ⟨rfl, rfl⟩
  · have h := mirroredFrom_bitrev c hK 0 bits
    rwa [bitrev_zero_right] at h

end Sys2Proof.Machine
end

section
/-! PROOFS. The statements of 42_decoder_acs.md: the trellis (R170 to R172, R175), the hint and soft-value commands
(R161, R164, R165), and what a column of metrics holds (R176 to R178). -/

namespace Sys2Proof.Machine

open Sys2Proof

/-! ### Predecessors, branch metric and decision (R170 to R172, R175) -/

theorem Codec.predOf_false (c : Codec) (hK : 1 ≤ c.K) (s : Nat) : c.predOf s false = pred0 s := c.predOf_eq hK s false

theorem Codec.predOf_true (c : Codec) (hK : 1 ≤ c.K) (s : Nat) : c.predOf s true = c.pred1 s := c.predOf_eq hK s true

/-- The low bits of either predecessor are the high bits of the state, and its top bit is the decision that names it. -/
theorem Codec.testBit_preds (c : Codec) (hK : 1 ≤ c.K) {s : Nat} (hs : s < c.S) :
    (pred0 s).testBit (c.K - 1) = false ∧ (c.pred1 s).testBit (c.K - 1) = true ∧
      ∀ i < c.K - 1, (pred0 s).testBit i = s.testBit (i + 1) ∧ (c.pred1 s).testBit i = s.testBit (i + 1) := by
  have hbit (d : Bool) {i : Nat} (hi : i ≤ c.K - 1) := c.testBit_predOf hK s hs d i (by omega)
  rw [← c.predOf_false hK, ← c.predOf_true hK]
  refine ⟨?_, ?_, fun i hi => ⟨?_, ?_⟩⟩
  · rw [hbit false le_rfl, if_pos rfl]
  · rw [hbit true le_rfl, if_pos rfl]
  · rw [hbit false hi.le, if_neg hi.ne]
  · rw [hbit true hi.le, if_neg hi.ne]

theorem Codec.pred0_lt_pred1 (c : Codec) (hK : 1 ≤ c.K) {s : Nat} (hs : s < c.S) : pred0 s < c.pred1 s := by
  rw [pred0_eq, c.pred1_eq hK hs]
  exact Nat.lt_add_of_pos_right (Nat.two_pow_pos _)

theorem Codec.getElem?_codedBits (c : Codec) (sh : Nat) {i t : Nat} (ht : c.taps[i]? = some t) :
    (c.codedBits sh)[i]? = some (parity (sh &&& t)) := by
  rw [Codec.codedBits, List.getElem?_map, ht, Option.map_some]

/-- Settles O31: the predecessors as shifts, bit by bit, and as the registers that one bit leads to the state. -/
theorem predecessorsAreExactlyTheTwoOfTheFormulas : Obligations.PredecessorsAreExactlyTheTwoOfTheFormulas := by
  intro c hK s hs
  obtain ⟨htop0, htop1, hlow⟩ := c.testBit_preds hK hs
  refine ⟨rfl, rfl, c.pred0_lt_pred1 hK hs, c.pred1_lt hK hs, htop0, htop1, hlow,
    fun r hr => c.shift_eq_iff hK hs hr, ?_⟩
  rintro r b rfl i t ht
  exact c.getElem?_codedBits _ ht

theorem softCost_false (o : Byte) : softCost o false = o.toNat := by
  simp [softCost, absdiff]

theorem softCost_true (o : Byte) : softCost o true = 255 - o.toNat := by
  have ho : o.toNat ≤ 255 := Nat.le_of_lt_succ o.isLt
  rw [softCost, absdiff_comm]
  exact if_pos ho

/-- The distances of an observation from the two ideal values make up 255. -/
theorem softCost_add_softCost_not (o : Byte) (e : Bool) : softCost o e + softCost o (!e) = 255 := by
  have ho : o.toNat ≤ 255 := Nat.le_of_lt_succ o.isLt
  cases e <;> simp only [Bool.not_true, Bool.not_false, softCost_false, softCost_true] <;> omega

theorem sum_softCost_complement {obs : List Byte} {es : List Bool} (h : obs.length = es.length) :
    (List.zipWith softCost obs es).sum + (List.zipWith softCost obs (es.map not)).sum = 255 * es.length := by
  induction es generalizing obs with
  | nil => simp
  | cons e es ih =>
    cases obs with
    | nil => cases h
    | cons o os =>
      have hterm := softCost_add_softCost_not o e
      have hrest := ih (Nat.succ.inj h)
      simp only [List.map_cons, List.zipWith_cons_cons, List.sum_cons, List.length_cons]
      omega

/-- Settles O32: each term against its complement, summed over the group. -/
theorem branchMetricIsBoundedAndComplementary : Obligations.BranchMetricIsBoundedAndComplementary := by
  refine ⟨fun o => ⟨softCost_false o, softCost_true o⟩, fun c s obs hlen => ⟨rfl, c.branchMetric_le s obs, ?_⟩,
    fun c hk => Nat.mul_le_mul_left 255 hk⟩
  have h := sum_softCost_complement (hlen.trans (c.length_codedBits s).symm)
  rwa [c.length_codedBits] at h

/-- The states `2j` and `2j + 1` of a butterfly have the predecessors `j` and `j + S/2`. -/
theorem Codec.butterfly_preds (c : Codec) (hK : 1 ≤ c.K) {j b : Nat} (hj : j < 2 ^ (c.K - 1)) (hb : b < 2) :
    2 * j + b < c.S ∧ pred0 (2 * j + b) = j ∧ c.pred1 (2 * j + b) = j + 2 ^ (c.K - 1) := by
  have hlt : 2 * j + b < c.S := by rw [Codec.S, two_pow_K hK]; omega
  have hhalf : (2 * j + b) / 2 = j := by omega
  exact ⟨hlt, by rw [pred0_eq, hhalf], by rw [c.pred1_eq hK hlt, hhalf]⟩

/-- Settles O33: the decision reads the two predecessors' metrics only, and a butterfly shares its predecessors. -/
theorem butterflyStatesDecideAlike : Obligations.ButterflyStatesDecideAlike := by
  intro c pm obs hK
  refine ⟨fun s _ => c.acsState_eq pm obs s, fun j hj => ?_⟩
  obtain ⟨hlt0, h00, h01⟩ := c.butterfly_preds hK hj (b := 0) (by omega)
  obtain ⟨hlt1, h10, h11⟩ := c.butterfly_preds hK hj (b := 1) (by omega)
  refine ⟨h00, h01, h10, h11, ?_⟩
  rw [c.getElem?_acsStep pm obs hlt1, c.acsState_eq, h10, h11]
  exact (c.getElem?_acsStep pm obs hlt0).trans (by rw [c.acsState_eq, h00, h01])

/-! ### The hint and soft-value commands (R161, R164, R165) -/

theorem formatB_dhbit : FormatB 0x8 .dhbit := formatB_of fun w hw => by simp only [decode, decode_of_op hw]

theorem formatO_dsoft : FormatO 0xA .dsoft := formatO_of fun w hw => by simp only [decode, decode_of_op hw]

/-- With no call open `DHBIT` shifts its bit into `HINT`. -/
theorem exec_dhbit_of_idle (b : Bool) {s : State} (h : s.dec.decSt = .idle) :
    exec (.dhbit b) s = .next (acceptedWith 0 { s with dec := { s.dec with
      hint := BitVec.ofNat 28 (((s.dec.hint.toNat <<< 1) ||| b.toNat) &&& (2 ^ s.params.kMax - 1))
      hLen := min (s.dec.hLen + 1) 31 } }) := by
  have hclosed : ¬ s.dec.decSt = .run := by rw [h]; decide
  exact (if_neg hclosed).trans (respond_ok_zero _)

/-- `HINT` shifts as the encoder register of a code of constraint length `K_MAX` does. -/
theorem toNat_shiftedHint {p : Params} (hp : p.Valid) (x : Nat) (b : Bool) :
    (BitVec.ofNat 28 (((x <<< 1) ||| b.toNat) &&& (2 ^ p.kMax - 1))).toNat = (2 * x + b.toNat) % 2 ^ p.kMax := by
  obtain ⟨-, hkMax, -⟩ := hp
  have hshift : ((x <<< 1) ||| b.toNat) &&& (2 ^ p.kMax - 1) = (2 * x + b.toNat) % 2 ^ p.kMax :=
    Codec.shift_eq { K := p.kMax, taps := [] } x b
  have hlt : (2 * x + b.toNat) % 2 ^ p.kMax < 2 ^ 28 :=
    (Nat.mod_lt _ (Nat.two_pow_pos _)).trans_le (Nat.pow_le_pow_right (by omega) hkMax)
  rw [hshift, BitVec.toNat_ofNat, Nat.mod_eq_of_lt hlt]

/-- Settles O26: the check of `DHBIT`, and the shifted hint as a number. -/
theorem dhbitAppendsOneHintBit : Obligations.DhbitAppendsOneHintBit :=
  ⟨formatB_dhbit, fun b s => ⟨fun hrun => (if_pos hrun).trans (reject_protocol s),
    fun hidle hp => ⟨_, toNat_shiftedHint hp _ b, exec_dhbit_of_idle b hidle⟩⟩⟩

/-- `DSOFT` is turned away outside a call and after its last column. -/
theorem exec_dsoft_of_not_expected (o : BitVec 8) {s : State} (h : s.dec.decSt = .idle ∨ s.dec.C = s.dec.nReg) :
    exec (.dsoft o) s = .next (rejectedWith 3 s) :=
  (if_pos h).trans (reject_protocol s)

/-- Before the end of its group an observation is stored only. -/
theorem exec_dsoft_of_lt (o : BitVec 8) {s : State} (hrun : s.dec.decSt = .run) (hC : s.dec.C ≠ s.dec.nReg)
    (hG : s.dec.G + 1 < s.cfg.nPoly) :
    exec (.dsoft o) s = .next (acceptedWith 0
      { s with dec := { s.dec with obs := writeReg s.dec.obs s.dec.G o, G := s.dec.G + 1 } }) := by
  have hopen : ¬(s.dec.decSt = .idle ∨ s.dec.C = s.dec.nReg) := not_or.2 ⟨by rw [hrun]; decide, hC⟩
  exact (if_neg hopen).trans ((if_pos hG).trans (respond_ok_zero _))

/-- The ACS step inside a call: from the written column, with the observations of the group register by register. -/
theorem InCall.acsUpdate_eq {s : State} (h : InCall s) (u : Unspec) (obs : Vector Byte 16) {col : List Metric}
    {dec : List Bool}
    (hcol : (col, dec) = s.cfg.codec.acsStep (metricAt s.dec.pm) ((List.range s.cfg.nPoly).map (readReg obs))) :
    acsUpdate u s.cfg { s.dec with obs := obs } =
      { s.dec with obs := obs, pm := col, surv := Memory.write s.dec.surv (s.dec.C + 1) dec } := by
  have hread : ∀ x < s.cfg.codec.S, s.dec.readPm u x = metricAt s.dec.pm x := fun x hx =>
    s.dec.readPm_eq u x (h.pm_length ▸ hx)
  rw [← s.cfg.codec.acsStep_congr h.K_pos _ hread] at hcol
  simp only [acsUpdate, Decoder.readPm_setObs, Decoder.group_eq _ _ h.nPoly_le, ← hcol]

/-- The last observation of a group runs the ACS step on it and starts the next column. -/
theorem exec_dsoft_of_full (o : BitVec 8) {s : State} (hs : Invariant s) (hrun : s.dec.decSt = .run)
    (hC : s.dec.C ≠ s.dec.nReg) (hG : s.dec.G + 1 = s.cfg.nPoly) {col : List Metric} {dec : List Bool}
    (hcol : (col, dec) = s.cfg.codec.acsStep (metricAt s.dec.pm)
      ((List.range s.cfg.nPoly).map (readReg (writeReg s.dec.obs s.dec.G o)))) :
    exec (.dsoft o) s = .next (acceptedWith 0 { s with dec := { s.dec with
      obs := writeReg s.dec.obs s.dec.G o, pm := col, surv := Memory.write s.dec.surv (s.dec.C + 1) dec,
      C := s.dec.C + 1, G := 0 } }) := by
  have hactive : s.dec.decSt ≠ .idle := by rw [hrun]; decide
  have hopen : ¬(s.dec.decSt = .idle ∨ s.dec.C = s.dec.nReg) := not_or.2 ⟨hactive, hC⟩
  have hfull : ¬ s.dec.G + 1 < s.cfg.nPoly := hG.not_lt
  have hacs := (InCall.of_invariant hs hactive).acsUpdate_eq (unspecAt s.params s.epoch) _ hcol
  refine (if_neg hopen).trans ((if_neg hfull).trans ?_)
  rw [hacs]
  exact respond_ok_zero _

/-- The observation registers after `DSOFT` has stored its value. -/
theorem readReg_storeObs (d : Decoder) (o : Byte) {i : Nat} (hi : i < 16) :
    readReg (writeReg d.obs d.G o) i = if i = d.G then o else readReg d.obs i := by
  simp only [readReg_writeReg, hi, and_true, eq_comm]

/-- Settles O29: the check of `DSOFT`, and its two branches. -/
theorem dsoftTakesOneSoftValue : Obligations.DsoftTakesOneSoftValue :=
  ⟨formatO_dsoft, fun o s => ⟨exec_dsoft_of_not_expected o, fun hrun hC =>
    ⟨_, fun _ => readReg_storeObs s.dec o, exec_dsoft_of_lt o hrun hC,
      fun hs hG _ _ => exec_dsoft_of_full o hs hrun hC hG⟩⟩⟩

theorem Memory.read?_write {α : Type} (m : Memory α) (a a' : Nat) (v : α) :
    Memory.read? (Memory.write m a v) a' = if a' = a then some v else Memory.read? m a' := by
  split
  · rename_i h
    rw [h, Memory.read?_write_same]
  · rename_i h
    exact Memory.read?_write_ne m v h

/-- The branch metric of the active configuration, term by term (R171). -/
theorem ActiveConfig.branchMetric_eq (cfg : ActiveConfig) (x : Nat) (obs : Vector Byte 16) :
    cfg.codec.branchMetric x ((List.range cfg.nPoly).map (readReg obs)) =
      ((List.range cfg.nPoly).map fun i =>
        absdiff (readReg obs i).toNat (255 * (parity (x &&& tapMask cfg i)).toNat)).sum := by
  simp only [Codec.branchMetric, Codec.codedBits, ActiveConfig.codec, List.map_map, List.zipWith_map,
    List.zipWith_self]
  rfl

/-- The ACS step state by state: add, compare, select, ties to the lower predecessor (R165, R173). -/
theorem Codec.acsStep_select (c : Codec) (pm : Nat → Metric) (obs : List Byte) {x : Nat} (hx : x < c.S) {c0 c1 : Metric}
    (hc0 : c0 = (pm (pred0 x)).add (c.branchMetric x obs)) (hc1 : c1 = (pm (c.pred1 x)).add (c.branchMetric x obs)) :
    (c1.lt c0 = true → (c.acsStep pm obs).1[x]? = some c1 ∧ (c.acsStep pm obs).2[x]? = some true) ∧
      (c1.lt c0 = false → (c.acsStep pm obs).1[x]? = some c0 ∧ (c.acsStep pm obs).2[x]? = some false) := by
  have hacs : c.acsState pm obs x = if c1.lt c0 then (c1, true) else (c0, false) := by
    rw [hc0, hc1, Codec.acsState]
  have hcol : (c.acsStep pm obs).1[x]? = some (c.acsState pm obs x).1 := by
    simp only [Codec.acsStep, List.getElem?_map, List.getElem?_range hx, Option.map_some]
  rw [hcol, c.getElem?_acsStep pm obs hx, hacs]
  exact ⟨fun hlt => by rw [if_pos hlt]; exact ⟨rfl, rfl⟩, fun hle => by rw [hle]; exact ⟨rfl, rfl⟩⟩

/-- Settles O30: the step of `DSOFT`, and its new column and decisions state by state. -/
theorem dsoftRunsTheAcsStepOnAFullGroup : Obligations.DsoftRunsTheAcsStepOnAFullGroup := by
  intro o s hs hrun hC hG
  refine ⟨_, (s.cfg.codec.acsStep _ _).1, (s.cfg.codec.acsStep _ _).2, _,
    exec_dsoft_of_full o hs hrun hC hG Prod.mk.eta, fun _ => readReg_storeObs s.dec o,
    fun c => Memory.read?_write _ _ _ _, Codec.length_acsStep_fst _ _ _, Codec.length_acsStep_snd _ _ _, ?_⟩
  intro x hx bm c0 c1 hbm
  rw [← s.cfg.branchMetric_eq] at hbm
  rw [hbm]
  exact Codec.acsStep_select _ _ _ hx

/-! ### What a column holds (R176 to R178) -/

/-- The metric is the least of a set of sums, and `INF` when there is none. -/
def IsLeastMetric (X : Set Nat) : Metric → Prop
  | .fin m => IsLeast X m
  | .inf => X = ∅

theorem IsLeastMetric.eq_fin_iff {X : Set Nat} {M : Metric} (h : IsLeastMetric X M) (m : Nat) :
    M = .fin m ↔ IsLeast X m := by
  cases M with
  | fin a => rw [Metric.fin.injEq, IsLeast.isLeast_iff_eq h]
  | inf =>
    obtain rfl : X = ∅ := h
    exact ⟨nofun, fun hm => absurd hm.1 (Set.notMem_empty m)⟩

theorem IsLeastMetric.eq_inf_iff {X : Set Nat} {M : Metric} (h : IsLeastMetric X M) : M = .inf ↔ X = ∅ := by
  cases M with
  | fin a =>
    have ha : IsLeast X a := h
    exact ⟨nofun, fun hX => absurd hX ha.nonempty.ne_empty⟩
  | inf => exact ⟨fun _ => h, fun _ => rfl⟩

/-- Adding a branch metric to the least sum is adding it to every sum. -/
theorem IsLeastMetric.add {X : Set Nat} {M : Metric} (h : IsLeastMetric X M) (b : Nat) :
    IsLeastMetric ((· + b) '' X) (M.add b) := by
  cases M with
  | fin m => exact (show Monotone (· + b) from fun _ _ hle => Nat.add_le_add_right hle b).map_isLeast h
  | inf => exact Set.image_eq_empty.2 h

/-- Compare and select: the lesser of two least sums is the least of all. -/
theorem IsLeastMetric.select {X Y : Set Nat} {M N : Metric} (hM : IsLeastMetric X M) (hN : IsLeastMetric Y N) :
    IsLeastMetric (X ∪ Y) (if N.lt M then N else M) := by
  cases M with
  | inf =>
    obtain rfl : X = ∅ := hM
    rw [Set.empty_union]
    cases N with
    | fin n => exact hN
    | inf => exact hN
  | fin m =>
    cases N with
    | inf =>
      obtain rfl : Y = ∅ := hN
      rw [Set.union_empty]
      exact hM
    | fin n =>
      have hmin : IsLeast (X ∪ Y) (min m n) := IsLeast.union hM hN
      by_cases hlt : n < m
      · rw [lt_fin_fin, if_pos (decide_eq_true hlt)]
        rwa [min_eq_right hlt.le] at hmin
      · rw [lt_fin_fin, decide_eq_false hlt]
        rwa [min_eq_left (Nat.not_lt.1 hlt)] at hmin

/-- The branch-metric sums of the `n`-bit inputs that drive the encoder from register 0 to `s` (R178). -/
def Codec.pathSums (c : Codec) (n : Nat) (soft : List Byte) (s : Nat) : Set Nat :=
  {m | ∃ bits : List Bool, bits.length = n ∧ c.finalReg bits = s ∧ c.pathMetric 0 bits soft = m}

theorem Codec.isLeast_pathSums_iff (c : Codec) (n : Nat) (soft : List Byte) (s m : Nat) :
    IsLeast (c.pathSums n soft s) m ↔
      (∃ bits : List Bool, bits.length = n ∧ c.finalReg bits = s ∧ c.pathMetric 0 bits soft = m) ∧
        ∀ bits : List Bool, bits.length = n → c.finalReg bits = s → m ≤ c.pathMetric 0 bits soft :=
  and_congr_right fun _ => ⟨fun hle bits hlen hreg => hle ⟨bits, hlen, hreg, rfl⟩, by
    rintro hle _ ⟨bits, hlen, hreg, rfl⟩
    exact hle bits hlen hreg⟩

theorem Codec.pathSums_eq_empty_iff (c : Codec) (n : Nat) (soft : List Byte) (s : Nat) :
    c.pathSums n soft s = ∅ ↔ ∀ bits : List Bool, bits.length = n → c.finalReg bits ≠ s :=
  Set.eq_empty_iff_forall_notMem.trans
    ⟨fun h bits hlen hreg => h _ ⟨bits, hlen, hreg, rfl⟩, fun h _ ⟨bits, hlen, hreg, _⟩ => h bits hlen hreg⟩

theorem Codec.finalReg_snoc (c : Codec) (bits : List Bool) (b : Bool) :
    c.finalReg (bits ++ [b]) = c.shift (c.finalReg bits) b := by
  simp only [Codec.finalReg, c.encodeFrom_append, Codec.encodeFrom]

/-- One more input bit adds the branch metric of the new register against the next group. -/
theorem Codec.pathMetric_snoc (c : Codec) (r : Nat) (bits : List Bool) (b : Bool) (soft : List Byte) :
    c.pathMetric r (bits ++ [b]) soft = c.pathMetric r bits soft +
      c.branchMetric (c.encodeFrom r (bits ++ [b])).1 ((soft.drop (bits.length * c.k)).take c.k) := by
  induction bits generalizing r soft with
  | nil => simp [Codec.pathMetric, Codec.encodeFrom]
  | cons a as ih =>
    have hdrop : c.k + as.length * c.k = (as.length + 1) * c.k := by ring
    simp only [List.cons_append, Codec.pathMetric, Codec.encodeFrom, ih, List.drop_drop, hdrop, List.length_cons,
      Nat.add_assoc]

theorem Codec.pathSums_zero (c : Codec) (soft : List Byte) (s : Nat) :
    c.pathSums 0 soft s = if s = 0 then {0} else ∅ := by
  split
  · rename_i hs
    subst hs
    refine Set.eq_singleton_iff_unique_mem.2 ⟨⟨[], rfl, rfl, rfl⟩, ?_⟩
    rintro _ ⟨bits, hlen, -, rfl⟩
    rw [List.length_eq_zero_iff.1 hlen, Codec.pathMetric]
  · rename_i hs
    refine (c.pathSums_eq_empty_iff 0 soft s).2 fun bits hlen hreg => hs ?_
    rw [← hreg, List.length_eq_zero_iff.1 hlen]
    rfl

/-- An input of `n + 1` bits that leads to `s` is one of `n` bits that leads to a predecessor, and bit 0 of `s`. -/
theorem Codec.pathSums_succ (c : Codec) (hK : 1 ≤ c.K) (n : Nat) (soft : List Byte) {s : Nat} (hs : s < c.S) :
    c.pathSums (n + 1) soft s = (· + c.branchMetric s ((soft.drop (n * c.k)).take c.k)) ''
      (c.pathSums n soft (pred0 s) ∪ c.pathSums n soft (c.pred1 s)) := by
  have hstep (bits : List Bool) (b : Bool) := c.shift_eq_iff hK hs (c.finalReg_lt bits) b
  have hsum {bits : List Bool} {b : Bool} (hlen : bits.length = n) (hreg : c.finalReg (bits ++ [b]) = s) :
      c.pathMetric 0 (bits ++ [b]) soft =
        c.pathMetric 0 bits soft + c.branchMetric s ((soft.drop (n * c.k)).take c.k) := by
    rw [c.pathMetric_snoc, hlen]
    exact congrArg (fun r => _ + c.branchMetric r _) hreg
  ext m
  constructor
  · rintro ⟨bits, hlen, hreg, rfl⟩
    obtain rfl | ⟨bits, b, rfl⟩ := bits.eq_nil_or_concat'
    · cases hlen
    have hlen : bits.length = n := by simpa using hlen
    refine ⟨_, ?_, (hsum hlen hreg).symm⟩
    obtain ⟨-, hpred | hpred⟩ := (hstep bits b).1 (c.finalReg_snoc bits b ▸ hreg)
    · exact .inl ⟨bits, hlen, hpred, rfl⟩
    · exact .inr ⟨bits, hlen, hpred, rfl⟩
  · have hextend {bits : List Bool} (hlen : bits.length = n)
        (hpred : c.finalReg bits = pred0 s ∨ c.finalReg bits = c.pred1 s) :
        c.pathMetric 0 bits soft + c.branchMetric s ((soft.drop (n * c.k)).take c.k) ∈
          c.pathSums (n + 1) soft s := by
      have hreg : c.finalReg (bits ++ [s.testBit 0]) = s :=
        (c.finalReg_snoc _ _).trans ((hstep bits _).2 ⟨rfl, hpred⟩)
      exact ⟨bits ++ [s.testBit 0], by simp [hlen], hreg, hsum hlen hreg⟩
    rintro ⟨_, ⟨bits, hlen, hpred, rfl⟩ | ⟨bits, hlen, hpred, rfl⟩, rfl⟩
    · exact hextend hlen (.inl hpred)
    · exact hextend hlen (.inr hpred)

/-- One more column: the ACS of the group's soft values at every state. -/
theorem Codec.metricAt_forward_succ (c : Codec) (n : Nat) (pm : List Metric) (soft : List Byte) {s : Nat}
    (hs : s < c.S) :
    metricAt (c.forward (n + 1) pm soft).1 s =
      (c.acsState (metricAt (c.forward n pm soft).1) ((soft.drop (n * c.k)).take c.k) s).1 := by
  rw [c.forward_succ, c.metricAt_acsStep _ _ hs]

/-- Column `n` holds the least sums of the `n`-bit paths: the ACS step is the recursion of `pathSums` (R178). -/
theorem Codec.isLeastMetric_forward (c : Codec) (hK : 1 ≤ c.K) (n : Nat) (soft : List Byte) {s : Nat} (hs : s < c.S) :
    IsLeastMetric (c.pathSums n soft s) (metricAt (c.forward n c.column0 soft).1 s) := by
  induction n generalizing s with
  | zero =>
    rw [Codec.forward, c.metricAt_column0, c.pathSums_zero]
    split
    · exact isLeast_singleton
    · exact rfl
  | succ n ih =>
    rw [c.metricAt_forward_succ n _ _ hs, c.acsState_eq, c.pathSums_succ hK n soft hs]
    exact ((ih (c.pred0_lt hs)).select (ih (c.pred1_lt hK hs))).add _

/-- Settles O35: the least of a column's path sums, finite or `INF`. -/
theorem pathMetricIsTheLeastOverInputSequences : Obligations.PathMetricIsTheLeastOverInputSequences := by
  intro c n soft hK s hs
  have h := c.isLeastMetric_forward hK n soft hs
  exact ⟨fun m => (h.eq_fin_iff m).trans (c.isLeast_pathSums_iff n soft s m),
    h.eq_inf_iff.trans (c.pathSums_eq_empty_iff n soft s)⟩

/-- A path of `n` steps adds up at most `255 * k` a step. -/
theorem Codec.pathMetric_le (c : Codec) (r : Nat) (bits : List Bool) (soft : List Byte) :
    c.pathMetric r bits soft ≤ 255 * c.k * bits.length := by
  induction bits generalizing r soft with
  | nil => exact Nat.zero_le _
  | cons b bs ih =>
    have hstep := c.branchMetric_le (c.shift r b) (soft.take c.k)
    have hrest := ih (c.shift r b) (soft.drop c.k)
    rw [Codec.pathMetric, List.length_cons, Nat.mul_add_one]
    omega

/-- A state can be reached in `n + 1` steps exactly when one of its predecessors can in `n` (R176). -/
theorem Codec.lt_two_pow_min_succ_iff (c : Codec) (hK : 1 ≤ c.K) (n : Nat) {s : Nat} (hs : s < c.S) :
    s < 2 ^ min (n + 1) c.K ↔ pred0 s < 2 ^ min n c.K ∨ c.pred1 s < 2 ^ min n c.K := by
  have hlt := c.pred0_lt_pred1 hK hs
  rcases Nat.lt_or_ge n c.K with hn | hn
  · have hhigh : 2 ^ n ≤ 2 ^ (c.K - 1) := Nat.pow_le_pow_right (by omega) (by omega)
    have hpred1 : c.pred1 s = s / 2 + 2 ^ (c.K - 1) := c.pred1_eq hK hs
    rw [Nat.min_eq_left hn, Nat.min_eq_left hn.le, pred0_eq, pow_succ]
    omega
  · rw [Nat.min_eq_right hn, Nat.min_eq_right (by omega)]
    exact iff_of_true hs (.inl (c.pred0_lt hs))

/-- Column `n` is finite exactly at the states whose bits from position `n` up are zero (R176). -/
theorem Codec.forward_ne_inf_iff (c : Codec) (hK : 1 ≤ c.K) (n : Nat) (soft : List Byte) {s : Nat} (hs : s < c.S) :
    metricAt (c.forward n c.column0 soft).1 s ≠ .inf ↔ s < 2 ^ min n c.K := by
  induction n generalizing s with
  | zero =>
    rw [Codec.forward, c.metricAt_column0, Nat.zero_min, pow_zero, Nat.lt_one_iff]
    split
    · exact iff_of_true nofun ‹_›
    · exact iff_of_false (not_not_intro rfl) ‹_›
  | succ n ih =>
    rw [c.metricAt_forward_succ n _ _ hs, c.acsState_fst_ne_inf, ih (c.pred0_lt hs), ih (c.pred1_lt hK hs),
      c.lt_two_pow_min_succ_iff hK n hs]

/-- A finite metric of column `n` is the sum of a path of `n` steps, so at most `255 * k * n` (R177). -/
theorem Codec.forward_le (c : Codec) (hK : 1 ≤ c.K) (n : Nat) (soft : List Byte) {s m : Nat} (hs : s < c.S)
    (hm : metricAt (c.forward n c.column0 soft).1 s = .fin m) : m ≤ 255 * c.k * n := by
  obtain ⟨bits, rfl, -, rfl⟩ := (((c.isLeastMetric_forward hK n soft hs).eq_fin_iff m).1 hm).1
  exact c.pathMetric_le 0 bits soft

/-- A number below the all-ones word keeps its value in a word of `PMW` bits, and is not taken for `INF` (R38). -/
theorem ofWord_toWord_fin {pmw m : Nat} (h : m < 2 ^ pmw - 1) :
    Metric.ofWord pmw (Metric.toWord pmw (.fin m)) = .fin m := by
  have hval : (BitVec.ofNat pmw m).toNat = m := by
    rw [BitVec.toNat_ofNat, Nat.mod_eq_of_lt (by omega)]
  have hne : BitVec.ofNat pmw m ≠ BitVec.allOnes pmw := fun heq => by
    have htoNat := congrArg BitVec.toNat heq
    rw [hval, BitVec.toNat_allOnes] at htoNat
    omega
  rw [Metric.toWord, Metric.ofWord, if_neg hne, hval]

/-- Settles O34: where a column is finite, and its bound against the capacity of a `PM` word. -/
theorem columnIsFiniteWhereReachableAndBounded : Obligations.ColumnIsFiniteWhereReachableAndBounded := by
  intro c n soft hK s hs
  refine ⟨c.forward_ne_inf_iff hK n soft hs, fun m hm => ?_⟩
  have hle := c.forward_le hK n soft hs hm
  refine ⟨hle, ?_⟩
  rintro p ⟨-, -, -, hcapacity, -⟩ hk hn
  have hmax : m ≤ 4080 * p.nMax := hle.trans (Nat.mul_le_mul (Nat.mul_le_mul_left 255 hk) hn)
  exact ⟨hmax, ofWord_toWord_fin (hmax.trans_lt hcapacity)⟩

end Sys2Proof.Machine
end

section
/-! PROOFS. The statements of 43_traceback.md: the final state (R191), the states of the path and the bits they decode
to (R192 to R195, R197), and `DEND` (R190). -/

namespace Sys2Proof.Machine

open Sys2Proof

/-! ### The states of the path (R192 to R195) -/

/-- The state of the path at column `n` of the decision columns `cols`, oldest first, when its last state is `f`. -/
def Codec.pathState (c : Codec) (cols : List (List Bool)) (f n : Nat) : Nat :=
  c.walkEnd (cols.reverse.take (cols.length - n)) f

@[simp] theorem Codec.pathState_length (c : Codec) (cols : List (List Bool)) (f : Nat) :
    c.pathState cols f cols.length = f := by
  rw [Codec.pathState, Nat.sub_self, List.take_zero, Codec.walkEnd]

@[simp] theorem Codec.pathState_zero (c : Codec) (cols : List (List Bool)) (f : Nat) :
    c.pathState cols f 0 = c.walkEnd cols.reverse f := by
  rw [Codec.pathState, Nat.sub_zero, ← List.length_reverse, List.take_length]

theorem Codec.pathState_lt (c : Codec) (hK : 1 ≤ c.K) (cols : List (List Bool)) {f : Nat} (hf : f < c.S) (n : Nat) :
    c.pathState cols f n < c.S :=
  c.walkEnd_lt hK _ f hf

/-- A column at the old end only moves the path on by one column. -/
@[simp] theorem Codec.pathState_cons_succ (c : Codec) (col : List Bool) (cols : List (List Bool)) (f n : Nat) :
    c.pathState (col :: cols) f (n + 1) = c.pathState cols f n := by
  rw [Codec.pathState, List.reverse_cons, List.length_cons, Nat.add_sub_add_right,
    List.take_append_of_le_length (by rw [List.length_reverse]; exact Nat.sub_le _ _), Codec.pathState]

/-- From column to column the path goes to the predecessor that the decision names (R192). -/
theorem Codec.pathState_eq_predOf (c : Codec) (cols : List (List Bool)) (f : Nat) {n : Nat} (hn : n < cols.length) :
    c.pathState cols f n =
      c.predOf (c.pathState cols f (n + 1)) ((cols[n]?.getD [])[c.pathState cols f (n + 1)]?.getD false) := by
  induction cols generalizing n with
  | nil => exact absurd hn (Nat.not_lt_zero n)
  | cons col cols ih =>
    cases n with
    | zero =>
      rw [c.pathState_zero, c.pathState_cons_succ, c.pathState_zero, List.reverse_cons, (c.traceback_append _ _ _ []).2,
        List.getElem?_cons_zero, Option.getD_some]
    | succ n =>
      rw [c.pathState_cons_succ, c.pathState_cons_succ, List.getElem?_cons_succ]
      exact ih (Nat.lt_of_succ_lt_succ hn)

/-- The decoded bits are bit 0 of the states, in forward order (R193, R194). -/
theorem Codec.traceback_eq_map_pathState (c : Codec) (cols : List (List Bool)) (f : Nat) :
    c.traceback cols.reverse f [] = (List.range cols.length).map fun n => (c.pathState cols f (n + 1)).testBit 0 := by
  induction cols with
  | nil => rfl
  | cons col cols ih =>
    rw [List.reverse_cons, (c.traceback_append _ _ _ _).1, ih, List.length_cons, List.range_succ_eq_map, List.map_cons,
      List.map_map, c.pathState_cons_succ, c.pathState_zero]
    simp only [Function.comp_def, c.pathState_cons_succ, Nat.succ_eq_add_one]

/-- Within `K` columns each step back only shifts the state right, so its bits move down one place a column. -/
theorem Codec.testBit_pathState (c : Codec) (hK : 1 ≤ c.K) (cols : List (List Bool)) {f : Nat} (hf : f < c.S)
    {n i j : Nat} (hn : n + j ≤ cols.length) (hij : i + j < c.K) :
    (c.pathState cols f n).testBit i = (c.pathState cols f (n + j)).testBit (i + j) := by
  induction j generalizing n i with
  | zero => rfl
  | succ j ih =>
    have hlow : i ≠ c.K - 1 := by omega
    rw [c.pathState_eq_predOf cols f (by omega), c.testBit_predOf hK _ (c.pathState_lt hK cols hf _) _ i (by omega),
      if_neg hlow, ih (by omega) (by omega), Nat.add_right_comm n, Nat.add_right_comm i]
    rfl

/-- The bit of step `n` is a bit of the final state when fewer than `K` steps follow it (R195). -/
theorem Codec.testBit_pathState_of_late (c : Codec) (hK : 1 ≤ c.K) (cols : List (List Bool)) {f : Nat} (hf : f < c.S)
    {n : Nat} (hn : n ≤ cols.length) (hlate : cols.length - n < c.K) :
    (c.pathState cols f n).testBit 0 = f.testBit (cols.length - n) := by
  have h := c.testBit_pathState hK cols hf (n := n) (i := 0) (j := cols.length - n) (by omega) (by omega)
  rwa [Nat.add_sub_cancel' hn, c.pathState_length, Nat.zero_add] at h

/-- `K` columns back from column `n + 1`, bit 0 of the state is the decision of that column (R195). -/
theorem Codec.testBit_pathState_of_early (c : Codec) (hK : 1 ≤ c.K) (cols : List (List Bool)) {f : Nat} (hf : f < c.S)
    {n : Nat} (hKn : c.K ≤ n + 1) (hn : n < cols.length) :
    (c.pathState cols f (n + 1 - c.K)).testBit 0 =
      (cols[n]?.getD [])[c.pathState cols f (n + 1)]?.getD false := by
  have h := c.testBit_pathState hK cols hf (n := n + 1 - c.K) (i := 0) (j := c.K - 1) (by omega) (by omega)
  rw [show n + 1 - c.K + (c.K - 1) = n by omega, Nat.zero_add, c.pathState_eq_predOf cols f hn,
    c.testBit_predOf hK _ (c.pathState_lt hK cols hf _) _ _ (by omega), if_pos rfl] at h
  exact h

theorem Codec.getElem?_traceback (c : Codec) (cols : List (List Bool)) (f : Nat) {n : Nat} (hn : n < cols.length) :
    (c.traceback cols.reverse f [])[n]? = some ((c.pathState cols f (n + 1)).testBit 0) := by
  rw [c.traceback_eq_map_pathState, List.getElem?_map, List.getElem?_range hn, Option.map_some]

/-- Settles O38: the bit of a step is bit 0 of its state, which later steps have shifted down from the final state or
from the decision that put it on top. -/
theorem decodedBitsAreFinalStateBitsThenDecisions : Obligations.DecodedBitsAreFinalStateBitsThenDecisions := by
  intro c cols f hK hf
  refine ⟨by rw [c.length_traceback, List.length_reverse, List.length_nil, Nat.add_zero], fun j hjK hj => ?_,
    fun n hKn hn => ?_⟩
  · have hlast : cols.length - (cols.length - 1 - j + 1) = j := by omega
    rw [c.getElem?_traceback cols f (by omega), c.testBit_pathState_of_late hK cols hf (by omega) (by omega), hlast]
  · have hbit := c.testBit_pathState_of_early hK cols hf (n := n - 1) (by omega) (by omega)
    rw [show n - 1 + 1 = n by omega] at hbit
    rw [c.getElem?_traceback cols f (by omega), show n - c.K - 1 + 1 = n - c.K by omega, hbit, Codec.pathState]

/-! ### A hint that names an unreachable state (R197) -/

/-- In the first `K` columns the upper predecessor is infeasible, so every decision is 0 (R176, R173). -/
theorem Codec.acsState_snd_of_lt (c : Codec) (hK : 1 ≤ c.K) {n : Nat} (hn : n < c.K) (soft obs : List Byte) {s : Nat}
    (hs : s < c.S) : (c.acsState (metricAt (c.forward n c.column0 soft).1) obs s).2 = false := by
  have hhigh : ¬ c.pred1 s < 2 ^ min n c.K := by
    have hpow : 2 ^ n ≤ 2 ^ (c.K - 1) := Nat.pow_le_pow_right (by omega) (by omega)
    rw [c.pred1_eq hK hs, Nat.min_eq_left hn.le]
    omega
  have hinf : metricAt (c.forward n c.column0 soft).1 (c.pred1 s) = .inf :=
    not_not.1 (mt (c.forward_ne_inf_iff hK n soft (c.pred1_lt hK hs)).1 hhigh)
  rw [c.acsState_eq, hinf, lt_inf]

/-- The walk over at most the first `K` columns shifts the state right. -/
theorem Codec.walkEnd_forward (c : Codec) (hK : 1 ≤ c.K) {n : Nat} (hn : n ≤ c.K) (soft : List Byte) {s : Nat}
    (hs : s < c.S) : c.walkEnd (c.forward n c.column0 soft).2.reverse s = s >>> n := by
  induction n generalizing s with
  | zero => rfl
  | succ n ih =>
    rw [c.forward_succ, List.reverse_concat, Codec.walkEnd, c.getElem?_acsStep _ _ hs, Option.getD_some,
      c.acsState_snd_of_lt hK hn soft _ hs, c.predOf_false hK, ih (Nat.le_of_succ_le hn) (c.pred0_lt hs), pred0,
      ← Nat.shiftRight_add, Nat.add_comm]

/-- An infeasible state of the last column has a bit at or above `N`, and `N < K` (R176). -/
theorem Codec.steps_lt_of_unreachable (c : Codec) (hK : 1 ≤ c.K) (soft : List Byte) {s : Nat} (hs : s < c.S)
    (hinf : metricAt (c.lastColumn soft) s = .inf) : c.steps soft < c.K ∧ 2 ^ c.steps soft ≤ s := by
  have hhigh : ¬ s < 2 ^ min (c.steps soft) c.K := fun h =>
    (c.forward_ne_inf_iff hK (c.steps soft) soft hs).2 h hinf
  have hlt : c.steps soft < c.K := by
    by_contra hge
    rw [Nat.min_eq_right (not_lt.1 hge)] at hhigh
    exact hhigh hs
  rw [Nat.min_eq_left hlt.le] at hhigh
  exact ⟨hlt, not_lt.1 hhigh⟩

/-- A call that passes the checks of `decode` answers with its bits (R222). -/
theorem Codec.decode_of_accepted (c : Codec) {p : Params} {soft : List Byte} {hint : Option (List Bool)}
    (hdiv : soft.length % c.k = 0) (hhint : c.hintWrong hint = false) (hmax : c.steps soft ≤ p.nMax)
    (hnode : c.steps soft * c.S ≤ p.nodeMax) : c.decode p soft hint = .ok (c.decodeBits soft hint) := by
  have hinput : ¬(soft.length % c.k ≠ 0 ∨ c.hintWrong hint = true) := by simp [hdiv, hhint]
  have hcapacity : ¬(p.nMax < c.steps soft ∨ p.nodeMax < c.steps soft * c.S) := by omega
  rw [Codec.decode, if_neg hinput, if_neg hcapacity]

/-- In fewer than `K` steps the decoded bits are the low bits of the final state (R195, R197). -/
theorem Codec.traceback_of_length_lt (c : Codec) (hK : 1 ≤ c.K) (cols : List (List Bool)) {f : Nat} (hf : f < c.S)
    (hlt : cols.length < c.K) :
    c.traceback cols.reverse f [] = (List.range cols.length).map fun j => f.testBit (cols.length - 1 - j) := by
  rw [c.traceback_eq_map_pathState]
  refine List.map_congr_left fun j hj => ?_
  have hj := List.mem_range.1 hj
  rw [c.testBit_pathState_of_late hK cols hf (by omega) (by omega), Nat.sub_add_eq, Nat.sub_right_comm]

/-- Settles O39: the hint has a bit at or above `N`, and the walk shifts it right `N` times. -/
theorem unreachableHintDecodesToItsLowBits : Obligations.UnreachableHintDecodesToItsLowBits := by
  intro p c soft h hK _ hlen hdiv hmax hnode hinf
  have hs : hintValue h < c.S := by
    rw [Codec.S, ← hlen]
    exact hintValue_lt h
  obtain ⟨hlt, hhigh⟩ := c.steps_lt_of_unreachable hK soft hs hinf
  have hcols : (c.decisions soft).length = c.steps soft := c.length_forward_snd _ _ _
  have hhint : c.hintWrong (some h) = false := by simp [Codec.hintWrong, hlen]
  refine ⟨hlt, rfl, ?_, c.walkEnd_forward hK hlt.le soft hs, ?_⟩
  · rw [c.decode_of_accepted hdiv hhint hmax hnode, Codec.decodeBits, Codec.finalOf,
      c.traceback_of_length_lt hK _ hs (hcols ▸ hlt), hcols]
  · rw [Nat.shiftRight_eq_div_pow]
    exact (Nat.div_pos hhigh (Nat.two_pow_pos _)).ne'

/-! ### The final state of an open call (R191) -/

theorem finalState_of_hint {s : State} (hhint : s.dec.hintEn = true) (u : Unspec) :
    finalState u s = s.dec.fState.toNat :=
  if_pos hhint

/-- Without a hint the scan reads the written column only. -/
theorem InCall.finalState_of_no_hint {s : State} (h : InCall s) (hhint : s.dec.hintEn = false) (u : Unspec) :
    finalState u s = s.cfg.codec.leastState (metricAt s.dec.pm) := by
  rw [finalState, if_neg (by rw [hhint]; decide)]
  exact s.cfg.codec.leastState_congr _ _ fun x hx => s.dec.readPm_eq u x (h.pm_length ▸ hx)

/-- State 0 is feasible in every column of an open call (R176). -/
theorem metricAt_zero_ne_inf {s : State} (hs : Invariant s) (hrun : s.dec.decSt = .run) :
    metricAt s.dec.pm 0 ≠ .inf := by
  obtain ⟨-, -, -, -, ⟨-, hdec⟩, -, -⟩ := hs
  obtain ⟨-, -, -, -, -, ⟨-, hcol⟩, -⟩ := hdec hrun
  exact (hcol 0 (Nat.two_pow_pos _)).1.2 (Nat.two_pow_pos _)

/-- A metric that no finite metric is below is finite. -/
theorem ne_inf_of_not_lt {a b : Metric} (ha : a ≠ .inf) (hab : a.lt b = false) : b ≠ .inf := by
  rintro rfl
  cases a with
  | fin m => exact absurd hab (by rw [lt_fin_inf]; decide)
  | inf => exact ha rfl

/-- Settles O37: the scan finds the first state of least metric, and state 0 shows that this metric is finite. -/
theorem finalStateIsTheLowestOfLeastMetric : Obligations.FinalStateIsTheLowestOfLeastMetric := by
  intro u s hs hrun
  have h := InCall.of_invariant hs (by rw [hrun]; decide)
  refine ⟨fun hhint => finalState_of_hint hhint u, fun hhint => ?_⟩
  rw [h.finalState_of_no_hint hhint u]
  obtain ⟨hlt, hleast, hfirst⟩ := s.cfg.codec.leastState_spec (metricAt s.dec.pm)
  exact ⟨hlt, ne_inf_of_not_lt (metricAt_zero_ne_inf hs hrun) (hleast 0 (Nat.two_pow_pos _)), hleast, hfirst⟩

/-! ### `DEND` (R190) -/

theorem formatZ_dend : FormatZ 0xB .dend := formatZ_of fun w hw => by simp only [decode, decode_of_op hw]

/-- Column `c` of `SURV`, as far as it has been written. -/
def Decoder.survCol (d : Decoder) (c : Nat) : List Bool := (Memory.read? d.surv c).getD []

/-- Columns 1 to `n` of `SURV`, oldest first. -/
def Decoder.survCols (d : Decoder) (n : Nat) : List (List Bool) := (List.range n).map fun c => d.survCol (c + 1)

@[simp] theorem Decoder.length_survCols (d : Decoder) (n : Nat) : (d.survCols n).length = n := by
  rw [Decoder.survCols, List.length_map, List.length_range]

theorem Decoder.getElem?_survCols (d : Decoder) {n c : Nat} (hc : c < n) :
    (d.survCols n)[c]? = some (d.survCol (c + 1)) := by
  rw [Decoder.survCols, List.getElem?_map, List.getElem?_range hc, Option.map_some]

/-- The newest column comes first in the walk. -/
theorem Decoder.reverse_survCols_succ (d : Decoder) (n : Nat) :
    (d.survCols (n + 1)).reverse = d.survCol (n + 1) :: (d.survCols n).reverse := by
  simp only [Decoder.survCols, List.range_succ, List.map_append, List.map_singleton, List.reverse_concat]

/-- In the completed columns of a call every decision has been written (item 4 of R45). -/
theorem InCall.surv_bit {s : State} (h : InCall s) {c x : Nat} (hc : c < s.dec.C) (hx : x < s.cfg.codec.S) :
    ((Memory.read? s.dec.surv (c + 1)).bind fun col => col[x]?) =
      some ((s.dec.survCol (c + 1))[x]?.getD false) := by
  obtain ⟨col, hcol, hlen⟩ := Option.map_eq_some_iff.1 (h.surv c hc)
  have hx : x < col.length := hlen ▸ hx
  simp only [Decoder.survCol, hcol, Option.bind_some, Option.getD_some, List.getElem?_eq_getElem hx]

theorem InCall.readSurv_eq {s : State} (h : InCall s) (u : Unspec) {c x : Nat} (hc : c < s.dec.C)
    (hx : x < s.cfg.codec.S) : s.dec.readSurv u (c + 1) x = (s.dec.survCol (c + 1))[x]?.getD false := by
  rw [Decoder.readSurv, h.surv_bit hc hx, Option.getD_some]

/-- Every state fits in the register `TB_S` (R8, item 2 of R45). -/
theorem codec_S_le {s : State} (hs : Invariant s) : s.cfg.codec.S ≤ 2 ^ 28 := by
  obtain ⟨⟨-, hkMax, -⟩, ⟨hvalid, hinvalid⟩, -⟩ := hs
  refine Nat.pow_le_pow_right (by omega) ?_
  cases hv : s.cfg.cfgValid with
  | true =>
    obtain ⟨-, -, -, -, -, -, hK, -⟩ := hvalid hv
    exact hK.trans hkMax
  | false =>
    rw [hinvalid hv]
    exact Nat.zero_le _

/-- The bits read so far stay behind those the walk still reads. -/
theorem Codec.traceback_out (c : Codec) (cols : List (List Bool)) (f : Nat) (out : List Bool) :
    c.traceback cols f out = c.traceback cols f [] ++ out := by
  induction cols generalizing f out with
  | nil => rfl
  | cons col cols ih => rw [Codec.traceback, Codec.traceback, ih, ih _ [_], List.append_assoc, List.singleton_append]

/-- One turn of the walk takes `TB_S` to the predecessor that the written decision names (R192). -/
theorem InCall.toNat_walkStep_tbS {s : State} (h : InCall s) (hS : s.cfg.codec.S ≤ 2 ^ 28) (u : Unspec) {c : Nat}
    (hc : c < s.dec.C) {t : Traceback} (ht : t.tbS.toNat < s.cfg.codec.S) :
    (walkStep u s (c + 1) t).tbS.toNat =
      s.cfg.codec.predOf t.tbS.toNat ((s.dec.survCol (c + 1))[t.tbS.toNat]?.getD false) := by
  rw [walkStep, h.readSurv_eq u hc ht]
  exact Nat.mod_eq_of_lt ((s.cfg.codec.predOf_lt h.K_pos ht _).trans_le hS)

/-- The walk of the traceback unit leaves in `TBBUF` the bits that `Codec.traceback` reads off the written columns. -/
theorem InCall.map_readBuf_walkFrom {s : State} (h : InCall s) (hS : s.cfg.codec.S ≤ 2 ^ 28) (u : Unspec) {n : Nat}
    (hn : n ≤ s.dec.C) (t : Traceback) (ht : t.tbS.toNat < s.cfg.codec.S) :
    ((List.range n).map fun c => (walkFrom u s n t).readBuf u (c + 1)) =
      s.cfg.codec.traceback (s.dec.survCols n).reverse t.tbS.toNat [] := by
  induction n generalizing t with
  | zero => rfl
  | succ n ih =>
    have hnext := h.toNat_walkStep_tbS hS u hn ht
    have hlast : (walkFrom u s n (walkStep u s (n + 1) t)).readBuf u (n + 1) = t.tbS.toNat.testBit 0 := by
      rw [Traceback.readBuf, walkFrom_read u s n _ _ (Nat.lt_succ_self n), walkStep, Memory.read?_write_same,
        Option.getD_some, BitVec.getLsbD]
    rw [walkFrom, List.range_succ, List.map_append, List.map_singleton, hlast,
      ih (Nat.le_of_succ_le hn) _ (hnext ▸ s.cfg.codec.predOf_lt h.K_pos ht _), hnext, s.dec.reverse_survCols_succ,
      Codec.traceback, Codec.traceback_out _ _ _ [_]]

/-- The bits that `DEND` emits are those of the walk over the written columns (R192 to R194). -/
theorem InCall.decodedBits_eq_traceback {s : State} (h : InCall s) (hS : s.cfg.codec.S ≤ 2 ^ 28)
    (hC : s.dec.C = s.dec.nReg) (u : Unspec) {f : Nat} (hf : f < s.cfg.codec.S) :
    decodedBits u s f = s.cfg.codec.traceback (s.dec.survCols s.dec.nReg).reverse f [] := by
  have htbS : (BitVec.ofNat 28 f).toNat = f := Nat.mod_eq_of_lt (hf.trans_le hS)
  have hwalk := h.map_readBuf_walkFrom hS u hC.ge { s.tb with tbS := BitVec.ofNat 28 f } (htbS.symm ▸ hf)
  rwa [htbS] at hwalk

/-- `DEND` is turned away outside a call and before the last column. -/
theorem exec_dend_of_not_complete {s : State} (h : s.dec.decSt = .idle ∨ s.dec.C ≠ s.dec.nReg) :
    exec .dend s = .next (rejectedWith 3 s) :=
  (if_pos h).trans (reject_protocol s)

/-- The state that `DEND` leaves but for its response: the bits emitted, the decoder idle and its arrays released. -/
def callClosed (bits : List Bool) (s : State) : State :=
  releaseDecoder { emitDec bits s with dec := { s.dec with decSt := .idle } }

/-- After the last column `DEND` emits the bits, answers with the final state and closes the call. -/
theorem exec_dend_of_complete {s : State} (hrun : s.dec.decSt = .run) (hC : s.dec.C = s.dec.nReg)
    (hf : finalState (unspecAt s.params s.epoch) s < 2 ^ 28) :
    exec .dend s = .next (acceptedWith (finalState (unspecAt s.params s.epoch) s)
      (callClosed (decodedBits (unspecAt s.params s.epoch) s (finalState (unspecAt s.params s.epoch) s)) s)) := by
  have hopen : ¬(s.dec.decSt = .idle ∨ s.dec.C ≠ s.dec.nReg) :=
    not_or.2 ⟨by rw [hrun]; decide, not_not_intro hC⟩
  exact (if_neg hopen).trans (respond_ok_ofNat _ hf _)

/-- Settles O36: the path is that of the written columns from the final state, and the walk reads its bits off. -/
theorem dendWalksBackAndEmitsTheBits : Obligations.DendWalksBackAndEmitsTheBits := by
  refine ⟨formatZ_dend, fun _ => exec_dend_of_not_complete, fun s hs hrun hC => ?_⟩
  have h := InCall.of_invariant hs (by rw [hrun]; decide)
  have hS := codec_S_le hs
  have hf := h.finalState_lt (unspecAt s.params s.epoch)
  set f := finalState (unspecAt s.params s.epoch) s
  set cols := s.dec.survCols s.dec.nReg with hcols
  have hlen : cols.length = s.dec.nReg := s.dec.length_survCols _
  have hlast : s.cfg.codec.pathState cols f s.dec.nReg = f := by rw [← hlen, Codec.pathState_length]
  refine ⟨_, s.cfg.codec.pathState cols f,
    fun c => (s.dec.survCol c)[s.cfg.codec.pathState cols f c]?.getD false,
    exec_dend_of_complete hrun hC (hf.trans_le hS), ?_, ?_, ?_, ?_, ?_, hlast.symm ▸ hf.trans_le hS,
    rfl, rfl, rfl, rfl, rfl, rfl, rfl, rfl, rfl, rfl, rfl⟩
  · exact fun hhint => hlast.trans (finalState_of_hint hhint _)
  · exact fun hhint => hlast.trans (h.finalState_of_no_hint hhint _)
  · intro c hc1 hc
    obtain ⟨c, rfl⟩ := Nat.exists_eq_add_one.2 hc1
    refine ⟨h.surv_bit (by omega) (s.cfg.codec.pathState_lt h.K_pos cols hf _), ?_⟩
    have hstep := s.cfg.codec.pathState_eq_predOf cols f (n := c) (by omega)
    rwa [hcols, s.dec.getElem?_survCols hc, Option.getD_some] at hstep
  · have hbits := h.decodedBits_eq_traceback hS hC (unspecAt s.params s.epoch) hf
    rw [← hcols, s.cfg.codec.traceback_eq_map_pathState, hlen] at hbits
    exact congrArg (s.decOut ++ ·) hbits
  · rw [hlast]
    rfl

end Sys2Proof.Machine
end

section
/-! PROOFS. The statements of 44_system.md: the status word that `STAT` answers with (R210), and `SRST` as a reset event
that responds (R211). -/

namespace Sys2Proof.Machine

open Sys2Proof

/-! ### `STAT` (R210) -/

theorem formatZ_stat : FormatZ 0xC .stat := formatZ_of fun w hw => by simp only [decode, decode_of_op hw]

/-- Bit vectors put side by side, as a number. -/
theorem toNat_append_eq_add {m n : Nat} (a : BitVec m) (b : BitVec n) :
    (a ++ b).toNat = a.toNat * 2 ^ n + b.toNat := by
  rw [BitVec.toNat_append, ← Nat.shiftLeft_add_eq_or_of_lt b.isLt, Nat.shiftLeft_eq]

/-- Without a configuration its registers are at their reset values (10_state.md R45). -/
theorem cfg_eq_reset_of_invariant {s : State} (hs : Invariant s) (hv : s.cfg.cfgValid = false) :
    s.cfg = State.reset.cfg := by
  obtain ⟨-, ⟨-, hinvalid⟩, -⟩ := hs
  exact hinvalid hv

/-- `K` and `NPOLY` fit in the fields of five bits that the status word has for them (R8, R9). -/
theorem cfg_lt_of_invariant {s : State} (hs : Invariant s) : s.cfg.K < 2 ^ 5 ∧ s.cfg.nPoly < 2 ^ 5 := by
  cases hv : s.cfg.cfgValid with
  | true =>
    obtain ⟨⟨-, hkMax, -⟩, ⟨hvalid, -⟩, -⟩ := hs
    obtain ⟨-, hnPoly, -, -, -, -, hK, -⟩ := hvalid hv
    omega
  | false =>
    rw [cfg_eq_reset_of_invariant hs hv]
    decide

/-- The status word as a number, each field at its place. -/
theorem toNat_statusWord {s : State} (hK : s.cfg.K < 2 ^ 5) (hnPoly : s.cfg.nPoly < 2 ^ 5) :
    (statusWord s).toNat =
      s.cfg.cfgValid.toNat + 2 * (decide (s.enc.encSt = .active)).toNat + 4 * (decide (s.dec.decSt = .run)).toNat +
        16 * s.errFlags.toNat + 256 * s.cfg.K + 8192 * s.cfg.nPoly + 262144 * s.cfg.rev.toNat := by
  simp only [statusWord, toNat_append_eq_add, BitVec.toNat_ofBool, BitVec.toNat_ofNat, Nat.mod_eq_of_lt hK,
    Nat.mod_eq_of_lt hnPoly, beq_eq_decide]
  omega

/-- Settles O41: the status word as a number, and the cleared configuration of the invariant. -/
theorem statReportsTheStatusWord : Obligations.StatReportsTheStatusWord := by
  refine ⟨formatZ_stat, fun s hs => ⟨?_, fun hv => ?_⟩⟩
  · obtain ⟨hK, hnPoly⟩ := cfg_lt_of_invariant hs
    rw [← toNat_statusWord hK hnPoly]
    exact respond_ok _ s
  · rw [cfg_eq_reset_of_invariant hs hv]
    exact ⟨rfl, rfl⟩

/-! ### `SRST` (R211) -/

theorem formatZ_srst : FormatZ 0xD .srst := formatZ_of fun w hw => by simp only [decode, decode_of_op hw]

/-- `SRST` resets the registers and answers `OK`. -/
theorem exec_srst (s : State) : exec .srst s = .next (acceptedWith 0 (resetRegs s)) := respond_ok_zero _

/-- Every register that R280 lists is at its reset value after `resetRegs`. -/
theorem registersReset_resetRegs (s : State) : RegistersReset (resetRegs s) :=
  ⟨rfl, rfl, rfl, fun i _ => readReg_zeros16 i, rfl, rfl, fun i _ => readReg_zeros16 i, rfl, rfl, rfl, rfl, rfl, rfl,
    rfl, rfl, rfl, rfl, rfl, rfl, rfl⟩

/-- Settles O42: `SRST` and the reset event both are `resetRegs`, and neither the response nor the reset input is a
register that it resets. -/
theorem srstPutsEveryRegisterToItsResetValue : Obligations.SrstPutsEveryRegisterToItsResetValue :=
  ⟨formatZ_srst, fun s =>
    ⟨_, exec_srst s, registersReset_resetRegs s, rfl, rfl, rfl, rfl, rfl, rfl, rfl⟩⟩

end Sys2Proof.Machine
end

section
/-! PROOFS. The statements of 45_call_contracts.md on interleaved calls (R232): each unit's commands read and write that
unit's part of the state only, so the commands of the other units can be left out. -/

namespace Sys2Proof.Machine

open Sys2Proof

/-! ### What the commands of a unit write -/

/-- An encoder command writes the encoder, `ENC_OUT`, the flags and the responses only. -/
theorem exec_encoder_writes {i : Instr} (hi : isEncoder i = true) (s : State) : ∃ e out flags rsp,
    exec i s = .next { s with enc := e, encOut := out, errFlags := flags, rsp := rsp } := by
  cases i with
  | estart | ebit b | eend =>
    simp only [exec, execEstart, execEbit, execEend]
    split
    · exact ⟨_, _, _, _, rfl⟩
    · exact ⟨_, _, _, _, rfl⟩
  | _ => cases hi

/-- A decoder command writes the decoder, the traceback unit, `DEC_OUT`, the flags, the responses and the epoch only. -/
theorem exec_decoder_writes {i : Instr} (hi : isDecoder i = true) (s : State) : ∃ d t out flags rsp n,
    exec i s = .next { s with dec := d, tb := t, decOut := out, errFlags := flags, rsp := rsp, epoch := n } := by
  cases i with
  | dhbit b | dstart h l | dsoft o | dend =>
    simp only [exec, execDhbit, execDstart, execDsoft, dsoftWith, execDend, dendWith]
    repeat' split
    all_goals exact ⟨_, _, _, _, _, _, rfl⟩
  | _ => cases hi

/-! ### The part of the state a unit's commands read and write -/

/-- The part of the state that the encoder commands read and write. -/
def encoderView (s : State) : ActiveConfig × Encoder × List Bool := (s.cfg, s.enc, s.encOut)

/-- The part of the state that the decoder commands read and write. -/
def decoderView (s : State) : Params × ActiveConfig × Decoder × Traceback × Nat × List Bool :=
  (s.params, s.cfg, s.dec, s.tb, s.epoch, s.decOut)

/-- Both outcomes are next states, and the view is the same in both. -/
def SameView {α : Type} (view : State → α) (o o' : Host.Outcome State Fault Refusal) : Prop :=
  ∃ t t', o = .next t ∧ o' = .next t' ∧ view t = view t'

theorem sameView_next {α : Type} {view : State → α} {t t' : State} (h : view t = view t') :
    SameView view (.next t) (.next t') := ⟨t, t', rfl, rfl, h⟩

theorem sameView_ite {α : Type} {view : State → α} {p : Prop} [Decidable p]
    {a a' b b' : Host.Outcome State Fault Refusal}
    (ha : SameView view a a') (hb : SameView view b b') :
    SameView view (if p then a else b) (if p then a' else b') := by
  split
  · exact ha
  · exact hb

/-- An encoder command does the same to the encoder's view in any two states with the same view. -/
theorem sameView_encoder {i : Instr} (hi : isEncoder i = true) {s s' : State} (h : encoderView s = encoderView s') :
    SameView encoderView (exec i s) (exec i s') := by
  cases s; cases s'; cases h
  cases i with
  | estart | ebit b | eend => exact sameView_ite (sameView_next rfl) (sameView_next rfl)
  | _ => cases hi

/-- A staging command does the same to the staging registers in any two states with the same ones. -/
theorem sameView_staging {i : Instr} (hi : isStaging i = true) {s s' : State} (h : s.stg = s'.stg) :
    SameView State.stg (exec i s) (exec i s') := by
  cases s; cases s'; cases h
  cases i with
  | cclr | crev b => exact sameView_next rfl
  | cpoly p => exact sameView_ite (sameView_next rfl) (sameView_next rfl)
  | _ => cases hi

/-- The walk reads the configuration and the decoder only. -/
theorem walkFrom_congr (u : Unspec) {s s' : State} (hcfg : s.cfg = s'.cfg) (hdec : s.dec = s'.dec) (n : Nat)
    (t : Traceback) : walkFrom u s n t = walkFrom u s' n t := by
  induction n generalizing t with
  | zero => rfl
  | succ n ih => rw [walkFrom, walkFrom, ih, walkStep, walkStep, hcfg, hdec]

theorem decodedBits_congr (u : Unspec) {s s' : State} (hcfg : s.cfg = s'.cfg) (hdec : s.dec = s'.dec)
    (htb : s.tb = s'.tb) (f : Nat) : decodedBits u s f = decodedBits u s' f := by
  rw [decodedBits, decodedBits, walked, walked, hdec, htb, walkFrom_congr u hcfg hdec]

/-- A decoder command does the same to the decoder's view in any two states with the same view. -/
theorem sameView_decoder {i : Instr} (hi : isDecoder i = true) {s s' : State} (h : decoderView s = decoderView s') :
    SameView decoderView (exec i s) (exec i s') := by
  cases s; cases s'; cases h
  cases i with
  | dhbit b => exact sameView_ite (sameView_next rfl) (sameView_next rfl)
  | dstart h l =>
    exact sameView_ite (sameView_next rfl) <| sameView_ite (sameView_next rfl) <| sameView_ite (sameView_next rfl) <|
      sameView_ite (sameView_next rfl) (sameView_next rfl)
  | dsoft o =>
    exact sameView_ite (sameView_next rfl) <| sameView_ite (sameView_next rfl) (sameView_next rfl)
  | dend =>
    refine sameView_ite (sameView_next rfl) (sameView_next ?_)
    simp only [decoderView, Prod.mk.injEq]
    exact ⟨rfl, rfl, rfl, rfl, rfl,
      congrArg₂ (· ++ ·) rfl (decodedBits_congr _ (by rfl) (by rfl) (by rfl) _)⟩
  | _ => cases hi

/-! ### Sequences of commands (R232) -/

/-- What a command other than `SRST` and `CCOMMIT` can write, by the unit it belongs to. -/
theorem exec_writes (i : Instr) (s : State) (hr : i ≠ .srst) (hc : i ≠ .ccommit) :
    (isStaging i = true ∧ ∃ g, exec i s = .next (acceptedWith 0 { s with stg := g })) ∨
    (isEncoder i = true ∧ ∃ e out flags rsp,
      exec i s = .next { s with enc := e, encOut := out, errFlags := flags, rsp := rsp }) ∨
    (isDecoder i = true ∧ ∃ d t out flags rsp n,
      exec i s = .next { s with dec := d, tb := t, decOut := out, errFlags := flags, rsp := rsp, epoch := n }) ∨
    (∃ info, exec i s = .next (acceptedWith info s)) := by
  cases i with
  | cclr | cpoly p | crev b => exact .inl ⟨rfl, exec_staging rfl s⟩
  | estart | ebit b | eend => exact .inr (.inl ⟨rfl, exec_encoder_writes rfl s⟩)
  | dhbit b | dstart h l | dsoft o | dend => exact .inr (.inr (.inl ⟨rfl, exec_decoder_writes rfl s⟩))
  | stat => exact .inr (.inr (.inr ⟨_, respond_ok _ s⟩))
  | ccommit => exact absurd rfl hc
  | srst => exact absurd rfl hr

/-- A command keeps the view of every unit but its own. -/
theorem exec_keeps_other_views {i : Instr} {s t : State} (hr : i ≠ .srst) (hc : i ≠ .ccommit) (h : exec i s = .next t) :
    (isEncoder i = false → encoderView t = encoderView s) ∧ (isDecoder i = false → decoderView t = decoderView s) ∧
      (isStaging i = false → t.stg = s.stg) := by
  obtain ⟨hunit, _, ho⟩ | ⟨hunit, _, _, _, _, ho⟩ | ⟨hunit, _, _, _, _, _, _, ho⟩ | ⟨_, ho⟩ := exec_writes i s hr hc
  all_goals obtain rfl := Host.Outcome.next.inj (ho.symm.trans h)
  · exact ⟨fun _ => rfl, fun _ => rfl, fun hother => absurd hunit (by rw [hother]; decide)⟩
  · exact ⟨fun hother => absurd hunit (by rw [hother]; decide), fun _ => rfl, fun _ => rfl⟩
  · exact ⟨fun _ => rfl, fun hother => absurd hunit (by rw [hother]; decide), fun _ => rfl⟩
  · exact ⟨fun _ => rfl, fun _ => rfl, fun _ => rfl⟩

/-- If the commands of a unit depend on its view only, and the other commands keep the view, then a sequence leaves the
view as the unit's own commands alone leave it, from any state with the same view. -/
theorem execAll_filter_view {α : Type} {view : State → α} {unit : Instr → Bool}
    (hown : ∀ {i}, unit i = true → ∀ {s s'}, view s = view s' → SameView view (exec i s) (exec i s'))
    (hother : ∀ {i s t}, unit i = false → i ≠ .srst → i ≠ .ccommit → exec i s = .next t → view t = view s)
    {is : List Instr} (his : ∀ i ∈ is, i ≠ .srst ∧ i ≠ .ccommit) {s s' t : State} (hview : view s = view s')
    (h : execAll is s = .next t) : ∃ u, execAll (is.filter unit) s' = .next u ∧ view t = view u := by
  induction is generalizing s s' with
  | nil =>
    obtain rfl := Host.Outcome.next.inj h
    exact ⟨s', rfl, hview⟩
  | cons i is ih =>
    obtain ⟨⟨hr, hc⟩, his⟩ := List.forall_mem_cons.1 his
    obtain ⟨s₁, hs₁⟩ := exec_next i s
    simp only [execAll, hs₁] at h
    cases hi : unit i with
    | true =>
      obtain ⟨t₁, s₁', ht₁, hs₁', hview⟩ := hown hi hview
      obtain rfl := Host.Outcome.next.inj (ht₁.symm.trans hs₁)
      simp only [List.filter_cons, hi, if_true, execAll, hs₁']
      exact ih his hview h
    | false =>
      rw [List.filter_cons_of_neg (by rw [hi]; decide)]
      exact ih his ((hother hi hr hc hs₁).trans hview) h

/-- No command of such a sequence writes the active configuration: the view of the unit that has no commands. -/
theorem execAll_cfg_eq {is : List Instr} (his : ∀ i ∈ is, i ≠ .srst ∧ i ≠ .ccommit) {s t : State}
    (h : execAll is s = .next t) : t.cfg = s.cfg := by
  obtain ⟨u, hu, hcfg⟩ := execAll_filter_view (view := State.cfg) (unit := fun _ => false) nofun
    (fun _ hr hc h => exec_cfg_eq h hc hr) his rfl h
  rw [List.filter_false] at hu
  exact hcfg.trans (congrArg State.cfg (Host.Outcome.next.inj hu).symm)

/-- Settles O49: the view of each unit along the sequence and along the unit's own commands. -/
theorem interleavedCallsDoNotInterfere : Obligations.InterleavedCallsDoNotInterfere := by
  refine ⟨fun is s t his h => ?_, fun s => exec_ccommit_of_open⟩
  obtain ⟨u, hu, henc⟩ := execAll_filter_view sameView_encoder
    (fun hi hr hc h => let ⟨hkeep, _, _⟩ := exec_keeps_other_views hr hc h; hkeep hi) his rfl h
  obtain ⟨v, hv, hdec⟩ := execAll_filter_view sameView_decoder
    (fun hi hr hc h => let ⟨_, hkeep, _⟩ := exec_keeps_other_views hr hc h; hkeep hi) his rfl h
  obtain ⟨w, hw, hstg⟩ := execAll_filter_view sameView_staging
    (fun hi hr hc h => let ⟨_, _, hkeep⟩ := exec_keeps_other_views hr hc h; hkeep hi) his rfl h
  simp only [encoderView, decoderView, Prod.mk.injEq] at henc hdec
  obtain ⟨-, henc, hencOut⟩ := henc
  obtain ⟨-, -, hdec, -, -, hdecOut⟩ := hdec
  exact ⟨u, v, w, hu, hv, hw, henc, hencOut, hdec, hdecOut, hstg, execAll_cfg_eq his h⟩

end Sys2Proof.Machine
end

section
/-! PROOFS. The statements of 45_call_contracts.md on streams without noise (R224, R225). A decoded sequence has the
metric of its final state (R229). Without noise that metric is 0, so the sequence has the coded stream that was sent. A
tap at bit 0, or a tap at the top bit and the true final register, leaves no other sequence with that stream. -/

namespace Sys2Proof.Machine

open Sys2Proof

/-! ### The decoded path (R192, R229) -/

/-- A finite metric is the sum of a finite metric of the predecessor that the decision names and the branch metric. -/
theorem Codec.acsState_fst_eq_fin (c : Codec) (hK : 1 ≤ c.K) {pm : Nat → Metric} {obs : List Byte} {s m : Nat}
    (h : (c.acsState pm obs s).1 = .fin m) :
    ∃ m', pm (c.predOf s (c.acsState pm obs s).2) = .fin m' ∧ m = m' + c.branchMetric s obs := by
  have hpred : (if (pm (c.pred1 s)).lt (pm (pred0 s)) then pm (c.pred1 s) else pm (pred0 s)) =
      pm (c.predOf s (c.acsState pm obs s).2) := by
    rw [c.acsState_eq, c.predOf_eq hK]
    exact (apply_ite pm _ _ _).symm
  rw [c.acsState_eq, hpred] at h
  cases hp : pm (c.predOf s (c.acsState pm obs s).2) with
  | fin m' =>
    rw [hp, add_fin, Metric.fin.injEq] at h
    exact ⟨m', rfl, h.symm⟩
  | inf =>
    rw [hp, add_inf] at h
    cases h

/-- From a state with a finite metric the walk reads off bits that drive the encoder from register 0 to that state,
and the branch metrics of their path add up to that metric. -/
theorem Codec.finalReg_traceback (c : Codec) (hK : 1 ≤ c.K) (n : Nat) (soft : List Byte) {s m : Nat}
    (h : metricAt (c.forward n c.column0 soft).1 s = .fin m) :
    c.finalReg (c.traceback (c.forward n c.column0 soft).2.reverse s []) = s ∧
      c.pathMetric 0 (c.traceback (c.forward n c.column0 soft).2.reverse s []) soft = m := by
  have hs : s < c.S := (metricAt_lt h).trans_eq (c.length_forward_fst n _ soft c.length_column0)
  induction n generalizing s m with
  | zero =>
    rw [Codec.forward, c.metricAt_column0] at h
    split at h
    · obtain rfl := Metric.fin.inj h
      exact ⟨Eq.symm ‹s = 0›, rfl⟩
    · cases h
  | succ n ih =>
    rw [c.metricAt_forward_succ n _ _ hs] at h
    obtain ⟨m', hm', rfl⟩ := c.acsState_fst_eq_fin hK h
    obtain ⟨hreg, hsum⟩ := ih hm' (c.predOf_lt hK hs _)
    rw [c.forward_succ, List.reverse_concat, Codec.traceback, c.getElem?_acsStep _ _ hs, Option.getD_some,
      c.traceback_out]
    generalize (c.acsState _ _ s).2 = d at *
    have hlen := c.length_traceback (c.forward n c.column0 soft).2.reverse (c.predOf s d) []
    rw [List.length_reverse, c.length_forward_snd, List.length_nil, Nat.add_zero] at hlen
    generalize c.traceback _ _ [] = bits at *
    have hfinal : c.finalReg (bits ++ [s.testBit 0]) = s := by
      rw [c.finalReg_snoc, hreg, c.shift_eq_iff hK hs (c.predOf_lt hK hs d), c.predOf_eq hK]
      cases d with
      | false => exact ⟨rfl, .inl rfl⟩
      | true => exact ⟨rfl, .inr rfl⟩
    refine ⟨hfinal, ?_⟩
    rw [c.pathMetric_snoc, hsum, hlen]
    exact congrArg (fun r => m' + c.branchMetric r _) hfinal

/-! ### Streams without noise (R224) -/

theorem sum_softCost_append (soft : List Byte) (xs ys : List Bool) :
    (List.zipWith softCost soft (xs ++ ys)).sum =
      (List.zipWith softCost (soft.take xs.length) xs).sum + (List.zipWith softCost (soft.drop xs.length) ys).sum := by
  induction xs generalizing soft with
  | nil => simp
  | cons x xs ih =>
    cases soft with
    | nil => simp
    | cons o soft =>
      simp only [List.cons_append, List.zipWith_cons_cons, List.sum_cons, ih, List.length_cons, List.take_succ_cons,
        List.drop_succ_cons, Nat.add_assoc]

/-- The path metric is the distance of the soft stream from the coded stream of the path. -/
theorem Codec.pathMetric_eq_sum (c : Codec) (r : Nat) (bits : List Bool) (soft : List Byte) :
    c.pathMetric r bits soft = (List.zipWith softCost soft (c.encodeFrom r bits).2).sum := by
  induction bits generalizing r soft with
  | nil => simp [Codec.pathMetric, Codec.encodeFrom]
  | cons b bs ih =>
    rw [Codec.pathMetric, Codec.branchMetric, Codec.encodeFrom, sum_softCost_append, c.length_codedBits, ih]

/-- A coded stream is at distance 0 from the soft stream of another one only when the two are equal. -/
theorem sum_softCost_noiseless_eq_zero_iff {sent coded : List Bool} (h : sent.length = coded.length) :
    (List.zipWith softCost (noiseless sent) coded).sum = 0 ↔ sent = coded := by
  induction coded generalizing sent with
  | nil => simp [List.length_eq_zero_iff.1 h, noiseless]
  | cons e coded ih =>
    cases sent with
    | nil => cases h
    | cons b sent =>
      have hterm : softCost (if b then 255 else 0) e = 0 ↔ b = e := by cases b <;> cases e <;> decide
      have hrest := ih (Nat.succ.inj h)
      simp only [noiseless] at hrest
      simp only [noiseless, List.map_cons, List.zipWith_cons_cons, List.sum_cons, Nat.add_eq_zero_iff, hterm, hrest,
        List.cons.injEq]

theorem Codec.length_encode (c : Codec) (bits : List Bool) : (c.encode bits).length = bits.length * c.k :=
  c.length_encodeFrom 0 bits

/-- Without noise a path has metric 0 exactly when it has the coded stream that was sent. -/
theorem Codec.pathMetric_noiseless_eq_zero_iff (c : Codec) {bits sent : List Bool} (h : bits.length = sent.length) :
    c.pathMetric 0 bits (noiseless (c.encode sent)) = 0 ↔ c.encode bits = c.encode sent := by
  rw [c.pathMetric_eq_sum, sum_softCost_noiseless_eq_zero_iff, eq_comm]
  · rfl
  · rw [c.length_encode, c.length_encodeFrom, h]

theorem Codec.length_noiseless_encode (c : Codec) (bits : List Bool) :
    (noiseless (c.encode bits)).length = bits.length * c.k := by
  rw [noiseless, List.length_map, c.length_encode]

theorem Codec.steps_noiseless (c : Codec) (hk : 1 ≤ c.k) (bits : List Bool) :
    c.steps (noiseless (c.encode bits)) = bits.length := by
  rw [Codec.steps, c.length_noiseless_encode, Nat.mul_div_cancel _ hk]

/-- Without noise the true final register has metric 0. -/
theorem Codec.metricAt_lastColumn_noiseless (c : Codec) (hK : 1 ≤ c.K) (hk : 1 ≤ c.k) (bits : List Bool) :
    metricAt (c.lastColumn (noiseless (c.encode bits))) (c.finalReg bits) = .fin 0 := by
  rw [Codec.lastColumn, c.steps_noiseless hk,
    (c.isLeastMetric_forward hK _ _ (c.finalReg_lt bits)).eq_fin_iff, c.isLeast_pathSums_iff]
  exact ⟨⟨bits, rfl, rfl, (c.pathMetric_noiseless_eq_zero_iff rfl).2 rfl⟩, fun _ _ _ => Nat.zero_le _⟩

/-- No metric is below 0. -/
theorem metric_not_lt_zero (m : Metric) : m.lt (.fin 0) = false := by
  cases m with
  | fin n => exact decide_eq_false (Nat.not_lt_zero n)
  | inf => exact lt_inf _

/-- Without noise and without a hint the final state has metric 0, and no state below it has. -/
theorem Codec.metricAt_leastState_noiseless (c : Codec) (hK : 1 ≤ c.K) (hk : 1 ≤ c.k) (bits : List Bool) :
    c.finalMetric (noiseless (c.encode bits)) none = .fin 0 ∧
      c.finalOf (noiseless (c.encode bits)) none ≤ c.finalReg bits := by
  have htrue := c.metricAt_lastColumn_noiseless hK hk bits
  obtain ⟨-, hleast, hfirst⟩ := c.leastState_spec (metricAt (c.lastColumn (noiseless (c.encode bits))))
  have hmetric : c.finalMetric (noiseless (c.encode bits)) none = .fin 0 :=
    metric_eq_of_not_lt (metric_not_lt_zero _) (htrue ▸ hleast _ (c.finalReg_lt bits))
  refine ⟨hmetric, not_lt.1 fun hlt => ?_⟩
  have hbelow := hfirst _ hlt
  rw [htrue, metric_not_lt_zero] at hbelow
  cases hbelow

/-- A call without noise that ends in a state of metric 0 gives the bits back, when no other bits of that length end in
that state with the same coded stream. -/
theorem Codec.decode_noiseless (c : Codec) (hK : 1 ≤ c.K) (hk : 1 ≤ c.k) {p : Params} {bits : List Bool}
    {hint : Option (List Bool)} (hmax : bits.length ≤ p.nMax) (hnode : bits.length * c.S ≤ p.nodeMax)
    (hhint : c.hintWrong hint = false) (hmetric : c.finalMetric (noiseless (c.encode bits)) hint = .fin 0)
    (hunique : ∀ bits' : List Bool, bits'.length = bits.length →
      c.finalReg bits' = c.finalOf (noiseless (c.encode bits)) hint → c.encode bits' = c.encode bits → bits' = bits) :
    c.decode p (noiseless (c.encode bits)) hint = .ok bits := by
  have hsteps := c.steps_noiseless hk bits
  have hdiv : (noiseless (c.encode bits)).length % c.k = 0 := by
    rw [c.length_noiseless_encode, Nat.mul_mod_left]
  rw [c.decode_of_accepted hdiv hhint (hsteps.trans_le hmax) (by rwa [hsteps])]
  obtain ⟨hreg, hsum⟩ := c.finalReg_traceback hK _ _ hmetric
  have hlen : (c.decodeBits (noiseless (c.encode bits)) hint).length = bits.length := by
    rw [Codec.decodeBits, c.length_traceback, List.length_reverse, Codec.decisions, c.length_forward_snd, hsteps]
    rfl
  exact congrArg _ (hunique _ hlen hreg ((c.pathMetric_noiseless_eq_zero_iff hlen).1 hsum))

/-! ### Two streams with the same coded stream -/

theorem parity_two_pow (j : Nat) : parity (2 ^ j) = true := by
  have hlow : parityBelow j (2 ^ j) = parityBelow j 0 := parityBelow_congr fun i hi => by
    rw [Nat.testBit_two_pow_of_ne (by omega), Nat.zero_testBit]
  rw [parity_eq_parityBelow (Nat.pow_lt_pow_succ (by decide)), parityBelow, Nat.testBit_two_pow_self, hlow,
    parityBelow_zero_right, Bool.xor_false]

/-- Registers that give the same coded bits and differ at most in a tapped bit are equal. -/
theorem Codec.eq_of_codedBits_eq (c : Codec) {x y j t : Nat} (ht : t ∈ c.taps) (htap : t.testBit j = true)
    (hsame : ∀ i ≠ j, x.testBit i = y.testBit i) (h : c.codedBits x = c.codedBits y) : x = y := by
  by_contra hne
  have hbit : x.testBit j ≠ y.testBit j := fun hj => hne <| Nat.eq_of_testBit_eq fun i => by
    by_cases hi : i = j
    · rw [hi, hj]
    · exact hsame i hi
  have hdiff : x ^^^ y = 2 ^ j := Nat.eq_of_testBit_eq fun i => by
    rw [Nat.testBit_xor, Nat.testBit_two_pow]
    by_cases hi : i = j
    · rw [hi, Bool.xor_iff_ne.2 hbit, decide_eq_true rfl]
    · rw [hsame i hi, Bool.xor_self, decide_eq_false (Ne.symm hi)]
  have hparity : parity (x &&& t) = parity (y &&& t) := List.map_inj_left.1 h t ht
  have hodd : parity ((x ^^^ y) &&& t) = true := by
    rw [hdiff, Nat.two_pow_and, htap, Bool.toNat_true, Nat.mul_one, parity_two_pow]
  rw [Nat.and_xor_distrib_right, parity_xor, hparity, Bool.xor_self] at hodd
  cases hodd

/-- The input bit of a step is bit 0 of the register after it. -/
theorem Codec.testBit_zero_shift (c : Codec) (hK : 1 ≤ c.K) (r : Nat) (b : Bool) : (c.shift r b).testBit 0 = b := by
  rw [c.testBit_shift, if_pos rfl, decide_eq_true (show 0 < c.K from hK), Bool.true_and]

/-- With a tap at bit 0 the coded bits of a step tell its input bit, so a coded stream tells its input. -/
theorem Codec.encodeFrom_injective_of_tap_zero (c : Codec) (hK : 1 ≤ c.K) {t : Nat} (ht : t ∈ c.taps)
    (htap : t.testBit 0 = true) {r : Nat} {xs ys : List Bool} (hlen : xs.length = ys.length)
    (h : (c.encodeFrom r xs).2 = (c.encodeFrom r ys).2) : xs = ys := by
  induction xs generalizing r ys with
  | nil => exact (List.length_eq_zero_iff.1 hlen.symm).symm
  | cons x xs ih =>
    cases ys with
    | nil => cases hlen
    | cons y ys =>
      obtain ⟨hcoded, hrest⟩ := List.append_inj h (by rw [c.length_codedBits, c.length_codedBits])
      have hshift : c.shift r x = c.shift r y := c.eq_of_codedBits_eq ht htap
        (fun i hi => by rw [c.testBit_shift, c.testBit_shift, if_neg hi, if_neg hi]) hcoded
      obtain rfl : x = y := by rw [← c.testBit_zero_shift hK r x, hshift, c.testBit_zero_shift hK]
      rw [ih (Nat.succ.inj hlen) hrest]

/-- Registers that a bit takes to the same register differ at most in the top bit. -/
theorem Codec.testBit_eq_of_shift_eq (c : Codec) {x y : Nat} (hx : x < c.S) (hy : y < c.S) {a b : Bool}
    (h : c.shift x a = c.shift y b) {i : Nat} (hi : i ≠ c.K - 1) : x.testBit i = y.testBit i := by
  rcases Nat.lt_or_ge (i + 1) c.K with hlt | hge
  · have hbit := congrArg (Nat.testBit · (i + 1)) h
    simpa [c.testBit_shift, hlt] using hbit
  · have hS : c.S ≤ 2 ^ i := Nat.pow_le_pow_right (by omega) (by omega)
    rw [Nat.testBit_lt_two_pow (hx.trans_le hS), Nat.testBit_lt_two_pow (hy.trans_le hS)]

/-- The last group of a coded stream is that of the final register. -/
theorem Codec.codedBits_finalReg_eq (c : Codec) {xs ys : List Bool} (hlen : xs.length = ys.length)
    (h : c.encode xs = c.encode ys) : c.codedBits (c.finalReg xs) = c.codedBits (c.finalReg ys) := by
  obtain rfl | ⟨xs, x, rfl⟩ := xs.eq_nil_or_concat'
  · rw [List.length_eq_zero_iff.1 hlen.symm]
  · obtain rfl | ⟨ys, y, rfl⟩ := ys.eq_nil_or_concat'
    · simp at hlen
    · rw [c.encode_snoc, c.encode_snoc] at h
      exact (List.append_inj' h (by rw [c.length_codedBits, c.length_codedBits])).2

/-- With a tap at the top bit a coded stream and the final register tell the input: from the last bit back, the coded
bits of the register before tell which of the two predecessors it is. -/
theorem Codec.encode_injective_of_tap_top (c : Codec) (hK : 1 ≤ c.K) {t : Nat} (ht : t ∈ c.taps)
    (htap : t.testBit (c.K - 1) = true) {xs ys : List Bool} (hlen : xs.length = ys.length)
    (h : c.encode xs = c.encode ys) (hreg : c.finalReg xs = c.finalReg ys) : xs = ys := by
  induction xs using List.reverseRecOn generalizing ys with
  | nil => exact (List.length_eq_zero_iff.1 hlen.symm).symm
  | append_singleton xs x ih =>
    obtain rfl | ⟨ys, y, rfl⟩ := ys.eq_nil_or_concat'
    · simp at hlen
    · have hlen : xs.length = ys.length := by simpa using hlen
      rw [c.finalReg_snoc, c.finalReg_snoc] at hreg
      rw [c.encode_snoc, c.encode_snoc] at h
      obtain ⟨hrest, -⟩ := List.append_inj' h (by rw [c.length_codedBits, c.length_codedBits])
      have hpred : c.finalReg xs = c.finalReg ys := c.eq_of_codedBits_eq ht htap
        (fun i => c.testBit_eq_of_shift_eq (c.finalReg_lt xs) (c.finalReg_lt ys) hreg)
        (c.codedBits_finalReg_eq hlen hrest)
      rw [ih hlen hrest hpred, ← c.testBit_zero_shift hK (c.finalReg xs) x, hreg, c.testBit_zero_shift hK]

/-! ### Constructed configurations (R220) -/

theorem testBit_bitlen_sub_one {x : Nat} (h : x ≠ 0) : x.testBit (bitlen x - 1) = true :=
  have hlen : bitlen x = bitlen x - 1 + 1 := (Nat.sub_add_cancel (bitlen_pos h)).symm
  Nat.testBit_of_two_pow_le_and_two_pow_add_one_gt (two_pow_le_of_bitlen hlen) (hlen ▸ lt_two_pow_bitlen x)

/-- A constructed configuration has a polynomial, and the largest one puts a tap at the top bit, or at bit 0 when the
polynomials are reversed. -/
theorem construct_ok {p : Params} {polys : List KWord} {rev : Bool} {c : Codec} (h : construct p polys rev = .ok c) :
    1 ≤ c.K ∧ 1 ≤ c.k ∧ ∃ t ∈ c.taps, t.testBit 0 = true ∨ t.testBit (c.K - 1) = true := by
  unfold construct at h
  split at h
  · cases h
  split at h
  · cases h
  obtain rfl := Except.ok.inj h
  rename_i hpolys _
  have hne : polys ≠ [] := fun he => hpolys (.inl he)
  obtain ⟨q, hq, hmax⟩ := maxPoly_mem hne
  have hpos : maxPoly polys ≠ 0 := by
    rw [← hmax]
    intro h0
    exact hpolys (.inr (.inr (BitVec.eq_of_toNat_eq (y := (0 : KWord)) h0 ▸ hq)))
  have hK : 1 ≤ bitlen (maxPoly polys) := bitlen_pos hpos
  have htop : q.toNat.testBit (bitlen (maxPoly polys) - 1) = true := hmax ▸ testBit_bitlen_sub_one (hmax ▸ hpos)
  refine ⟨hK, ?_, _, List.mem_map_of_mem hq, ?_⟩
  · rw [Codec.k, List.length_map]
    exact List.length_pos_iff.2 hne
  · cases rev with
    | false => exact .inr htop
    | true =>
      left
      rw [effectiveTap, if_pos rfl, testBit_bitrev, Nat.sub_zero, htop, Bool.and_true]
      exact decide_eq_true hK

/-- Under a constructed configuration a coded stream and the final register tell the input. -/
theorem encode_injective_of_construct {p : Params} {polys : List KWord} {rev : Bool} {c : Codec}
    (hc : construct p polys rev = .ok c) {xs ys : List Bool} (hlen : xs.length = ys.length)
    (h : c.encode xs = c.encode ys) (hreg : c.finalReg xs = c.finalReg ys) : xs = ys := by
  obtain ⟨hK, -, t, ht, htap | htap⟩ := construct_ok hc
  · exact c.encodeFrom_injective_of_tap_zero hK ht htap hlen h
  · exact c.encode_injective_of_tap_top hK ht htap hlen h hreg

/-! ### Round trips (R224, R225) -/

/-- The value of the hint that names a state is its number (20_memory.md R68). -/
theorem hintValue_hintOf (K s : Nat) : hintValue (hintOf K s) = s % 2 ^ K := by
  induction K generalizing s with
  | zero => rw [pow_zero, Nat.mod_one]; rfl
  | succ K ih =>
    have hsnoc : hintOf (K + 1) s = hintOf K (s / 2) ++ [s.testBit 0] := by
      rw [hintOf, List.range_succ, List.map_append, List.map_singleton, Nat.add_sub_cancel, Nat.sub_self, hintOf]
      congr 1
      refine List.map_congr_left fun j hj => ?_
      have hj := List.mem_range.1 hj
      rw [Nat.testBit_div_two, show K - 1 - j + 1 = K - j by omega]
    rw [hsnoc, hintValue_snoc, ih, Nat.toNat_testBit, pow_zero, Nat.div_one, pow_succ', Nat.mod_mul, Nat.add_comm]

/-- The round trip with the true final register as hint. -/
theorem decode_noiseless_trueHint {p : Params} {polys : List KWord} {rev : Bool} {c : Codec}
    (hc : construct p polys rev = .ok c) {bits : List Bool} (hmax : bits.length ≤ p.nMax)
    (hnode : bits.length * c.S ≤ p.nodeMax) :
    c.decode p (noiseless (c.encode bits)) (some (hintOf c.K (c.finalReg bits))) = .ok bits := by
  obtain ⟨hK, hk, -⟩ := construct_ok hc
  have hfinal : c.finalOf (noiseless (c.encode bits)) (some (hintOf c.K (c.finalReg bits))) = c.finalReg bits := by
    rw [Codec.finalOf, hintValue_hintOf]
    exact Nat.mod_eq_of_lt (c.finalReg_lt bits)
  refine c.decode_noiseless hK hk hmax hnode (by simp [Codec.hintWrong, hintOf]) ?_ fun bits' hlen hreg h => ?_
  · rw [Codec.finalMetric, hfinal]
    exact c.metricAt_lastColumn_noiseless hK hk bits
  · exact encode_injective_of_construct hc hlen h (hreg.trans hfinal)

/-- `K` zeros clear the register (R145). -/
theorem Codec.finalReg_flushed (c : Codec) (bits : List Bool) : c.finalReg (bits ++ List.replicate c.K false) = 0 := by
  refine Nat.eq_of_testBit_eq fun j => ?_
  rw [c.testBit_finalReg, Nat.zero_testBit]
  by_cases hj : j < c.K
  · have hlast : (bits ++ List.replicate c.K false)[bits.length + c.K - 1 - j]? = some false := by
      rw [List.getElem?_append_right (by omega), List.getElem?_replicate, if_pos (by omega)]
    rw [List.length_append, List.length_replicate, hlast, Option.getD_some, Bool.and_false]
  · rw [decide_eq_false hj, Bool.false_and, Bool.false_and]

theorem hintOf_zero (K : Nat) : hintOf K 0 = List.replicate K false := by
  simp [hintOf]

/-- Settles O55: the final register of a flushed stream is 0, the lowest state, so it is found without a hint. -/
theorem flushedStreamRoundTripsWithoutNoise : Obligations.FlushedStreamRoundTripsWithoutNoise := by
  intro p polys rev c bits hc hmax hnode
  obtain ⟨hK, hk, -⟩ := construct_ok hc
  have hflushed := c.finalReg_flushed bits
  have hlength : (bits ++ List.replicate c.K false).length = bits.length + c.K := by
    rw [List.length_append, List.length_replicate]
  generalize bits ++ List.replicate c.K false = bits at *
  rw [← hlength] at hmax hnode
  refine ⟨?_, ?_⟩
  · obtain ⟨hmetric, hle⟩ := c.metricAt_leastState_noiseless hK hk bits
    refine c.decode_noiseless hK hk hmax hnode rfl hmetric fun bits' hlen hreg h => ?_
    exact encode_injective_of_construct hc hlen h (by omega)
  · have h := decode_noiseless_trueHint hc hmax hnode
    rwa [hflushed, hintOf_zero] at h

/-- Settles O56: a tap at bit 0 leaves one input for the coded stream; the true final register leaves one for every
configuration. -/
theorem anyStreamRoundTripsWithTapZeroOrTrueHint : Obligations.AnyStreamRoundTripsWithTapZeroOrTrueHint := by
  intro p polys rev c bits hc hmax hnode
  refine ⟨?_, decode_noiseless_trueHint hc hmax hnode⟩
  rintro ⟨t, ht, htap⟩
  obtain ⟨hK, hk, -⟩ := construct_ok hc
  obtain ⟨hmetric, -⟩ := c.metricAt_leastState_noiseless hK hk bits
  exact c.decode_noiseless hK hk hmax hnode rfl hmetric fun bits' hlen _ h =>
    c.encodeFrom_injective_of_tap_zero hK ht htap hlen h

end Sys2Proof.Machine
end

section
/-! PROOFS. The statements of 60_exceptions.md: the status code that each command answers with, and so the causes of
`INVALID_CONFIGURATION` (R251), `INVALID_INPUT` (R252), `PROTOCOL` (R253) and `CAPACITY` (R254). -/

namespace Sys2Proof.Machine

open Sys2Proof

/-! ### The code of an outcome (R91, R250) -/

/-- The outcome appends to the responses of `s` one word, with the code `c` on top. -/
def AnswersCode (c : Status) (s : State) (o : Host.Outcome State Fault Refusal) : Prop :=
  ∃ t info, o = .next t ∧ t.rsp = s.rsp ++ [respWord c info]

/-- `Responds` as a statement about the outcome of the command. -/
theorem responds_iff_answersCode (i : Instr) (s : State) (c : Status) :
    Responds i s (statusCode c).toNat ↔ AnswersCode c s (exec i s) := by
  constructor
  · rintro ⟨t, info, h, hrsp, hlt⟩
    refine ⟨t, BitVec.ofNat 28 info, h, ?_⟩
    rw [hrsp, respWord_ofNat, BitVec.toNat_ofNat, Nat.mod_eq_of_lt hlt]
  · rintro ⟨t, info, h, hrsp⟩
    exact ⟨t, info.toNat, h, hrsp.trans (by rw [respWord_ofNat]), info.isLt⟩

theorem answersCode_respond {c c' : Status} {info : BitVec 28} {s t : State} (h : t.rsp = s.rsp) :
    AnswersCode c s (respond c' info t) ↔ c = c' := by
  constructor
  · rintro ⟨u, info', hu, hrsp⟩
    obtain rfl := Host.Outcome.next.inj hu
    rw [pushRsp_rsp, h, List.append_cancel_left_eq, List.singleton_inj] at hrsp
    exact (respWord_inj hrsp).1.symm
  · rintro rfl
    exact ⟨_, info, rfl, by rw [pushRsp_rsp, h]⟩

/-- A check of a command: where it fails the command answers with its code, and where it passes what follows decides. -/
theorem answersCode_check {c c' : Status} {s t : State} {p q : Prop} [Decidable p]
    {o : Host.Outcome State Fault Refusal} (h : t.rsp = s.rsp) (ho : AnswersCode c s o ↔ q) :
    AnswersCode c s (if p then reject c' t else o) ↔ if p then c = c' else q := by
  split
  · exact answersCode_respond ((raiseFlag_rsp c' t).trans h)
  · exact ho

/-! ### The code each command answers with: the first check that fails, in the order of its rule -/

/-- A staging command is always accepted. -/
theorem answersCode_staging {i : Instr} (hi : isStaging i = true) {c : Status} {s : State} :
    AnswersCode c s (exec i s) ↔ c = .ok := by
  obtain ⟨g, hg⟩ := exec_staging hi s
  rw [hg, ← respond_ok_zero]
  exact answersCode_respond rfl

theorem answersCode_stat {c : Status} {s : State} : AnswersCode c s (exec .stat s) ↔ c = .ok :=
  answersCode_respond rfl

theorem answersCode_srst {c : Status} {s : State} : AnswersCode c s (exec .srst s) ↔ c = .ok :=
  answersCode_respond (resetRegs_rsp s)

theorem answersCode_ccommit {c : Status} {s : State} : AnswersCode c s (exec .ccommit s) ↔
    if callOpen s then c = .protocol
    else if stagedInvalid s.stg then c = .invalidConfiguration
    else if s.params.kMax < bitlen (maxPoly s.stg.polys) then c = .capacity
    else c = .ok :=
  answersCode_check rfl <| answersCode_check rfl <| answersCode_check rfl <| answersCode_respond rfl

theorem answersCode_estart {c : Status} {s : State} : AnswersCode c s (exec .estart s) ↔
    if s.cfg.cfgValid = false ∨ s.enc.encSt = .active then c = .protocol else c = .ok :=
  answersCode_check rfl (answersCode_respond rfl)

theorem answersCode_ebit {c : Status} {b : Bool} {s : State} : AnswersCode c s (exec (.ebit b) s) ↔
    if s.enc.encSt = .idle then c = .protocol else c = .ok :=
  answersCode_check rfl (answersCode_respond rfl)

theorem answersCode_eend {c : Status} {s : State} : AnswersCode c s (exec .eend s) ↔
    if s.enc.encSt = .idle then c = .protocol else c = .ok :=
  answersCode_check rfl (answersCode_respond rfl)

theorem answersCode_dhbit {c : Status} {b : Bool} {s : State} : AnswersCode c s (exec (.dhbit b) s) ↔
    if s.dec.decSt = .run then c = .protocol else c = .ok :=
  answersCode_check rfl (answersCode_respond rfl)

theorem answersCode_dstart {c : Status} {h : Bool} {l : BitVec 27} {s : State} :
    AnswersCode c s (exec (.dstart h l) s) ↔
      if s.cfg.cfgValid = false ∨ s.dec.decSt = .run then c = .protocol
      else if l.toNat % s.cfg.nPoly ≠ 0 then c = .invalidInput
      else if h ∧ s.dec.hLen ≠ s.cfg.K then c = .invalidInput
      else if s.params.nMax < l.toNat / s.cfg.nPoly ∨
          s.params.nodeMax < l.toNat / s.cfg.nPoly * s.cfg.codec.S then c = .capacity
      else c = .ok :=
  answersCode_check rfl <| answersCode_check rfl <| answersCode_check rfl <| answersCode_check rfl <|
    answersCode_respond rfl

theorem answersCode_dsoft {c : Status} {o : BitVec 8} {s : State} : AnswersCode c s (exec (.dsoft o) s) ↔
    if s.dec.decSt = .idle ∨ s.dec.C = s.dec.nReg then c = .protocol else c = .ok :=
  answersCode_check rfl <| by
    split
    · exact answersCode_respond rfl
    · exact answersCode_respond rfl

theorem answersCode_dend {c : Status} {s : State} : AnswersCode c s (exec .dend s) ↔
    if s.dec.decSt = .idle ∨ s.dec.C ≠ s.dec.nReg then c = .protocol else c = .ok :=
  answersCode_check rfl (answersCode_respond rfl)

/-! ### The checks as the rules word them -/

theorem EncSt.ne_active_iff {e : EncSt} : e ≠ .active ↔ e = .idle := by cases e <;> decide

theorem DecSt.ne_run_iff {d : DecSt} : d ≠ .run ↔ d = .idle := by cases d <;> decide

theorem callOpen_eq_false_iff (s : State) : callOpen s = false ↔ s.enc.encSt = .idle ∧ s.dec.decSt = .idle := by
  rw [← Bool.not_eq_true, callOpen_iff, not_or, ← ne_eq, ← ne_eq, EncSt.ne_active_iff, DecSt.ne_run_iff]

theorem lt_bitlen_iff {n x : Nat} : n < bitlen x ↔ 2 ^ n ≤ x := by
  rw [← Nat.not_le, bitlen_le_iff, Nat.not_lt]

/-- The constraint length of a staged list is too large exactly when one of its polynomials is too wide (R125). -/
theorem lt_bitlen_maxPoly_iff (g : Staging) (n : Nat) :
    n < bitlen (maxPoly g.polys) ↔ ∃ j < g.spCount, n < bitlen (readReg g.sPoly j).toNat := by
  simp only [lt_bitlen_iff]
  constructor
  · intro h
    have hne : g.polys ≠ [] := by
      intro hnil
      rw [hnil] at h
      exact absurd (Nat.two_pow_pos n) (Nat.not_lt.2 h)
    obtain ⟨p, hp, hmax⟩ := maxPoly_mem hne
    obtain ⟨j, hj, rfl⟩ := (polys_mem g p).1 hp
    exact ⟨j, hj, hmax ▸ h⟩
  · rintro ⟨j, hj, h⟩
    exact h.trans (toNat_le_maxPoly (readReg_mem_polys hj))

/-! ### `INVALID_CONFIGURATION`, `INVALID_INPUT` and `CAPACITY` (R251, R252, R254) -/

/-- No command but `CCOMMIT` and `DSTART` has an argument check: the others answer `OK` or `PROTOCOL`. -/
theorem ok_or_protocol_of_answersCode {i : Instr} (hc : i ≠ .ccommit) (hd : ∀ h l, i ≠ .dstart h l) {c : Status}
    {s : State} (h : AnswersCode c s (exec i s)) : c = .ok ∨ c = .protocol := by
  have of_ite {p : Prop} [Decidable p] (h : if p then c = .protocol else c = .ok) : c = .ok ∨ c = .protocol := by
    split at h
    · exact .inr h
    · exact .inl h
  cases i with
  | ccommit => exact absurd rfl hc
  | dstart hint l => exact absurd rfl (hd hint l)
  | estart => exact of_ite (answersCode_estart.1 h)
  | ebit b => exact of_ite (answersCode_ebit.1 h)
  | eend => exact of_ite (answersCode_eend.1 h)
  | dhbit b => exact of_ite (answersCode_dhbit.1 h)
  | dsoft o => exact of_ite (answersCode_dsoft.1 h)
  | dend => exact of_ite (answersCode_dend.1 h)
  | cclr | cpoly p | crev b => exact .inl ((answersCode_staging rfl).1 h)
  | stat => exact .inl (answersCode_stat.1 h)
  | srst => exact .inl (answersCode_srst.1 h)

/-- A code of the argument checks is answered by `CCOMMIT` or by `DSTART`, for the causes of each. -/
theorem answersCode_iff_of_argument {c : Status} (hok : c ≠ .ok) (hprotocol : c ≠ .protocol) (i : Instr) (s : State) :
    AnswersCode c s (exec i s) ↔
      (i = .ccommit ∧ AnswersCode c s (exec .ccommit s)) ∨
      ∃ h l, i = .dstart h l ∧ AnswersCode c s (exec (.dstart h l) s) := by
  constructor
  · intro h
    by_cases hc : i = .ccommit
    · exact .inl ⟨hc, hc ▸ h⟩
    by_cases hd : ∃ h l, i = .dstart h l
    · obtain ⟨hint, l, rfl⟩ := hd
      exact .inr ⟨hint, l, rfl, h⟩
    · obtain rfl | rfl := ok_or_protocol_of_answersCode hc (fun hint l hi => hd ⟨hint, l, hi⟩) h
      · exact absurd rfl hok
      · exact absurd rfl hprotocol
  · rintro (⟨rfl, h⟩ | ⟨_, _, rfl, h⟩)
    · exact h
    · exact h

/-- R251: the staged list is invalid. -/
theorem answersCode_invalidConfiguration_iff (i : Instr) (s : State) :
    AnswersCode .invalidConfiguration s (exec i s) ↔
      i = .ccommit ∧ callOpen s = false ∧ stagedInvalid s.stg = true := by
  rw [answersCode_iff_of_argument (by decide) (by decide)]
  simp [answersCode_ccommit, answersCode_dstart]

/-- R252: the count does not fill its groups, or the hint has the wrong length. -/
theorem answersCode_invalidInput_iff (i : Instr) (s : State) :
    AnswersCode .invalidInput s (exec i s) ↔
      ∃ h l, i = .dstart h l ∧ s.cfg.cfgValid = true ∧ s.dec.decSt = .idle ∧
        (l.toNat % s.cfg.nPoly ≠ 0 ∨ (h = true ∧ s.dec.hLen ≠ s.cfg.K)) := by
  rw [answersCode_iff_of_argument (by decide) (by decide)]
  simp [answersCode_ccommit, answersCode_dstart, DecSt.ne_run_iff, imp_iff_not_or, and_assoc]

/-- R254: the constraint length is above `K_MAX`, or the call does not fit the survivor memory. -/
theorem answersCode_capacity_iff (i : Instr) (s : State) :
    AnswersCode .capacity s (exec i s) ↔
      (i = .ccommit ∧ callOpen s = false ∧ stagedInvalid s.stg = false ∧
        s.params.kMax < bitlen (maxPoly s.stg.polys)) ∨
      ∃ h l, i = .dstart h l ∧ s.cfg.cfgValid = true ∧ s.dec.decSt = .idle ∧ l.toNat % s.cfg.nPoly = 0 ∧
        (h = true → s.dec.hLen = s.cfg.K) ∧
        (s.params.nMax < l.toNat / s.cfg.nPoly ∨ s.params.nodeMax < l.toNat / s.cfg.nPoly * 2 ^ s.cfg.K) := by
  rw [answersCode_iff_of_argument (by decide) (by decide)]
  simp [answersCode_ccommit, answersCode_dstart, DecSt.ne_run_iff, Codec.S, and_assoc]

/-- Settles O43: the commands and causes of each code, register by register. -/
theorem argumentCodesHaveExactlyTheirCauses : Obligations.ArgumentCodesHaveExactlyTheirCauses := by
  intro i s
  refine ⟨(responds_iff_answersCode i s .invalidConfiguration).trans ?_,
    (responds_iff_answersCode i s .invalidInput).trans ?_, (responds_iff_answersCode i s .capacity).trans ?_⟩
  · rw [answersCode_invalidConfiguration_iff, callOpen_eq_false_iff, stagedInvalid_iff, and_assoc]
  · exact answersCode_invalidInput_iff i s
  · simp only [answersCode_capacity_iff, callOpen_eq_false_iff, stagedInvalid_eq_false_iff, lt_bitlen_maxPoly_iff,
      and_assoc]

/-! ### `PROTOCOL` (R253) -/

/-- R253 (c): the commands that are not legal in the present state. -/
theorem responds_protocol_iff (i : Instr) (s : State) :
    Responds i s 3 ↔
      (i = .ccommit ∧ (s.enc.encSt = .active ∨ s.dec.decSt = .run)) ∨
      (i = .estart ∧ (s.cfg.cfgValid = false ∨ s.enc.encSt = .active)) ∨
      (((∃ b, i = .ebit b) ∨ i = .eend) ∧ s.enc.encSt = .idle) ∨
      ((∃ b, i = .dhbit b) ∧ s.dec.decSt = .run) ∨
      ((∃ h l, i = .dstart h l) ∧ (s.cfg.cfgValid = false ∨ s.dec.decSt = .run)) ∨
      ((∃ o, i = .dsoft o) ∧ (s.dec.decSt = .idle ∨ s.dec.C = s.dec.nReg)) ∨
      (i = .dend ∧ (s.dec.decSt = .idle ∨ s.dec.C ≠ s.dec.nReg)) := by
  refine (responds_iff_answersCode i s .protocol).trans ?_
  cases i with
  | ccommit => simp [answersCode_ccommit, callOpen_iff]
  | estart => simp [answersCode_estart]
  | ebit b => simp [answersCode_ebit]
  | eend => simp [answersCode_eend]
  | dhbit b => simp [answersCode_dhbit]
  | dstart h l => simp [answersCode_dstart]
  | dsoft o => simp [answersCode_dsoft]
  | dend => simp [answersCode_dend]
  | cclr | cpoly p | crev b =>
    rw [answersCode_staging rfl]
    simp
  | stat => simp [answersCode_stat]
  | srst => simp [answersCode_srst]

/-- R253 (a): the words refused for their opcode. -/
theorem exists_decode_eq_reservedOpcode_iff (w : Word) :
    (∃ op, decode w = .error (.reservedOpcode op)) ↔ HasReservedOpcode w := by
  simp only [decode_eq_error_iff, IllegalWord.reservedOpcode.injEq, reduceCtorEq, and_false, or_false,
    exists_and_left, exists_eq', and_true]

/-- R253 (b): the words refused for a reserved bit. -/
theorem exists_decode_eq_reservedBit_iff (w : Word) :
    (∃ op, decode w = .error (.reservedBit op)) ↔ HasReservedBit w := by
  simp only [decode_eq_error_iff, IllegalWord.reservedBit.injEq, reduceCtorEq, and_false, false_or,
    exists_and_left, exists_eq', and_true]

/-- Settles O44: the three kinds of cause of R253, and the rejection of an illegal word. -/
theorem protocolHasExactlyItsCauses : Obligations.ProtocolHasExactlyItsCauses :=
  ⟨responds_protocol_iff, fun w => ⟨exists_decode_eq_reservedOpcode_iff w, exists_decode_eq_reservedBit_iff w⟩,
    fun _ => reject_protocol⟩

end Sys2Proof.Machine
end

section
/-! PROOFS. The statements of 30_encoding.md on the words of commands (R92 to R94), the rows of the opcode table, and
the assembler (R98). -/

namespace Sys2Proof.Machine

open Sys2Proof

/-! ### Decoding the word of a command -/

theorem formatL_dstart : FormatL 0x9 .dstart := by
  intro w hw h l hl
  simp only [decode, decode_of_op hw]
  exact decodeL_spec w .dstart h l hl

/-- The opcode and the payload of a word put together from them, as numbers (R90). -/
theorem toNat_append_div_mod (a : BitVec 4) (b : BitVec 28) :
    (a ++ b : Word).toNat / 2 ^ 28 = a.toNat ∧ (a ++ b : Word).toNat % 2 ^ 28 = b.toNat := by
  rw [← opField_toNat, ← payload_toNat, opField_append, payload_append]
  exact ⟨rfl, rfl⟩

/-- The decoder inverts the encoder, format by format. -/
theorem decode_encode (i : Instr) : decode (encode i) = .ok i := by
  cases i with
  | cclr | ccommit | estart | eend | dend | stat | srst => rfl
  | crev b | ebit b | dhbit b => cases b <;> rfl
  | cpoly p =>
    obtain ⟨hop, hpayload⟩ := toNat_append_div_mod 0x2#4 p
    exact formatP_cpoly _ hop p hpayload
  | dstart h l =>
    obtain ⟨hop, hpayload⟩ := toNat_append_div_mod 0x9#4 (BitVec.ofBool h ++ l)
    exact formatL_dstart _ hop h l (hpayload.trans (by rw [toNat_append_eq_add, BitVec.toNat_ofBool]))
  | dsoft o =>
    obtain ⟨hop, hpayload⟩ := toNat_append_div_mod 0xA#4 (0#20 ++ o)
    exact (formatO_dsoft _ hop).1 o (hpayload.trans (by rw [toNat_append_eq_add, BitVec.toNat_ofNat]; omega))

/-- Settles O1: the word of a command has the command's opcode and payload, which its format reads back. -/
theorem decodeOfEncodeIsTheCommand : Obligations.DecodeOfEncodeIsTheCommand := decode_encode

/-! ### The word of a decoded command -/

/-- One bit of a word as a field of width 1. -/
theorem extractLsb'_one (w : Word) (n : Nat) : w.extractLsb' n 1 = BitVec.ofBool (w.getLsbD n) := by
  ext i hi
  simp [show i = 0 by omega]

/-- A word is determined by its opcode and its payload (R90). -/
theorem append_eq_of_fields {w : Word} {n : Nat} {p : BitVec 28} (hop : (opField w).toNat = n) (hp : payload w = p) :
    (BitVec.ofNat 4 n ++ p : Word) = w := by
  rw [← hop, BitVec.ofNat_toNat, BitVec.setWidth_eq, ← hp, word_eq_append]

theorem decodeZ_eq_ok {w : Word} {i j : Instr} (h : decodeZ w i = .ok j) : i = j ∧ payload w = 0#28 := by
  unfold decodeZ at h
  split at h
  · exact ⟨Except.ok.inj h, ‹_›⟩
  · cases h

theorem decodeB_eq_ok {w : Word} {mk : Bool → Instr} {j : Instr} (h : decodeB w mk = .ok j) :
    ∃ b, mk b = j ∧ payload w = 0#27 ++ BitVec.ofBool b := by
  unfold decodeB at h
  split at h
  · have hzero : w.extractLsb' 1 27 = 0#27 := ‹_›
    refine ⟨_, Except.ok.inj h, ?_⟩
    rw [← extractLsb'_one, ← hzero]
    exact (BitVec.extractLsb'_append_extractLsb'_eq_extractLsb' (len₁ := 1) (len₂ := 27) rfl).symm
  · cases h

theorem decodeO_eq_ok {w : Word} {mk : BitVec 8 → Instr} {j : Instr} (h : decodeO w mk = .ok j) :
    ∃ o, mk o = j ∧ payload w = 0#20 ++ o := by
  unfold decodeO at h
  split at h
  · have hzero : w.extractLsb' 8 20 = 0#20 := ‹_›
    refine ⟨_, Except.ok.inj h, ?_⟩
    rw [← hzero]
    exact (BitVec.extractLsb'_append_extractLsb'_eq_extractLsb' (len₁ := 8) (len₂ := 20) rfl).symm
  · cases h

theorem decodeL_eq_ok {w : Word} {mk : Bool → BitVec 27 → Instr} {j : Instr} (h : decodeL w mk = .ok j) :
    ∃ b l, mk b l = j ∧ payload w = BitVec.ofBool b ++ l := by
  refine ⟨_, _, Except.ok.inj h, ?_⟩
  rw [← extractLsb'_one]
  exact (BitVec.extractLsb'_append_extractLsb'_eq_extractLsb' (len₁ := 27) (len₂ := 1) rfl).symm

/-- An accepted word is the word of its command: the opcode names the command, and the format leaves no payload bit
free (R92 to R94). -/
theorem encode_of_decode_eq_ok {w : Word} {i : Instr} (h : decode w = .ok i) : encode i = w := by
  unfold decode at h
  split at h
  case h_1 hop | h_4 hop | h_5 hop | h_7 hop | h_11 hop | h_12 hop | h_13 hop =>
    obtain ⟨rfl, hp⟩ := decodeZ_eq_ok h
    exact append_eq_of_fields hop hp
  case h_3 hop | h_6 hop | h_8 hop =>
    obtain ⟨b, rfl, hp⟩ := decodeB_eq_ok h
    exact append_eq_of_fields hop hp
  case h_2 hop =>
    obtain rfl := Except.ok.inj h
    exact append_eq_of_fields hop rfl
  case h_9 hop =>
    obtain ⟨b, l, rfl, hp⟩ := decodeL_eq_ok h
    exact append_eq_of_fields hop hp
  case h_10 hop =>
    obtain ⟨o, rfl, hp⟩ := decodeO_eq_ok h
    exact append_eq_of_fields hop hp
  case h_14 => cases h

/-- Settles O2: the opcode and the payload of an accepted word are those of its command. -/
theorem encodeOfDecodeIsTheWord : Obligations.EncodeOfDecodeIsTheWord := fun _ _ => encode_of_decode_eq_ok

/-! ### The rows of the opcode table (R94) -/

/-- The word of a command matches the row of the command's mnemonic. -/
theorem row_accepts_encode (i : Instr) : Laws.RowOf.Statement i := by
  cases i with
  | cclr => exact Laws.RowOf.cclr
  | cpoly p => exact Laws.RowOf.cpoly p
  | crev b => exact Laws.RowOf.crev b
  | ccommit => exact Laws.RowOf.ccommit
  | estart => exact Laws.RowOf.estart
  | ebit b => exact Laws.RowOf.ebit b
  | eend => exact Laws.RowOf.eend
  | dhbit b => exact Laws.RowOf.dhbit b
  | dstart h l => exact Laws.RowOf.dstart h l
  | dsoft o => exact Laws.RowOf.dsoft o
  | dend => exact Laws.RowOf.dend
  | stat => exact Laws.RowOf.stat
  | srst => exact Laws.RowOf.srst

/-- Every mask looks at the whole opcode, so a word that matches a row has the opcode of the row's pattern. -/
theorem opField_eq_of_accepts {r : OpcodeRow} (hr : r ∈ opcodeTable) {w : Word} (h : r.accepts w = true) :
    opField w = opField r.pattern := by
  have hmask : ∀ r ∈ opcodeTable, opField r.mask = BitVec.allOnes 4 := by decide
  have hw : w &&& r.mask = r.pattern := beq_iff_eq.1 h
  have hand : opField (w &&& r.mask) = opField w &&& opField r.mask := BitVec.extractLsb'_and
  rw [← hw, hand, hmask r hr, BitVec.and_allOnes]

/-- The rows are disjoint: no two have the same opcode. -/
theorem row_eq_of_accepts {r r' : OpcodeRow} (hr : r ∈ opcodeTable) (hr' : r' ∈ opcodeTable) {w : Word}
    (h : r.accepts w = true) (h' : r'.accepts w = true) : r' = r := by
  have hdistinct : ∀ r ∈ opcodeTable, ∀ r' ∈ opcodeTable, opField r'.pattern = opField r.pattern → r' = r := by
    decide
  exact hdistinct r hr r' hr' ((opField_eq_of_accepts hr' h').symm.trans (opField_eq_of_accepts hr h))

/-- A mask that looks at the bits from `k` up compares the word without its low `k` bits. -/
theorem toNat_of_accepts {r : OpcodeRow} {k : Nat} (hmask : r.mask = BitVec.allOnes 32 <<< k) {w : Word}
    (h : r.accepts w = true) : w.toNat / 2 ^ k * 2 ^ k = r.pattern.toNat := by
  have hw : w &&& r.mask = r.pattern := beq_iff_eq.1 h
  rw [← hw, hmask, ← BitVec.shiftLeft_ushiftRight, BitVec.toNat_shiftLeft, BitVec.toNat_ushiftRight,
    Nat.shiftRight_eq_div_pow, Nat.shiftLeft_eq, Nat.mod_eq_of_lt ((Nat.div_mul_le_self _ _).trans_lt w.isLt)]

/-- The formats of the rows (R92): how many operand bits the mask leaves free under which opcodes. -/
theorem row_format : ∀ r ∈ opcodeTable, r.pattern.toNat % 2 ^ 28 = 0 ∧
    ((r.mask = BitVec.allOnes 32 <<< 0 ∧ r.pattern.toNat / 2 ^ 28 ∈ [0x1, 0x4, 0x5, 0x7, 0xB, 0xC, 0xD]) ∨
      (r.mask = BitVec.allOnes 32 <<< 1 ∧ r.pattern.toNat / 2 ^ 28 ∈ [0x3, 0x6, 0x8]) ∨
      (r.mask = BitVec.allOnes 32 <<< 8 ∧ r.pattern.toNat / 2 ^ 28 = 0xA) ∨
      (r.mask = BitVec.allOnes 32 <<< 28 ∧ r.pattern.toNat / 2 ^ 28 ∈ [0x2, 0x9])) := by
  decide

/-- A word that matches a row is a command: its opcode is assigned, and its reserved bits are 0 (R95). -/
theorem decode_ne_error_of_accepts {r : OpcodeRow} (hr : r ∈ opcodeTable) {w : Word} (h : r.accepts w = true) :
    ¬ ∃ e, decode w = .error e := by
  rw [exists_decode_eq_error_iff]
  obtain ⟨hzero, hformat⟩ := row_format r hr
  simp only [List.mem_cons, List.not_mem_nil, or_false, HasReservedOpcode, HasReservedBit] at hformat ⊢
  obtain ⟨hmask, hop⟩ | ⟨hmask, hop⟩ | ⟨hmask, hop⟩ | ⟨hmask, hop⟩ := hformat
  all_goals
    have hw := toNat_of_accepts hmask h
    omega

theorem exists_accepts_of_decode_eq_ok {w : Word} {i : Instr} (h : decode w = .ok i) :
    ∃ r ∈ opcodeTable, r.mnemonic = i.mnemonic ∧ r.accepts w = true :=
  encode_of_decode_eq_ok h ▸ row_accepts_encode i

/-- Settles O3: an accepted word is the word of its command, which matches its row; the rows are disjoint, and each
accepts commands only. -/
theorem wordIsCommandOfTheOneRowItMatches : Obligations.WordIsCommandOfTheOneRowItMatches := by
  refine fun w => ⟨fun i hi => ?_, fun hnone => ?_, fun herror r hr => ?_⟩
  · obtain ⟨r, hr, hmnemonic, haccepts⟩ := exists_accepts_of_decode_eq_ok hi
    exact ⟨r, hr, haccepts, hmnemonic, fun r' hr' h' => row_eq_of_accepts hr hr' haccepts h'⟩
  · cases hw : decode w with
    | error e => exact ⟨e, rfl⟩
    | ok i =>
      obtain ⟨r, hr, -, haccepts⟩ := exists_accepts_of_decode_eq_ok hw
      rw [hnone r hr] at haccepts
      cases haccepts
  · exact Bool.eq_false_iff.2 fun haccepts => decode_ne_error_of_accepts hr haccepts herror

/-- Settles O5: the words are those of the encoder. -/
theorem wordsOfTheSpecDecode : Obligations.WordsOfTheSpecDecode :=
  ⟨decode_encode .cclr, decode_encode (.cpoly 7), decode_encode (.crev true), decode_encode .ccommit,
    decode_encode .estart, decode_encode (.ebit true), decode_encode .eend, decode_encode (.dhbit false),
    decode_encode (.dstart false 12), decode_encode (.dstart true 3), decode_encode (.dsoft 255), decode_encode .dend,
    decode_encode .stat, decode_encode .srst⟩

/-! ### The assembler (R98) -/

/-- A line is an assembly error exactly when an operand does not fit. -/
theorem assemble_eq_none_iff (a : Asm) : assemble a = none ↔ a.wellFormed = false := by
  unfold assemble
  split
  · rename_i h
    rw [h]
    cases a <;> exact ⟨nofun, nofun⟩
  · rename_i h
    exact iff_of_true rfl (Bool.eq_false_iff.2 h)

/-- The numbers 0 and 1 stand for the bits. -/
theorem toNat_beq_one {b : Nat} (h : b ≤ 1) : (b == 1).toNat = b := by
  obtain rfl | rfl : b = 0 ∨ b = 1 := by omega
  · rfl
  · rfl

theorem beq_one_toNat (b : Bool) : (b.toNat == 1) = b := by cases b <;> rfl

/-- A command written out is assembled to the command. -/
theorem assemble_toAsm (i : Instr) : assemble i.toAsm = some i := by
  have hfits : i.toAsm.wellFormed = true := i.wellFormed_of_type
  unfold assemble
  rw [if_pos hfits]
  cases i with
  | cpoly p | dstart h p | dsoft p => simp only [Instr.toAsm, BitVec.ofNat_toNat, BitVec.setWidth_eq]
  | crev b | ebit b | dhbit b => simp only [Instr.toAsm, beq_one_toNat]
  | cclr | ccommit | estart | eend | dend | stat | srst => rfl

/-- The assembler loses no operand: the command it gives writes as the line. -/
theorem toAsm_of_assemble_eq_some {a : Asm} {i : Instr} (h : assemble a = some i) : i.toAsm = a := by
  unfold assemble at h
  split at h
  · rename_i hfits
    cases a with
    | cpoly n | dstart n b | dsoft n =>
      obtain rfl := Option.some.inj h
      simp only [Asm.wellFormed, decide_eq_true_eq] at hfits
      simp only [Instr.toAsm, BitVec.toNat_ofNat]
      rw [Nat.mod_eq_of_lt (by omega)]
    | crev b | ebit b | dhbit b =>
      obtain rfl := Option.some.inj h
      simp only [Asm.wellFormed, decide_eq_true_eq] at hfits
      simp only [Instr.toAsm, toNat_beq_one hfits]
    | cclr | ccommit | estart | eend | dend | stat | srst =>
      obtain rfl := Option.some.inj h
      rfl
  · cases h

theorem toNat_encode_dsoft (o : BitVec 8) : (encode (.dsoft o)).toNat = 0xA0000000 + o.toNat := by
  rw [encode, toNat_append_28, toNat_append_eq_add, BitVec.toNat_ofNat, BitVec.toNat_ofNat]
  omega

theorem toNat_encode_dstart (h : Bool) (l : BitVec 27) :
    (encode (.dstart h l)).toNat = 0x90000000 + h.toNat * 2 ^ 27 + l.toNat := by
  rw [encode, toNat_append_28, toNat_append_eq_add, BitVec.toNat_ofBool, BitVec.toNat_ofNat]
  omega

/-- Settles O6: the operand checks, the two directions between a line and its command, and the words as numbers. -/
theorem assemblerAcceptsExactlyTheFittingOperands : Obligations.AssemblerAcceptsExactlyTheFittingOperands := by
  refine ⟨assemble_eq_none_iff, fun a i => ⟨toAsm_of_assemble_eq_some, ?_⟩, toNat_append_28 0x2#4, fun b => ?_,
    fun l => ⟨toNat_encode_dstart false l, toNat_encode_dstart true l⟩, toNat_encode_dsoft⟩
  · rintro rfl
    exact assemble_toAsm i
  · cases b <;> decide

end Sys2Proof.Machine
end

section
/-! PROOFS. The statements about the step (20_memory.md section 6, 30_encoding.md section 4), reset and power-on (R280),
the response of a command (R91), and which commands write which registers (10_state.md section 8). -/

namespace Sys2Proof.Machine

open Sys2Proof

/-! ### The step (00_scope.md R16) -/

/-- With a reset asserted the step is the reset event, whatever waits. -/
theorem step_of_resetIn {s : State} (h : s.resetIn = true) : step s = .next (resetEvent s) := if_pos h

/-- With no command waiting a step changes nothing. -/
theorem step_of_cmd_nil {s : State} (hreset : s.resetIn = false) (hcmd : s.cmd = []) : step s = .next s := by
  simp only [step, hreset, takeCommand, hcmd, waitForCommand, Bool.false_eq_true, if_false]

/-- A waiting word that decodes to a command is taken and executed. -/
theorem step_of_decode_eq_ok {s : State} {w : Word} {rest : List Word} {i : Instr} (hreset : s.resetIn = false)
    (hcmd : s.cmd = w :: rest) (hi : decode w = .ok i) : step s = exec i { s with cmd := rest } := by
  simp only [step, hreset, takeCommand, hcmd, hi, Bool.false_eq_true, if_false]

/-- Settles O7: the two outcomes of a step without reset, but for an illegal word. -/
theorem stepExecutesTheDecodedCommand : Obligations.StepExecutesTheDecodedCommand :=
  ⟨fun _ _ _ _ => step_of_decode_eq_ok, fun _ => step_of_cmd_nil⟩

/-- Whatever a step does: the reset event, waiting, one command, or the rejection of an illegal word. -/
theorem step_cases (s : State) :
    step s = .next (resetEvent s) ∨ step s = .next s ∨
      ∃ rest, (∃ i, step s = exec i { s with cmd := rest }) ∨
        step s = .next (rejectedWith 3 { s with cmd := rest }) := by
  rcases Bool.eq_false_or_eq_true s.resetIn with hreset | hreset
  · exact .inl (step_of_resetIn hreset)
  · cases hcmd : s.cmd with
    | nil => exact .inr (.inl (step_of_cmd_nil hreset hcmd))
    | cons w rest =>
      refine .inr (.inr ⟨rest, ?_⟩)
      cases hw : decode w with
      | ok i => exact .inl ⟨i, step_of_decode_eq_ok hreset hcmd hw⟩
      | error e => exact .inr (step_of_decode_eq_error hreset hcmd hw)

/-- Settles O12: each of the cases of a step is a next state, and so is the outcome of every command. -/
theorem everyStepAnswersANextState : Obligations.EveryStepAnswersANextState := by
  intro s
  obtain h | h | ⟨rest, ⟨i, h⟩ | h⟩ := step_cases s
  · exact ⟨_, h⟩
  · exact ⟨_, h⟩
  · rw [h]
    exact exec_next i _
  · exact ⟨_, h⟩

/-! ### Reset and power-on (R280) -/

/-- Settles O8: the reset event is `resetRegs` with the reset input taken away. -/
theorem resetEventWritesEveryListedRegister : Obligations.ResetEventWritesEveryListedRegister := fun s h =>
  ⟨resetEvent s, step_of_resetIn h, registersReset_resetRegs _, rfl, rfl, rfl, rfl, rfl, rfl⟩

/-- Settles O9: the registers are those of a reset event, and no word waits. -/
theorem powerOnStateWaitsWithRegistersReset : Obligations.PowerOnStateWaitsWithRegistersReset :=
  ⟨registersReset_resetRegs State.reset, rfl, rfl, rfl, step_of_cmd_nil rfl rfl⟩

/-! ### The response of a command (R91) -/

/-- The commands whose `OK` response carries information. -/
def CarriesInfo (i : Instr) : Prop := i = .ccommit ∨ (∃ h l, i = .dstart h l) ∨ i = .dend ∨ i = .stat

/-- The outcome appends one response word to the responses of `s`; its `info` is 0 unless the code is `OK` and command
`i` carries information. -/
def RespondsOnce (i : Instr) (s : State) (o : Host.Outcome State Fault Refusal) : Prop :=
  ∃ c info t, o = respond c info t ∧ t.rsp = s.rsp ∧ (c ≠ .ok → info = 0) ∧ (info ≠ 0 → CarriesInfo i)

theorem respondsOnce_reject {i : Instr} {s t : State} {c : Status} (h : t.rsp = s.rsp) :
    RespondsOnce i s (reject c t) :=
  ⟨c, 0, raiseFlag c t, rfl, h, fun _ => rfl, fun hinfo => absurd rfl hinfo⟩

theorem respondsOnce_respond {i : Instr} {s t : State} {info : BitVec 28} (hi : CarriesInfo i) (h : t.rsp = s.rsp) :
    RespondsOnce i s (respond .ok info t) :=
  ⟨.ok, info, t, rfl, h, fun hc => absurd rfl hc, fun _ => hi⟩

theorem respondsOnce_respond_zero {i : Instr} {s t : State} (h : t.rsp = s.rsp) : RespondsOnce i s (respond .ok 0 t) :=
  ⟨.ok, 0, t, rfl, h, fun _ => rfl, fun hinfo => absurd rfl hinfo⟩

theorem respondsOnce_ite {i : Instr} {s : State} {p : Prop} [Decidable p] {a b : Host.Outcome State Fault Refusal}
    (ha : RespondsOnce i s a) (hb : RespondsOnce i s b) : RespondsOnce i s (if p then a else b) := by
  split
  · exact ha
  · exact hb

/-- Every command is a chain of checks, and each way out responds once. -/
theorem respondsOnce_exec (i : Instr) (s : State) : RespondsOnce i s (exec i s) := by
  cases i with
  | cclr | crev b => exact respondsOnce_respond_zero rfl
  | cpoly p => exact respondsOnce_ite (respondsOnce_respond_zero rfl) (respondsOnce_respond_zero rfl)
  | ccommit =>
    exact respondsOnce_ite (respondsOnce_reject rfl) <| respondsOnce_ite (respondsOnce_reject rfl) <|
      respondsOnce_ite (respondsOnce_reject rfl) <| respondsOnce_respond (.inl rfl) rfl
  | estart | ebit b | eend | dhbit b =>
    exact respondsOnce_ite (respondsOnce_reject rfl) (respondsOnce_respond_zero rfl)
  | dstart h l =>
    exact respondsOnce_ite (respondsOnce_reject rfl) <| respondsOnce_ite (respondsOnce_reject rfl) <|
      respondsOnce_ite (respondsOnce_reject rfl) <| respondsOnce_ite (respondsOnce_reject rfl) <|
      respondsOnce_respond (.inr (.inl ⟨h, l, rfl⟩)) rfl
  | dsoft o =>
    exact respondsOnce_ite (respondsOnce_reject rfl) <|
      respondsOnce_ite (respondsOnce_respond_zero rfl) (respondsOnce_respond_zero rfl)
  | dend => exact respondsOnce_ite (respondsOnce_reject rfl) (respondsOnce_respond (.inr (.inr (.inl rfl))) rfl)
  | stat => exact respondsOnce_respond (.inr (.inr (.inr rfl))) rfl
  | srst => exact respondsOnce_respond_zero rfl

theorem statusCode_le (c : Status) : (statusCode c).toNat ≤ 4 := by cases c <;> decide

theorem statusCode_eq_zero_iff (c : Status) : (statusCode c).toNat = 0 ↔ c = .ok := by cases c <;> decide

/-- Settles O13: the one response word of each command, as a number. -/
theorem everyCommandGivesExactlyOneResponse : Obligations.EveryCommandGivesExactlyOneResponse := by
  intro i s
  obtain ⟨c, info, t, h, hrsp, hreject, hinfo⟩ := respondsOnce_exec i s
  refine ⟨_, (statusCode c).toNat, info.toNat, h, ?_, statusCode_le c, info.isLt, fun hc => ?_, fun hne => ?_⟩
  · rw [pushRsp_rsp, hrsp, respWord_ofNat]
  · rw [hreject (mt (statusCode_eq_zero_iff c).2 hc)]
    rfl
  · exact hinfo fun hzero => hne (hzero ▸ rfl)

/-! ### What each command writes (10_state.md section 8) -/

section
variable {i : Instr} {s t : State}

theorem staging_writes (h : exec i s = .next t) (hi : isStaging i = true) :
    ∃ g rsp, t = { s with stg := g, rsp := rsp } := by
  obtain ⟨g, ho⟩ := exec_staging hi s
  exact ⟨g, _, (Host.Outcome.next.inj (ho.symm.trans h)).symm⟩

theorem ccommit_writes (h : exec .ccommit s = .next t) :
    ∃ cfg flags rsp, t = { s with cfg := cfg, errFlags := flags, rsp := rsp } := by
  simp only [exec, execCcommit] at h
  repeat' split at h
  all_goals exact ⟨_, _, _, (Host.Outcome.next.inj h).symm⟩

/-- Of the encoder commands only `EBIT` writes `ENC_OUT`. -/
theorem encoder_writes_enc (h : exec i s = .next t) (hi : i = .estart ∨ i = .eend) :
    ∃ e flags rsp, t = { s with enc := e, errFlags := flags, rsp := rsp } := by
  obtain rfl | rfl := hi
  all_goals
    simp only [exec, execEstart, execEend] at h
    split at h
    all_goals exact ⟨_, _, _, (Host.Outcome.next.inj h).symm⟩

theorem ebit_writes {b : Bool} (h : exec (.ebit b) s = .next t) :
    ∃ e out flags rsp, t = { s with enc := e, encOut := out, errFlags := flags, rsp := rsp } := by
  obtain ⟨_, _, _, _, ho⟩ := exec_encoder_writes (i := .ebit b) rfl s
  exact ⟨_, _, _, _, (Host.Outcome.next.inj (ho.symm.trans h)).symm⟩

/-- Of the decoder commands only `DEND` writes `DEC_OUT`. -/
theorem dstart_writes {hint : Bool} {l : BitVec 27} (h : exec (.dstart hint l) s = .next t) :
    ∃ d flags rsp, t = { s with dec := d, errFlags := flags, rsp := rsp } := by
  simp only [exec, execDstart] at h
  repeat' split at h
  all_goals exact ⟨_, _, _, (Host.Outcome.next.inj h).symm⟩

/-- The registers of a decode call that its `DSTART` writes and the other commands keep. -/
def Decoder.SameCall (d d' : Decoder) : Prop := d'.nReg = d.nReg ∧ d'.hintEn = d.hintEn ∧ d'.fState = d.fState

theorem dhbit_dsoft_writes (h : exec i s = .next t) (hi : (∃ b, i = .dhbit b) ∨ ∃ o, i = .dsoft o) :
    ∃ d flags rsp, t = { s with dec := d, errFlags := flags, rsp := rsp } ∧ s.dec.SameCall d := by
  obtain ⟨b, rfl⟩ | ⟨o, rfl⟩ := hi
  all_goals
    simp only [exec, execDhbit, execDsoft, dsoftWith] at h
    repeat' split at h
    all_goals exact ⟨_, _, _, (Host.Outcome.next.inj h).symm, ⟨rfl, rfl, rfl⟩⟩

theorem dend_writes (h : exec .dend s = .next t) : ∃ d tb out flags rsp n,
    t = { s with dec := d, tb := tb, decOut := out, errFlags := flags, rsp := rsp, epoch := n } ∧
      s.dec.SameCall d := by
  simp only [exec, execDend, dendWith] at h
  split at h
  all_goals exact ⟨_, _, _, _, _, _, (Host.Outcome.next.inj h).symm, ⟨rfl, rfl, rfl⟩⟩

end

/-- Settles O46: the registers and channels that each command writes are among its own. -/
theorem onlyTheirOwnCommandsWriteTheRegisters : Obligations.OnlyTheirOwnCommandsWriteTheRegisters := by
  intro i s t h
  cases i with
  | cclr | cpoly p | crev b =>
    obtain ⟨_, _, rfl⟩ := staging_writes h rfl
    simp [isStaging]
  | ccommit =>
    obtain ⟨_, _, _, rfl⟩ := ccommit_writes h
    simp
  | estart | eend =>
    obtain ⟨_, _, _, rfl⟩ := encoder_writes_enc h (by simp)
    simp [isEncoder]
  | ebit b =>
    obtain ⟨_, _, _, _, rfl⟩ := ebit_writes h
    simp [isEncoder]
  | dstart hint l =>
    obtain ⟨_, _, _, rfl⟩ := dstart_writes h
    simp [isDecoder]
  | dhbit b | dsoft o =>
    obtain ⟨_, _, _, rfl, hcall⟩ := dhbit_dsoft_writes h (by simp)
    simpa [isDecoder, Decoder.SameCall] using hcall
  | dend =>
    obtain ⟨_, _, _, _, _, _, rfl, hcall⟩ := dend_writes h
    simpa [isDecoder, Decoder.SameCall] using hcall
  | stat =>
    obtain rfl := Host.Outcome.next.inj h
    simp
  | srst =>
    obtain rfl := Host.Outcome.next.inj h
    simp

end Sys2Proof.Machine
end

section
/-! PROOFS. The statements on the hint (20_memory.md R68, 42_decoder_acs.md R161) and on `DSTART` (R162, R163), and the
frame of a rejection (60_exceptions.md R255). -/

namespace Sys2Proof.Machine

open Sys2Proof

/-! ### The hint (R161, R68) -/

/-- The numeral that `bits` continues from the value `v`, first bit most significant. -/
def hintValueFrom (v : Nat) (bits : List Bool) : Nat := bits.foldl (fun v b => 2 * v + b.toNat) v

/-- A sequence of `DHBIT` commands with no call open: each answers `OK`, the hint is the numeral continued, cut to
`K_MAX` bits, and its length is counted up to 31. -/
theorem execAll_dhbit (bits : List Bool) {s : State} (hp : s.params.Valid) (hidle : s.dec.decSt = .idle)
    (hlen : s.dec.hLen ≤ 31) {v : Nat} (hv : s.dec.hint.toNat = v % 2 ^ s.params.kMax) :
    ∃ h : KWord, h.toNat = hintValueFrom v bits % 2 ^ s.params.kMax ∧
      execAll (bits.map .dhbit) s = .next { s with
        dec := { s.dec with hint := h, hLen := min (s.dec.hLen + bits.length) 31 }
        rsp := s.rsp ++ List.replicate bits.length 0 } := by
  induction bits generalizing s v with
  | nil => exact ⟨s.dec.hint, hv, by simp [execAll, hlen]⟩
  | cons b bs ih =>
    have hbit := toNat_shiftedHint hp s.dec.hint.toNat b
    have hnext : (2 * s.dec.hint.toNat + b.toNat) % 2 ^ s.params.kMax = (2 * v + b.toNat) % 2 ^ s.params.kMax := by
      rw [hv, Nat.add_mod, Nat.mul_mod_mod, ← Nat.add_mod]
    obtain ⟨h, hh, hrest⟩ := ih (s := acceptedWith 0 { s with dec := { s.dec with
      hint := BitVec.ofNat 28 (((s.dec.hint.toNat <<< 1) ||| b.toNat) &&& (2 ^ s.params.kMax - 1))
      hLen := min (s.dec.hLen + 1) 31 } }) hp hidle (Nat.min_le_right _ _) (hbit.trans hnext)
    refine ⟨h, hh, ?_⟩
    simp only [List.map_cons, execAll, exec_dhbit_of_idle b hidle, hrest]
    have hcount : min (min (s.dec.hLen + 1) 31 + bs.length) 31 = min (s.dec.hLen + (b :: bs).length) 31 := by
      rw [List.length_cons]
      omega
    simp [acceptedWith, hcount, List.replicate_succ]

/-- Bit by bit, the value of a hint has its first bit on top (R68). -/
theorem testBit_hintValue (bits : List Bool) {j : Nat} (hj : j < bits.length) :
    bits[j]? = some ((hintValue bits).testBit (bits.length - 1 - j)) := by
  induction bits using List.reverseRecOn with
  | nil => cases hj
  | append_singleton bits b ih =>
    rw [hintValue_snoc]
    have hb : b.toNat < 2 := Bool.toNat_lt b
    rcases Nat.lt_or_ge j bits.length with hlt | hge
    · have hhalf : (2 * hintValue bits + b.toNat) / 2 = hintValue bits := by omega
      have hpos : (bits ++ [b]).length - 1 - j = bits.length - 1 - j + 1 := by simp; omega
      rw [List.getElem?_append_left hlt, ih hlt, hpos, Nat.testBit_succ, hhalf]
    · obtain rfl : j = bits.length := by simp at hj; omega
      have hlow : (2 * hintValue bits + b.toNat).testBit 0 = b := by
        cases b <;> simp [Nat.testBit_zero]
      simp [hlow]

/-- Settles O27: with room for all of them, the bits of the hint are neither cut nor miscounted. -/
theorem hintBitsSpellTheStateNumber : Obligations.HintBitsSpellTheStateNumber := by
  refine ⟨fun s bits hp hidle hlen hhint hfit => ?_, fun bits j => testBit_hintValue bits⟩
  have hzero : s.dec.hint.toNat = 0 % 2 ^ s.params.kMax := by rw [hhint, Nat.zero_mod]; rfl
  obtain ⟨h, hh, hexec⟩ := execAll_dhbit bits hp hidle (by omega) hzero
  have hvalue : hintValue bits < 2 ^ s.params.kMax :=
    (hintValue_lt bits).trans_le (Nat.pow_le_pow_right (by omega) hfit)
  obtain ⟨-, hkMax, -⟩ := hp
  refine ⟨_, hexec, hh.trans (Nat.mod_eq_of_lt hvalue), ?_⟩
  show min (s.dec.hLen + bits.length) 31 = bits.length
  omega

/-! ### `DSTART` (R162, R163) -/

/-- `DSTART` is refused without a configuration and while a call is open, with the hint kept. -/
theorem exec_dstart_of_not_ready (h : Bool) (l : BitVec 27) {s : State}
    (hbad : s.cfg.cfgValid = false ∨ s.dec.decSt = .run) : exec (.dstart h l) s = .next (rejectedWith 3 s) :=
  (if_pos hbad).trans (reject_protocol s)

/-- What `DSTART` does when it is legal: it consumes the hint, checks the input, then the capacity, then opens the
call. -/
theorem exec_dstart_of_ready (h : Bool) (l : BitVec 27) {s : State} (hvalid : s.cfg.cfgValid = true)
    (hidle : s.dec.decSt = .idle) :
    exec (.dstart h l) s =
      if l.toNat % s.cfg.nPoly ≠ 0 ∨ (h = true ∧ s.dec.hLen ≠ s.cfg.K) then .next (rejectedWith 2 (hintCleared s))
      else if s.params.nMax < l.toNat / s.cfg.nPoly ∨ s.params.nodeMax < l.toNat / s.cfg.nPoly * 2 ^ s.cfg.K then
        .next (rejectedWith 4 (hintCleared s))
      else .next (acceptedWith (l.toNat / s.cfg.nPoly)
        (openCall (l.toNat / s.cfg.nPoly) h (if h then s.dec.hint else 0) (hintCleared s))) := by
  have hready : ¬(s.cfg.cfgValid = false ∨ s.dec.decSt = .run) := by rw [hvalid, hidle]; decide
  have hinfo : l.toNat / s.cfg.nPoly < 2 ^ 28 := (Nat.div_le_self _ _).trans_lt (l.isLt.trans (by decide))
  show execDstart h l s = _
  simp only [execDstart, if_neg hready, ite_or, reject_invalidInput, reject_capacity, respond_ok_ofNat _ hinfo,
    clearHint_eq, Codec.S, ActiveConfig.codec_K]

/-- Column 0: state 0 has metric 0 and every other state is infeasible (R163). -/
theorem Codec.getElem?_column0 (c : Codec) {x : Nat} (hx : x < c.S) :
    c.column0[x]? = some (if x = 0 then .fin 0 else .inf) := by
  have hlt : x < c.column0.length := c.length_column0.symm ▸ hx
  have hmetric := c.metricAt_column0 x
  rw [metricAt, List.getElem?_eq_getElem hlt, Option.getD_some] at hmetric
  rw [List.getElem?_eq_getElem hlt, hmetric]

/-- A hint of `K` bits names a state. -/
theorem hint_lt_of_invariant {s : State} (hs : Invariant s) (hlen : s.dec.hLen = s.cfg.K) :
    s.dec.hint.toNat < 2 ^ s.cfg.K := by
  obtain ⟨-, -, -, -, ⟨⟨-, -, -, -, hhint, -, -⟩, -⟩, -, -⟩ := hs
  exact hhint.trans_le (Nat.pow_le_pow_right (by omega) (hlen ▸ Nat.min_le_left _ _))

/-- Settles O28: the checks of `DSTART` in their order, and column 0 of the call it opens. -/
theorem dstartChecksAndOpensTheDecodeCall : Obligations.DstartChecksAndOpensTheDecodeCall := by
  refine ⟨formatL_dstart, fun h l s => ⟨exec_dstart_of_not_ready h l, fun hvalid hidle => ?_⟩⟩
  have hexec := exec_dstart_of_ready h l hvalid hidle
  refine ⟨fun hbad => hexec.trans (if_pos hbad), ?_⟩
  rintro hdiv hlen n rfl
  have hinput : ¬(l.toNat % s.cfg.nPoly ≠ 0 ∨ (h = true ∧ s.dec.hLen ≠ s.cfg.K)) := by
    rintro (hne | ⟨hh, hne⟩)
    · exact hne hdiv
    · exact hne (hlen hh)
  rw [if_neg hinput] at hexec
  refine ⟨fun hover => hexec.trans (if_pos hover), fun hmax hnode => ?_⟩
  rw [if_neg (not_or.2 ⟨Nat.not_lt.2 hmax, Nat.not_lt.2 hnode⟩)] at hexec
  refine ⟨s.cfg.codec.column0, hexec, s.cfg.codec.length_column0, rfl, fun x hx1 hx => ?_,
    fun hs hh => hint_lt_of_invariant hs (hlen hh)⟩
  rw [s.cfg.codec.getElem?_column0 hx, if_neg (by omega)]

/-! ### The frame of a rejection (R255) -/

/-- How a command is rejected: from the state it found, but for `INVALID_INPUT` and `CAPACITY` of `DSTART`, which have
cleared the hint. -/
theorem exec_rejects (i : Instr) (s : State) :
    (∃ c, c ≠ .ok ∧ ¬((∃ h l, i = .dstart h l) ∧ (c = .invalidInput ∨ c = .capacity)) ∧ exec i s = reject c s) ∨
    (∃ c, ((∃ h l, i = .dstart h l) ∧ (c = .invalidInput ∨ c = .capacity)) ∧ exec i s = reject c (hintCleared s)) ∨
    ∃ info t, exec i s = respond .ok info t ∧ t.rsp = s.rsp := by
  by_cases hd : ∃ h l, i = .dstart h l
  · obtain ⟨h, l, rfl⟩ := hd
    simp only [exec, execDstart, clearHint_eq]
    split
    · exact .inl ⟨.protocol, by decide, by simp, rfl⟩
    split
    · exact .inr (.inl ⟨.invalidInput, ⟨⟨h, l, rfl⟩, .inl rfl⟩, rfl⟩)
    split
    · exact .inr (.inl ⟨.invalidInput, ⟨⟨h, l, rfl⟩, .inl rfl⟩, rfl⟩)
    split
    · exact .inr (.inl ⟨.capacity, ⟨⟨h, l, rfl⟩, .inr rfl⟩, rfl⟩)
    · exact .inr (.inr ⟨_, _, rfl, rfl⟩)
  · obtain ⟨c, hc, ho | ⟨hstart, -⟩⟩ | ho := exec_cases i s
    · exact .inl ⟨c, hc, fun hstart => hd hstart.1, ho⟩
    · exact absurd hstart hd
    · exact .inr (.inr ho)

/-- The codes of the checks of `DSTART` that come after the hint has been cleared, as numbers (R250). -/
theorem statusCode_eq_two_or_four_iff (c : Status) :
    (statusCode c).toNat = 2 ∨ (statusCode c).toNat = 4 ↔ c = .invalidInput ∨ c = .capacity := by
  cases c <;> decide

/-- Settles O45: the rejection that the command made, found from the code of its response. -/
theorem rejectionChangesNothingElse : Obligations.RejectionChangesNothingElse := by
  refine ⟨fun i s t code hpos hle h hresp => ?_, fun _ s => reject_protocol s⟩
  obtain ⟨c, hc, hkeep, ho⟩ | ⟨c, hclear, ho⟩ | ⟨info, u, ho, hu⟩ := exec_rejects i s
  · obtain rfl := (responds_reject i s c s rfl ho code hle).1 hresp
    obtain rfl := Host.Outcome.next.inj ((ho.trans (reject_eq c hc s)).symm.trans h)
    rw [statusCode_eq_two_or_four_iff]
    exact ⟨fun hclear => absurd hclear hkeep, fun _ => rfl⟩
  · obtain rfl := (responds_reject i s c (hintCleared s) rfl ho code hle).1 hresp
    have hc : c ≠ .ok := fun hok => absurd hpos (by rw [hok]; decide)
    obtain rfl := Host.Outcome.next.inj ((ho.trans (reject_eq c hc _)).symm.trans h)
    rw [statusCode_eq_two_or_four_iff]
    exact ⟨fun _ => rfl, fun hkeep => absurd hclear hkeep⟩
  · have hzero := (responds_ok i s info u hu ho code hle).1 hresp
    omega

end Sys2Proof.Machine
end

section
/-! PROOFS. The invariant of the block (10_state.md R45): each part of it under the update that each command makes, and
so that it holds at reset and every step keeps it. -/

namespace Sys2Proof.Machine

open Sys2Proof

/-! ### Staging and configuration (items 2 and 5 of R45) -/

theorem stgOk_reset : StgOk State.reset.stg := ⟨Nat.zero_le _, nofun, fun i _ _ => readReg_zeros16 i⟩

theorem StgOk.append {g : Staging} (hg : StgOk g) (h : g.spCount < 16) (p : KWord) :
    StgOk { g with sPoly := writeReg g.sPoly g.spCount p, spCount := g.spCount + 1 } := by
  obtain ⟨-, hovf, hzero⟩ := hg
  refine ⟨h, fun ho => absurd (hovf ho) h.ne, fun i hi hle => ?_⟩
  rw [readReg_writeReg, if_neg fun hw => absurd hw.1 (Nat.ne_of_lt hle)]
  exact hzero i hi (Nat.le_of_succ_le hle)

theorem StgOk.overflow {g : Staging} (hg : StgOk g) (h : ¬ g.spCount < 16) : StgOk { g with spOvf := true } := by
  obtain ⟨hle, -, hzero⟩ := hg
  exact ⟨hle, fun _ => hle.antisymm (Nat.not_lt.1 h), hzero⟩

theorem mem_toList_iff_readReg {n : Nat} (v : Vector (BitVec n) 16) (x : BitVec n) :
    x ∈ v.toList ↔ ∃ i < 16, readReg v i = x := by
  rw [Vector.mem_toList_iff, Vector.mem_iff_getElem, exists_congr]
  intro i
  constructor
  · rintro ⟨hi, h⟩
    exact ⟨hi, (readReg_eq_getElem v i hi).trans h⟩
  · rintro ⟨hi, h⟩
    exact ⟨hi, (readReg_eq_getElem v i hi).symm.trans h⟩

theorem maxPoly_le_iff (l : List KWord) (n : Nat) : maxPoly l ≤ n ↔ ∀ p ∈ l, p.toNat ≤ n := by
  refine ⟨fun h p hp => (toNat_le_maxPoly hp).trans h, fun h => ?_⟩
  rcases eq_or_ne l [] with rfl | hl
  · exact Nat.zero_le n
  · obtain ⟨p, hp, hmax⟩ := maxPoly_mem hl
    exact hmax ▸ h p hp

/-- The zeros past the staged list do not change the largest polynomial. -/
theorem maxPoly_builtConfig {g : Staging} (hle : g.spCount ≤ 16) :
    maxPoly (builtConfig g).poly.toList = maxPoly g.polys := by
  refine eq_of_forall_ge_iff fun n => ?_
  simp only [maxPoly_le_iff, mem_toList_iff_readReg, polys_mem]
  constructor
  · rintro h _ ⟨i, hi, rfl⟩
    exact h _ ⟨i, by omega, (readReg_builtConfig g (by omega)).trans (if_pos hi)⟩
  · rintro h _ ⟨i, hi, rfl⟩
    rw [readReg_builtConfig g hi]
    split
    · exact h _ ⟨i, ‹_›, rfl⟩
    · exact Nat.zero_le n

theorem StgOk.cfgOk_builtConfig {g : Staging} (hg : StgOk g) (hvalid : stagedInvalid g = false) {p : Params}
    (hfits : bitlen (maxPoly g.polys) ≤ p.kMax) : CfgOk p (builtConfig g) := by
  obtain ⟨hle, -, -⟩ := hg
  obtain ⟨hcount, -, hne⟩ := (stagedInvalid_eq_false_iff g).1 hvalid
  obtain ⟨hK, -, -⟩ := builtConfig_bounds hle hvalid
  have hmax := maxPoly_builtConfig hle
  refine ⟨fun _ => ⟨Nat.pos_of_ne_zero hcount, hle, fun i hi => ?_, fun i hi hpast => ?_, ?_, hK, hfits,
    fun i hi => ?_⟩, nofun⟩
  · exact ((readReg_builtConfig g (hi.trans_le hle)).trans (if_pos hi)).trans_ne (hne i hi)
  · exact (readReg_builtConfig g hi).trans (if_neg (Nat.not_lt.2 hpast))
  · rw [hmax]
    rfl
  · refine (toNat_le_maxPoly ((mem_toList_iff_readReg _ _).2 ⟨i, hi, rfl⟩)).trans_lt ?_
    rw [hmax]
    exact lt_two_pow_bitlen _

/-! ### The decoder (items 1 and 4 of R45) -/

theorem DecSt.ne_idle_iff {d : DecSt} : d ≠ .idle ↔ d = .run := by cases d <;> decide

theorem metricAtMost_add {n x : Nat} {m : Metric} (h : metricAtMost n m = true) :
    metricAtMost (n + x) (m.add x) = true := by
  cases m with
  | fin a => exact decide_eq_true (Nat.add_le_add_right (of_decide_eq_true h) x)
  | inf => rfl

theorem metricAtMost_mono {n n' : Nat} (hle : n ≤ n') {m : Metric} (h : metricAtMost n m = true) :
    metricAtMost n' m = true := by
  cases m with
  | fin a => exact decide_eq_true ((of_decide_eq_true h).trans hle)
  | inf => rfl

/-- The metric that survives at a state is one of two of the old column, plus a branch metric. -/
theorem Codec.metricAtMost_acsState (c : Codec) {n : Nat} {pm : Nat → Metric} (obs : List Byte) {s : Nat}
    (h0 : metricAtMost n (pm (pred0 s)) = true) (h1 : metricAtMost n (pm (c.pred1 s)) = true) :
    metricAtMost (n + 255 * c.k) (c.acsState pm obs s).1 = true := by
  rw [c.acsState_eq]
  refine metricAtMost_mono (Nat.add_le_add_left (c.branchMetric_le s obs) n) (metricAtMost_add ?_)
  split
  · exact h1
  · exact h0

/-- Column 0 is finite at state 0 only, with metric 0 (R163). -/
theorem columnOk_column0 {cfg : ActiveConfig} {d : Decoder} (hpm : d.pm = cfg.codec.column0) (hC : d.C = 0) :
    ColumnOk cfg d := by
  rw [ColumnOk, hpm, hC]
  refine ⟨cfg.codec.length_column0, fun s _ => ?_⟩
  rw [cfg.codec.metricAt_column0, Nat.zero_min, pow_zero, Nat.lt_one_iff]
  split
  · exact ⟨iff_of_true nofun ‹_›, rfl⟩
  · exact ⟨iff_of_false (not_not_intro rfl) ‹_›, rfl⟩

/-- The ACS step takes a column to one that is finite where one more bit can lead, and larger by at most `255 * k`
(R176, R177). -/
theorem ColumnOk.acsStep {cfg : ActiveConfig} (hK : 1 ≤ cfg.K) {d d' : Decoder} (h : ColumnOk cfg d)
    (obs : List Byte) (hpm : d'.pm = (cfg.codec.acsStep (metricAt d.pm) obs).1) (hC : d'.C = d.C + 1) :
    ColumnOk cfg d' := by
  obtain ⟨-, hcol⟩ := h
  rw [ColumnOk, hpm, hC]
  refine ⟨cfg.codec.length_acsStep_fst _ _, fun s hs => ?_⟩
  obtain ⟨hfin0, hmax0⟩ := hcol _ (cfg.codec.pred0_lt hs)
  obtain ⟨hfin1, hmax1⟩ := hcol _ (cfg.codec.pred1_lt hK hs)
  rw [cfg.codec.metricAt_acsStep _ _ hs]
  constructor
  · rw [cfg.codec.acsState_fst_ne_inf, hfin0, hfin1]
    exact (cfg.codec.lt_two_pow_min_succ_iff hK d.C hs).symm
  · have hmax := cfg.codec.metricAtMost_acsState obs hmax0 hmax1
    rwa [cfg.codec_k, ← Nat.mul_add_one] at hmax

/-- The column written next to the written ones (item 4 of R45). -/
theorem SurvOk.write {cfg : ActiveConfig} {d d' : Decoder} (h : SurvOk cfg d) {col : List Bool}
    (hcol : col.length = 2 ^ cfg.K) (hsurv : d'.surv = Memory.write d.surv (d.C + 1) col) (hC : d'.C = d.C + 1) :
    SurvOk cfg d' := by
  intro c hc
  rw [hsurv, Memory.read?_write]
  split
  · exact congrArg some hcol
  · exact h c (by omega)

/-- A hint of `min(HLEN, K_MAX)` bits takes one more bit (R40, R161). -/
theorem DecOk.dhbit {p : Params} (hp : p.Valid) {cfg : ActiveConfig} {d : Decoder} (hd : DecOk p cfg d)
    (hidle : d.decSt ≠ .run) (b : Bool) :
    DecOk p cfg { d with
      hint := BitVec.ofNat 28 (((d.hint.toNat <<< 1) ||| b.toNat) &&& (2 ^ p.kMax - 1))
      hLen := min (d.hLen + 1) 31 } := by
  obtain ⟨⟨hC, hN, hG, hlen, hhint, hf, hwf⟩, -⟩ := hd
  refine ⟨⟨hC, hN, hG, Nat.min_le_right _ _, ?_, hf, hwf⟩, fun hrun => absurd hrun hidle⟩
  have hvalue := toNat_shiftedHint hp d.hint.toNat b
  rw [hvalue]
  have hb : b.toNat ≤ 1 := Bool.toNat_le b
  rcases Nat.lt_or_ge d.hLen p.kMax with hlt | hge
  · obtain ⟨-, hkMax, -⟩ := hp
    rw [Nat.min_eq_left hlt.le] at hhint
    rw [show min (min (d.hLen + 1) 31) p.kMax = d.hLen + 1 by omega, pow_succ]
    exact (Nat.mod_le _ _).trans_lt (by omega)
  · obtain ⟨-, hkMax, -⟩ := hp
    rw [show min (min (d.hLen + 1) 31) p.kMax = p.kMax by omega]
    exact Nat.mod_lt _ (Nat.two_pow_pos _)

/-- Clearing the hint (R162). -/
theorem DecOk.clearHint {p : Params} {cfg : ActiveConfig} {d : Decoder} (hd : DecOk p cfg d) :
    DecOk p cfg { d with hLen := 0, hint := 0 } := by
  obtain ⟨⟨hC, hN, hG, -, -, hf, hwf⟩, hrun⟩ := hd
  exact ⟨⟨hC, hN, hG, Nat.zero_le _, Nat.two_pow_pos _, hf, hwf⟩, hrun⟩

/-- A call of `n` steps that fits opens at column 0 (R162, R163). -/
theorem DecOk.openCall {p : Params} {cfg : ActiveConfig} {d : Decoder} (hd : DecOk p cfg d) (hcfg : CfgOk p cfg)
    (hvalid : cfg.cfgValid = true) {n : Nat} (hmax : n ≤ p.nMax) (hnode : n * 2 ^ cfg.K ≤ p.nodeMax) (h : Bool)
    {f : KWord} (hf : f.toNat < 2 ^ cfg.K) :
    DecOk p cfg { d with
      decSt := .run, nReg := n, C := 0, G := 0, hintEn := h, fState := f, pm := cfg.codec.column0, hLen := 0,
      hint := 0 } := by
  obtain ⟨⟨-, -, -, -, -, -, hwf⟩, -⟩ := hd
  obtain ⟨hk, -, -, -, -, -, hKmax, -⟩ := hcfg.1 hvalid
  refine ⟨⟨Nat.zero_le _, hmax, Nat.zero_le _, Nat.zero_le _, Nat.two_pow_pos _, ?_, hwf⟩, fun _ => ?_⟩
  · exact hf.trans_le (Nat.pow_le_pow_right (by omega) hKmax)
  · exact ⟨hvalid, hnode, hk, fun _ => rfl, hf, columnOk_column0 rfl rfl, nofun⟩

/-- An observation stored before the end of its group (R164). -/
theorem DecOk.storeObs {p : Params} {cfg : ActiveConfig} {d : Decoder} (hd : DecOk p cfg d) (hk : cfg.nPoly ≤ 16)
    (hC : d.C ≠ d.nReg) (hG : d.G + 1 < cfg.nPoly) (v : Vector Byte 16) :
    DecOk p cfg { d with obs := v, G := d.G + 1 } := by
  obtain ⟨⟨hCle, hN, -, hlen, hhint, hf, hwf⟩, hrun⟩ := hd
  refine ⟨⟨hCle, hN, show d.G + 1 ≤ 15 by omega, hlen, hhint, hf, hwf⟩, fun h => ?_⟩
  obtain ⟨hvalid, hnode, -, -, hfK, hcol, hsurv⟩ := hrun h
  exact ⟨hvalid, hnode, hG, fun hlast => absurd hlast hC, hfK, hcol, hsurv⟩

/-- The ACS step at the end of a group (R165). -/
theorem DecOk.acsStep {p : Params} {cfg : ActiveConfig} {d : Decoder} (hd : DecOk p cfg d) (hK : 1 ≤ cfg.K)
    (hrun : d.decSt = .run) (hC : d.C ≠ d.nReg) (v : Vector Byte 16) (obs : List Byte) :
    DecOk p cfg { d with
      obs := v, pm := (cfg.codec.acsStep (metricAt d.pm) obs).1
      surv := Memory.write d.surv (d.C + 1) (cfg.codec.acsStep (metricAt d.pm) obs).2, C := d.C + 1, G := 0 } := by
  obtain ⟨⟨hCle, hN, -, hlen, hhint, hf, hwf⟩, hopen⟩ := hd
  obtain ⟨hvalid, hnode, hG, -, hfK, hcol, hsurv⟩ := hopen hrun
  refine ⟨⟨Nat.lt_of_le_of_ne hCle hC, hN, Nat.zero_le _, hlen, hhint, hf, Memory.wf_write _ _ hwf⟩, fun _ => ?_⟩
  exact ⟨hvalid, hnode, Nat.zero_lt_of_lt hG, fun _ => rfl, hfK, hcol.acsStep hK obs rfl rfl,
    hsurv.write (cfg.codec.length_acsStep_snd _ _) rfl rfl⟩

/-- The end of a call: its arrays are released (R196). -/
theorem DecOk.release {p : Params} {cfg : ActiveConfig} {d : Decoder} (hd : DecOk p cfg d) (v : Vector Byte 16) :
    DecOk p cfg { d with decSt := .idle, obs := v, pm := [], surv := [] } := by
  obtain ⟨⟨hC, hN, hG, hlen, hhint, hf, -⟩, -⟩ := hd
  exact ⟨⟨hC, hN, hG, hlen, hhint, hf, Memory.wf_nil⟩, nofun⟩

/-! ### The responses, and the parts put together -/

/-- A response word, its `info` 0 unless the code is `OK`, keeps the responses well-formed (R91). -/
theorem RspOk.append {rsp : List Word} (h : RspOk rsp) {c : Status} {info : BitVec 28} (hinfo : c ≠ .ok → info = 0) :
    RspOk (rsp ++ [respWord c info]) := by
  intro w hw
  obtain hw | rfl := List.mem_append.1 hw |>.imp_right List.mem_singleton.1
  · exact h w hw
  · have hcode : (respWord c info).extractLsb' 28 4 = statusCode c := opField_append _ _
    have hpayload : (respWord c info).extractLsb' 0 28 = info := payload_append _ _
    rw [hcode, hpayload]
    exact ⟨statusCode_le c, fun hne => hinfo fun hok => hne (hok ▸ rfl)⟩

/-- If the outcome is a next state, it meets the invariant. -/
def KeepsInvariant (o : Host.Outcome State Fault Refusal) : Prop := ∀ t, o = .next t → Invariant t

theorem keepsInvariant_respond {c : Status} {info : BitVec 28} {t : State} (ht : Invariant t)
    (hinfo : c ≠ .ok → info = 0) : KeepsInvariant (respond c info t) := by
  rintro _ ⟨⟩
  obtain ⟨hp, hcfg, hstg, henc, hdec, htb, hrsp⟩ := ht
  exact ⟨hp, hcfg, hstg, henc, hdec, htb, RspOk.append hrsp hinfo⟩

theorem keepsInvariant_ok {info : BitVec 28} {t : State} (ht : Invariant t) : KeepsInvariant (respond .ok info t) :=
  keepsInvariant_respond ht fun h => absurd rfl h

theorem keepsInvariant_reject {c : Status} {s : State} (hs : Invariant s) : KeepsInvariant (reject c s) :=
  keepsInvariant_respond (t := raiseFlag c s) hs fun _ => rfl

theorem keepsInvariant_ite {p : Prop} [Decidable p] {a b : Host.Outcome State Fault Refusal}
    (ha : p → KeepsInvariant a) (hb : ¬ p → KeepsInvariant b) : KeepsInvariant (if p then a else b) := by
  split
  · exact ha ‹_›
  · exact hb ‹_›

theorem Invariant.params_valid {s : State} (hs : Invariant s) : s.params.Valid := let ⟨hp, _⟩ := hs; hp

theorem Invariant.stgOk {s : State} (hs : Invariant s) : StgOk s.stg := let ⟨_, _, hstg, _⟩ := hs; hstg

theorem Invariant.decOk {s : State} (hs : Invariant s) : DecOk s.params s.cfg s.dec :=
  let ⟨_, _, _, _, hdec, _⟩ := hs
  hdec

theorem Invariant.rspOk {s : State} (hs : Invariant s) : RspOk s.rsp := let ⟨_, _, _, _, _, _, hrsp⟩ := hs; hrsp

theorem Invariant.setStg {s : State} (hs : Invariant s) {g : Staging} (hg : StgOk g) :
    Invariant { s with stg := g } := by
  obtain ⟨hp, hcfg, -, henc, hdec, htb, hrsp⟩ := hs
  exact ⟨hp, hcfg, hg, henc, hdec, htb, hrsp⟩

theorem Invariant.setEnc {s : State} (hs : Invariant s) {e : Encoder} (he : EncOk s.cfg e) :
    Invariant { s with enc := e } := by
  obtain ⟨hp, hcfg, hstg, -, hdec, htb, hrsp⟩ := hs
  exact ⟨hp, hcfg, hstg, he, hdec, htb, hrsp⟩

theorem Invariant.setDec {s : State} (hs : Invariant s) {d : Decoder} (hd : DecOk s.params s.cfg d) :
    Invariant { s with dec := d } := by
  obtain ⟨hp, hcfg, hstg, henc, -, htb, hrsp⟩ := hs
  exact ⟨hp, hcfg, hstg, henc, hd, htb, hrsp⟩

/-- With no call open the active configuration may change: nothing else of the invariant speaks of it then. -/
theorem Invariant.setCfg {s : State} (hs : Invariant s) (hclosed : callOpen s = false) {cfg : ActiveConfig}
    (hcfg : CfgOk s.params cfg) : Invariant { s with cfg := cfg } := by
  obtain ⟨henc, hdec⟩ := (callOpen_eq_false_iff s).1 hclosed
  obtain ⟨hp, -, hstg, ⟨-, hR⟩, ⟨hwidths, -⟩, htb, hrsp⟩ := hs
  exact ⟨hp, hcfg, hstg, ⟨fun h => absurd (henc.symm.trans h) nofun, hR⟩,
    ⟨hwidths, fun h => absurd (hdec.symm.trans h) nofun⟩, htb, hrsp⟩

/-- The registers at their reset values meet their parts of the invariant. -/
theorem invariant_resetRegs {s : State} (hp : s.params.Valid) (hrsp : RspOk s.rsp) : Invariant (resetRegs s) := by
  have hdec : DecWidths s.params State.reset.dec :=
    ⟨le_rfl, Nat.zero_le _, Nat.zero_le _, Nat.zero_le _, Nat.two_pow_pos _, Nat.two_pow_pos _, reset_surv_wf⟩
  exact ⟨hp, ⟨nofun, fun _ => rfl⟩, stgOk_reset, ⟨nofun, fun _ => rfl⟩, ⟨hdec, nofun⟩,
    ⟨Nat.two_pow_pos _, Nat.two_pow_pos _, reset_tbBuf_wf⟩, hrsp⟩

/-! ### The commands -/

theorem keepsInvariant_execCcommit {s : State} (hs : Invariant s) : KeepsInvariant (execCcommit s) := by
  refine keepsInvariant_ite (fun _ => keepsInvariant_reject hs) fun hclosed => ?_
  refine keepsInvariant_ite (fun _ => keepsInvariant_reject hs) fun hvalid => ?_
  refine keepsInvariant_ite (fun _ => keepsInvariant_reject hs) fun hfits => keepsInvariant_ok ?_
  exact hs.setCfg (Bool.eq_false_iff.2 hclosed)
    (hs.stgOk.cfgOk_builtConfig (Bool.eq_false_iff.2 hvalid) (Nat.not_lt.1 hfits))

theorem keepsInvariant_execEstart {s : State} (hs : Invariant s) : KeepsInvariant (execEstart s) := by
  refine keepsInvariant_ite (fun _ => keepsInvariant_reject hs) fun hready => keepsInvariant_ok (hs.setEnc ?_)
  have hvalid : s.cfg.cfgValid = true := Bool.eq_true_of_not_eq_false fun h => hready (.inl h)
  exact ⟨fun _ => ⟨hvalid, Nat.two_pow_pos _⟩, fun _ => rfl⟩

theorem keepsInvariant_execEbit (b : Bool) {s : State} (hs : Invariant s) : KeepsInvariant (execEbit b s) := by
  refine keepsInvariant_ite (fun _ => keepsInvariant_reject hs) fun hopen => keepsInvariant_ok (hs.setEnc ?_)
  obtain ⟨-, -, -, ⟨hactive, -⟩, -⟩ := hs
  refine ⟨fun h => ⟨(hactive h).1, toNat_ofNat_lt (s.cfg.codec.shift_lt _ b)⟩, fun h => absurd h hopen⟩

theorem keepsInvariant_execEend {s : State} (hs : Invariant s) : KeepsInvariant (execEend s) :=
  keepsInvariant_ite (fun _ => keepsInvariant_reject hs) fun _ =>
    keepsInvariant_ok (hs.setEnc ⟨nofun, fun _ => rfl⟩)

theorem keepsInvariant_execDhbit (b : Bool) {s : State} (hs : Invariant s) : KeepsInvariant (execDhbit b s) := by
  refine keepsInvariant_ite (fun _ => keepsInvariant_reject hs) fun hidle => keepsInvariant_ok (hs.setDec ?_)
  exact hs.decOk.dhbit hs.params_valid hidle b

theorem Invariant.hintCleared {s : State} (hs : Invariant s) : Invariant (hintCleared s) :=
  hs.setDec hs.decOk.clearHint

theorem keepsInvariant_execDstart (h : Bool) (l : BitVec 27) {s : State} (hs : Invariant s) :
    KeepsInvariant (execDstart h l s) := by
  refine keepsInvariant_ite (fun _ => keepsInvariant_reject hs) fun hready => ?_
  refine keepsInvariant_ite (fun _ => keepsInvariant_reject hs.hintCleared) fun _ => ?_
  refine keepsInvariant_ite (fun _ => keepsInvariant_reject hs.hintCleared) fun hlen => ?_
  refine keepsInvariant_ite (fun _ => keepsInvariant_reject hs.hintCleared) fun hfits => keepsInvariant_ok ?_
  refine hs.setDec ?_
  have hf : (if h then s.dec.hint else 0).toNat < 2 ^ s.cfg.K := by
    split
    · exact hint_lt_of_invariant hs (not_not.1 fun hne => hlen ⟨‹_›, hne⟩)
    · exact Nat.two_pow_pos _
  have hvalid : s.cfg.cfgValid = true := Bool.eq_true_of_not_eq_false fun h => hready (.inl h)
  obtain ⟨hmax, hnode⟩ := not_or.1 hfits
  obtain ⟨-, hcfg, -, -, hdec, -⟩ := hs
  exact hdec.openCall hcfg hvalid (Nat.not_lt.1 hmax) (Nat.not_lt.1 hnode) h hf

theorem keepsInvariant_execDsoft (o : BitVec 8) {s : State} (hs : Invariant s) : KeepsInvariant (execDsoft o s) := by
  refine keepsInvariant_ite (fun _ => keepsInvariant_reject hs) fun hopen => ?_
  obtain ⟨hactive, hC⟩ := not_or.1 hopen
  have h := InCall.of_invariant hs hactive
  refine keepsInvariant_ite (fun hG => ?_) fun hG => ?_
  · exact keepsInvariant_ok (hs.setDec (hs.decOk.storeObs h.nPoly_le hC hG _))
  · rw [h.acsUpdate_eq _ _ Prod.mk.eta]
    exact keepsInvariant_ok (hs.setDec (hs.decOk.acsStep h.K_pos (DecSt.ne_idle_iff.1 hactive) hC _ _))

theorem keepsInvariant_execDend {s : State} (hs : Invariant s) : KeepsInvariant (execDend s) := by
  refine keepsInvariant_ite (fun _ => keepsInvariant_reject hs) fun _ => keepsInvariant_ok ?_
  obtain ⟨hp, hcfg, hstg, henc, hdec, -, hrsp⟩ := hs
  exact ⟨hp, hcfg, hstg, henc, hdec.release _,
    ⟨unspecAt_tbS_lt _ _, unspecAt_tbC_lt _ _, Memory.wf_nil⟩, hrsp⟩

theorem keepsInvariant_exec (i : Instr) {s : State} (hs : Invariant s) : KeepsInvariant (exec i s) := by
  cases i with
  | cclr => exact keepsInvariant_ok (hs.setStg stgOk_reset)
  | cpoly p =>
    exact keepsInvariant_ite (fun hlt => keepsInvariant_ok (hs.setStg (hs.stgOk.append hlt p)))
      fun hge => keepsInvariant_ok (hs.setStg (hs.stgOk.overflow hge))
  | crev b => exact keepsInvariant_ok (hs.setStg hs.stgOk)
  | ccommit => exact keepsInvariant_execCcommit hs
  | estart => exact keepsInvariant_execEstart hs
  | ebit b => exact keepsInvariant_execEbit b hs
  | eend => exact keepsInvariant_execEend hs
  | dhbit b => exact keepsInvariant_execDhbit b hs
  | dstart h l => exact keepsInvariant_execDstart h l hs
  | dsoft o => exact keepsInvariant_execDsoft o hs
  | dend => exact keepsInvariant_execDend hs
  | stat => exact keepsInvariant_ok hs
  | srst => exact keepsInvariant_ok (invariant_resetRegs hs.params_valid hs.rspOk)

/-- Settles O10: the state after power-on has the registers of a reset, and the default parameters meet R8. -/
theorem invariantHoldsAtReset : Obligations.InvariantHoldsAtReset :=
  invariant_resetRegs (s := State.reset) (by decide) nofun

/-- Settles O11: the waiting words and the reset input are no part of the invariant, and each command, the reset event
and the rejection of an illegal word keep it. -/
theorem everyStepKeepsTheInvariant : Obligations.EveryStepKeepsTheInvariant := by
  intro s t hs hstep
  obtain h | h | ⟨rest, ⟨i, h⟩ | h⟩ := step_cases s
  · obtain rfl := Host.Outcome.next.inj (h.symm.trans hstep)
    exact invariant_resetRegs hs.params_valid hs.rspOk
  · obtain rfl := Host.Outcome.next.inj (h.symm.trans hstep)
    exact hs
  · exact keepsInvariant_exec i (s := { s with cmd := rest }) hs t (h.symm.trans hstep)
  · exact keepsInvariant_reject (c := .protocol) (s := { s with cmd := rest }) hs t (h.symm.trans hstep)

end Sys2Proof.Machine
end

section
/-! PROOFS. The functions of 00_scope.md R12, and flushing the encoder (41_encoder.md R145). -/

namespace Sys2Proof.Machine

open Sys2Proof

/-- The parity of a number of at most `n` bits, as the exclusive or of these bits. -/
theorem parity_eq_foldl {n x : Nat} (h : x < 2 ^ n) :
    parity x = (List.range n).foldl (fun a i => a ^^ x.testBit i) false :=
  (parity_eq_parityBelow h).trans (parityBelow_eq_foldl n x)

theorem testBit_bitrev_of_lt {K x i : Nat} (h : i < K) : (bitrev K x).testBit i = x.testBit (K - 1 - i) := by
  rw [testBit_bitrev, decide_eq_true h, Bool.true_and]

/-- Settles O50: each function by its law for all arguments, and at the values that the rule gives. -/
theorem notationFunctionsComputeWhatTheRuleSays : Obligations.NotationFunctionsComputeWhatTheRuleSays :=
  ⟨fun _ _ => bitlen_le_iff, rfl, rfl, rfl, rfl, rfl, fun _ _ => parity_eq_foldl, rfl, rfl, rfl,
    fun K x => ⟨bitrev_lt K x, fun _ => testBit_bitrev_of_lt⟩, rfl, rfl, by decide,
    fun _ _ => ⟨fun hle => if_pos hle, fun hlt => if_neg (Nat.not_le.2 hlt)⟩⟩

/-- Zeros shift the register: bit `j` after `n` of them is bit `j - n` before them. -/
theorem Codec.testBit_encodeFrom_zeros (c : Codec) {r : Nat} (hr : r < 2 ^ c.K) (n j : Nat) :
    (c.encodeFrom r (List.replicate n false)).1.testBit j =
      (decide (j < c.K) && (decide (n ≤ j) && r.testBit (j - n))) := by
  rw [c.testBit_encodeFrom r _ hr, List.length_replicate]
  by_cases hj : j < n
  · simp [hj, show ¬ n ≤ j by omega, show n - 1 - j < n by omega]
  · simp [hj, show n ≤ j by omega]

/-- Settles O23: after `n` zeros the bits below `n` are 0 and bit 0 of the register has moved to bit `n`. -/
theorem flushBitsClearTheRegister : Obligations.FlushBitsClearTheRegister := by
  refine fun c r hK hr => ⟨Nat.eq_of_testBit_eq fun j => ?_, Nat.eq_of_testBit_eq fun j => ?_⟩
  · rw [c.testBit_encodeFrom_zeros hr, Nat.zero_testBit]
    by_cases hj : j < c.K
    · rw [decide_eq_false (show ¬ c.K ≤ j by omega), Bool.false_and, Bool.and_false]
    · rw [decide_eq_false hj, Bool.false_and]
  · rw [c.testBit_encodeFrom_zeros hr, Nat.testBit_shiftLeft, Nat.testBit_bool_toNat]
    rcases lt_trichotomy j (c.K - 1) with h | rfl | h
    · simp [show ¬ c.K - 1 ≤ j by omega]
    · simp [show c.K - 1 < c.K by omega]
    · simp [show ¬ j < c.K by omega, show j - (c.K - 1) ≠ 0 by omega]

end Sys2Proof.Machine
end

section
/-! PROOFS. The statements of 45_call_contracts.md on `CONFIG` and `CONFIG.REV` (R99, R220) and on `ENCODE` (R100,
R221): what their commands do one after the other. -/

namespace Sys2Proof.Machine

open Sys2Proof

theorem execAll_cons {i : Instr} {s t : State} (h : exec i s = .next t) (is : List Instr) :
    execAll (i :: is) s = execAll is t := by
  rw [execAll, h]

theorem execAll_append_of_next {xs : List Instr} {s t : State} (h : execAll xs s = .next t) (ys : List Instr) :
    execAll (xs ++ ys) s = execAll ys t := by
  rw [execAll_append, h]

theorem execAll_singleton (i : Instr) (s : State) : execAll [i] s = exec i s := by
  obtain ⟨t, ht⟩ := exec_next i s
  rw [execAll_cons ht, execAll, ht]

/-! ### `CONFIG` and `CONFIG.REV` (R99, R220) -/

/-- The staging registers after `CCLR` and one `CPOLY` for each of `ps`, with the flag `rev`. -/
structure Staged (ps : List KWord) (rev : Bool) (g : Staging) : Prop where
  spCount : g.spCount = min ps.length 16
  spOvf : g.spOvf = decide (16 < ps.length)
  sRev : g.sRev = rev
  polys : ps.length ≤ 16 → g.polys = ps

/-- Registers read one by one: one written next to `n` others is read last. -/
theorem map_readReg_writeReg {w n : Nat} (v : Vector (BitVec w) 16) (hn : n < 16) (x : BitVec w) :
    (List.range (n + 1)).map (readReg (writeReg v n x)) = (List.range n).map (readReg v) ++ [x] := by
  have hold : (List.range n).map (readReg (writeReg v n x)) = (List.range n).map (readReg v) :=
    List.map_congr_left fun i hi => by
      rw [readReg_writeReg, if_neg fun hw => absurd hw.1 (Nat.ne_of_gt (List.mem_range.1 hi))]
  rw [List.range_succ, List.map_append, hold, List.map_singleton, readReg_writeReg, if_pos ⟨rfl, hn⟩]

/-- One `CPOLY` more. -/
theorem Staged.exec_cpoly {ps : List KWord} {rev : Bool} {s : State} (h : Staged ps rev s.stg) (p : KWord) :
    ∃ g, exec (.cpoly p) s = .next (acceptedWith 0 { s with stg := g }) ∧ Staged (ps ++ [p]) rev g := by
  obtain ⟨hcount, hovf, hrev, hpolys⟩ := h
  have hlength : (ps ++ [p]).length = ps.length + 1 := List.length_append
  rcases Nat.lt_or_ge s.stg.spCount 16 with hlt | hge
  · refine ⟨_, exec_cpoly_of_lt p hlt, ⟨?_, ?_, hrev, fun _ => ?_⟩⟩
    · show s.stg.spCount + 1 = _
      omega
    · exact hovf.trans (decide_eq_decide.2 (by omega))
    · exact (map_readReg_writeReg _ hlt p).trans (congrArg (· ++ [p]) (hpolys (by omega)))
  · refine ⟨_, exec_cpoly_of_ge p hge, ⟨?_, (decide_eq_true (by omega)).symm, hrev, fun hle => ?_⟩⟩
    · show s.stg.spCount = _
      omega
    · omega

theorem Staged.execAll_cpoly (qs : List KWord) {ps : List KWord} {rev : Bool} {s : State} (h : Staged ps rev s.stg) :
    ∃ g rsp, execAll (qs.map .cpoly) s = .next { s with stg := g, rsp := rsp } ∧ Staged (ps ++ qs) rev g := by
  induction qs generalizing ps s with
  | nil => exact ⟨s.stg, s.rsp, rfl, by rwa [List.append_nil]⟩
  | cons q qs ih =>
    obtain ⟨g, hq, hg⟩ := h.exec_cpoly q
    obtain ⟨g', rsp, hqs, hg'⟩ := ih (s := acceptedWith 0 { s with stg := g }) hg
    exact ⟨g', rsp, (execAll_cons hq _).trans hqs, by rwa [List.append_assoc] at hg'⟩

/-- The commands before `CCOMMIT` stage the list and the flag. -/
theorem execAll_stage (polys : List KWord) (rev : Bool) (s : State) :
    ∃ g rsp, execAll (.cclr :: polys.map .cpoly ++ (if rev then [.crev true] else [])) s =
      .next { s with stg := g, rsp := rsp } ∧ Staged polys rev g := by
  have hclear : exec .cclr s = .next (acceptedWith 0 { s with stg := State.reset.stg }) := respond_ok_zero _
  have hempty : Staged [] false State.reset.stg := ⟨rfl, rfl, rfl, fun _ => rfl⟩
  obtain ⟨g, rsp, hpolys, hg⟩ :=
    Staged.execAll_cpoly polys (s := acceptedWith 0 { s with stg := State.reset.stg }) hempty
  have hstage := (execAll_cons hclear _).trans hpolys
  cases rev with
  | false =>
    refine ⟨g, rsp, ?_, hg⟩
    rw [if_neg Bool.false_ne_true, List.append_nil]
    exact hstage
  | true =>
    obtain ⟨hcount, hovf, -, hlist⟩ := hg
    have hrev := (execAll_append_of_next hstage [.crev true]).trans (execAll_singleton _ _)
    exact ⟨_, _, hrev.trans (respond_ok_zero _), ⟨hcount, hovf, rfl, hlist⟩⟩

/-- The check of the staged list is the one of `construct`. -/
theorem Staged.stagedInvalid_iff {ps : List KWord} {rev : Bool} {g : Staging} (h : Staged ps rev g) :
    stagedInvalid g = true ↔ ps = [] ∨ maxPolys < ps.length ∨ (0 : KWord) ∈ ps := by
  have hempty : ps = [] ↔ g.spCount = 0 := by rw [← List.length_eq_zero_iff, h.spCount]; omega
  rw [Machine.stagedInvalid_iff, hempty, h.spOvf, decide_eq_true_eq]
  refine or_congr_right ?_
  by_cases hle : ps.length ≤ 16
  · rw [← polys_mem, h.polys hle]
  · exact iff_of_true (.inl (Nat.not_le.1 hle)) (.inl (Nat.not_le.1 hle))

/-- The codec of the constructed configuration is that of the staged list. -/
theorem codec_builtConfig {g : Staging} (hle : g.spCount ≤ 16) :
    (builtConfig g).codec = {
      K := bitlen (maxPoly g.polys)
      taps := g.polys.map fun q => effectiveTap g.sRev (bitlen (maxPoly g.polys)) q.toNat } := by
  rw [ActiveConfig.codec, Codec.mk.injEq]
  refine ⟨rfl, ?_⟩
  rw [Staging.polys, List.map_map]
  refine List.map_congr_left fun i hi => ?_
  have hi : i < g.spCount := List.mem_range.1 hi
  rw [readReg_builtConfig g (hi.trans_le hle), if_pos hi]
  rfl

/-- `CCOMMIT` on a staged list answers as `construct` does. -/
theorem Staged.exec_ccommit {ps : List KWord} {rev : Bool} {s : State} (h : Staged ps rev s.stg)
    (hclosed : callOpen s = false) :
    (∀ c, construct s.params ps rev = .ok c →
      exec .ccommit s = .next (acceptedWith c.K { s with cfg := builtConfig s.stg }) ∧
        (builtConfig s.stg).codec = c) ∧
    (∀ code, construct s.params ps rev = .error code →
      exec .ccommit s = .next (rejectedWith (statusCode code).toNat s)) := by
  rw [exec_ccommit_of_closed hclosed, construct]
  by_cases hinvalid : ps = [] ∨ maxPolys < ps.length ∨ (0 : KWord) ∈ ps
  · rw [if_pos hinvalid, if_pos (h.stagedInvalid_iff.2 hinvalid)]
    refine ⟨nofun, ?_⟩
    rintro _ ⟨⟩
    rfl
  have hlength : ps.length ≤ 16 := not_lt.1 fun hlt => hinvalid (.inr (.inl hlt))
  have hcodec := codec_builtConfig (g := s.stg) (by rw [h.spCount]; exact Nat.min_le_right _ _)
  rw [if_neg hinvalid, if_neg (mt h.stagedInvalid_iff.1 hinvalid), h.polys hlength, hcodec, h.polys hlength, h.sRev]
  split
  · refine ⟨nofun, ?_⟩
    rintro _ ⟨⟩
    rfl
  · refine ⟨?_, nofun⟩
    rintro _ ⟨⟩
    exact ⟨rfl, rfl⟩

/-- Settles O52: the commands before `CCOMMIT` stage the list, and `CCOMMIT` constructs from it. -/
theorem configCommandsImplementConstruct : Obligations.ConfigCommandsImplementConstruct := by
  intro s polys rev henc hdec
  obtain ⟨g, rsp, hstage, hg⟩ := execAll_stage polys rev s
  obtain ⟨hok, herror⟩ := Staged.exec_ccommit (s := { s with stg := g, rsp := rsp }) hg (callOpen_false _ henc hdec)
  have hexec : execAll (configCmds polys rev) s = exec .ccommit { s with stg := g, rsp := rsp } := by
    rw [configCmds, execAll_append_of_next hstage, execAll_singleton]
  rw [hexec]
  cases hconstruct : construct s.params polys rev with
  | ok c =>
    obtain ⟨hcommit, hcodec⟩ := hok c hconstruct
    refine ⟨_, hcommit, ?_, nofun, rfl, rfl, rfl, rfl⟩
    rintro _ ⟨⟩
    exact ⟨rfl, hcodec, List.getLast?_concat⟩
  | error code =>
    refine ⟨_, herror code hconstruct, nofun, ?_, rfl, rfl, rfl, rfl⟩
    rintro _ ⟨⟩
    exact ⟨rfl, List.getLast?_concat⟩

/-! ### `ENCODE` (R100, R221) -/

/-- Inside a call the `EBIT` commands emit what `encodeFrom` gives from the register, and leave its register. -/
theorem execAll_ebit (bits : List Bool) {s : State} (hactive : s.enc.encSt = .active) (hS : s.cfg.codec.S ≤ 2 ^ 28) :
    execAll (bits.map .ebit) s = .next { s with
      enc := { R := BitVec.ofNat 28 (s.cfg.codec.encodeFrom s.enc.R.toNat bits).1, encSt := .active }
      encOut := s.encOut ++ (s.cfg.codec.encodeFrom s.enc.R.toNat bits).2
      rsp := s.rsp ++ List.replicate bits.length 0 } := by
  induction bits generalizing s with
  | nil => simp [execAll, Codec.encodeFrom, ← hactive]
  | cons b bs ih =>
    have hreg : (BitVec.ofNat 28 (s.cfg.codec.shift s.enc.R.toNat b)).toNat = s.cfg.codec.shift s.enc.R.toNat b :=
      Nat.mod_eq_of_lt ((s.cfg.codec.shift_lt _ b).trans_le hS)
    refine (execAll_cons (exec_ebit_of_active b hactive) _).trans ((ih ?_ ?_).trans ?_)
    · rfl
    · exact hS
    · simp only [acceptedWith, hreg, Codec.encodeFrom, List.append_assoc, List.length_cons, List.replicate_succ]
      rfl

/-- An idle encoder of the invariant is as `EEND` leaves it. -/
theorem enc_eq_of_idle {s : State} (hs : Invariant s) (hidle : s.enc.encSt = .idle) :
    s.enc = { R := 0, encSt := .idle } := by
  obtain ⟨-, -, -, ⟨-, hR⟩, -⟩ := hs
  rw [← hR hidle, ← hidle]

/-- Settles O53: `ESTART` starts the register at 0, the `EBIT` commands encode from it, and `EEND` restores the idle
encoder. -/
theorem encodeCommandsImplementEncode : Obligations.EncodeCommandsImplementEncode := by
  intro s bits hs hvalid hidle
  refine ⟨?_, by rw [s.cfg.codec.length_encode, s.cfg.codec_k]⟩
  have hopen := exec_estart_of_ready hvalid hidle
  have hbits := execAll_ebit bits (s := acceptedWith 0 { s with enc := { R := 0, encSt := .active } }) rfl
    (show s.cfg.codec.S ≤ 2 ^ 28 from codec_S_le hs)
  obtain ⟨-, heend⟩ := eendClosesTheEncodeCall
  rw [encodeCmds, List.cons_append, execAll_cons hopen, execAll_append_of_next hbits, execAll_singleton,
    (heend _).1 rfl]
  have hcount : List.replicate (bits.length + 2) (0 : Word) = 0 :: List.replicate bits.length 0 ++ [0] := by
    rw [List.replicate_succ, List.replicate_succ', List.cons_append]
  simp only [acceptedWith, ← enc_eq_of_idle hs hidle, hcount, List.append_assoc, List.cons_append]
  rfl

end Sys2Proof.Machine
end

section
/-! PROOFS. The statements of 45_call_contracts.md section 2 on the decoded sequence (R229, R192) and on the final-state
hint (R227). -/

namespace Sys2Proof.Machine

open Sys2Proof

/-! ### The metric of the final state (R191, R227) -/

/-- Without a hint no state of the last column has a lower metric than the final state. -/
theorem Codec.not_lt_finalMetric_none (c : Codec) (soft : List Byte) {x : Nat} (hx : x < c.S) :
    (metricAt (c.lastColumn soft) x).lt (c.finalMetric soft none) = false := by
  obtain ⟨-, hleast, -⟩ := c.leastState_spec (metricAt (c.lastColumn soft))
  exact hleast x hx

/-- The final state is a state, given a hint of `K` bits or none. -/
theorem Codec.finalOf_lt (c : Codec) (soft : List Byte) {hint : Option (List Bool)}
    (hlen : c.hintWrong hint = false) : c.finalOf soft hint < c.S := by
  cases hint with
  | none =>
    obtain ⟨hlt, -, -⟩ := c.leastState_spec (metricAt (c.lastColumn soft))
    exact hlt
  | some h =>
    have hK : h.length = c.K := by simpa [Codec.hintWrong] using hlen
    exact (hintValue_lt h).trans_eq (congrArg (2 ^ ·) hK)

/-- The hinted metric is the unhinted one exactly when no state has a lower one. -/
theorem Codec.finalMetric_eq_none_iff (c : Codec) (soft : List Byte) {h : List Bool} (hlen : h.length = c.K) :
    c.finalMetric soft (some h) = c.finalMetric soft none ↔
      ∀ x < c.S, (metricAt (c.lastColumn soft) x).lt (c.finalMetric soft (some h)) = false := by
  have hhint : c.finalOf soft (some h) < c.S := c.finalOf_lt soft (by simp [Codec.hintWrong, hlen])
  constructor
  · intro heq x hx
    rw [heq]
    exact c.not_lt_finalMetric_none soft hx
  · intro hleast
    exact metric_eq_of_not_lt (c.not_lt_finalMetric_none soft hhint) (hleast _ (c.finalOf_lt soft (hint := none) rfl))

/-- Settles O57: the unhinted final state has the least metric of the column that both read, which is 0 without
noise. -/
theorem hintNeverLowersTheFinalMetric : Obligations.HintNeverLowersTheFinalMetric := by
  refine ⟨fun c soft h _ hlen => ⟨?_, c.finalMetric_eq_none_iff soft hlen⟩, fun c bits hK hk => ⟨?_, ?_⟩⟩
  · exact c.not_lt_finalMetric_none soft (c.finalOf_lt soft (by simp [Codec.hintWrong, hlen]))
  · have hfinal : c.finalReg bits % 2 ^ c.K = c.finalReg bits := Nat.mod_eq_of_lt (c.finalReg_lt bits)
    rw [Codec.finalMetric, Codec.finalOf, hintValue_hintOf, hfinal]
    exact c.metricAt_lastColumn_noiseless hK hk bits
  · obtain ⟨hzero, -⟩ := c.metricAt_leastState_noiseless hK hk bits
    exact hzero

/-! ### The decoded sequence (R192, R229) -/

/-- From a state with a finite metric the walk ends in state 0: it follows finite metrics back to column 0. -/
theorem Codec.walkEnd_forward_eq_zero (c : Codec) (hK : 1 ≤ c.K) (n : Nat) (soft : List Byte) {s m : Nat}
    (h : metricAt (c.forward n c.column0 soft).1 s = .fin m) :
    c.walkEnd (c.forward n c.column0 soft).2.reverse s = 0 := by
  have hs : s < c.S := (metricAt_lt h).trans_eq (c.length_forward_fst n _ soft c.length_column0)
  induction n generalizing s m with
  | zero =>
    rw [Codec.forward, c.metricAt_column0] at h
    split at h
    · assumption
    · cases h
  | succ n ih =>
    rw [c.metricAt_forward_succ n _ _ hs] at h
    obtain ⟨m', hm', -⟩ := c.acsState_fst_eq_fin hK h
    rw [c.forward_succ, List.reverse_concat, Codec.walkEnd, c.getElem?_acsStep _ _ hs, Option.getD_some]
    exact ih hm' (c.predOf_lt hK hs _)

theorem Codec.length_decodeBits (c : Codec) (soft : List Byte) (hint : Option (List Bool)) :
    (c.decodeBits soft hint).length = c.steps soft := by
  rw [Codec.decodeBits, c.length_traceback, List.length_reverse, Codec.decisions, c.length_forward_snd]
  rfl

/-- Every input of `N` bits costs at least the metric of the state it leads to (R178). -/
theorem Codec.exists_fin_le_pathMetric (c : Codec) (hK : 1 ≤ c.K) (soft : List Byte) {bits : List Bool}
    (hlen : bits.length = c.steps soft) :
    ∃ m, metricAt (c.lastColumn soft) (c.finalReg bits) = .fin m ∧ m ≤ c.pathMetric 0 bits soft := by
  have hleast := c.isLeastMetric_forward hK (c.steps soft) soft (c.finalReg_lt bits)
  have hpath : c.pathMetric 0 bits soft ∈ c.pathSums (c.steps soft) soft (c.finalReg bits) := ⟨bits, hlen, rfl, rfl⟩
  cases hmetric : metricAt (c.lastColumn soft) (c.finalReg bits) with
  | fin m => exact ⟨m, rfl, ((hleast.eq_fin_iff m).1 hmetric).2 hpath⟩
  | inf =>
    rw [hleast.eq_inf_iff.1 hmetric] at hpath
    cases hpath

/-- Settles O58: the walk follows the path of the final metric, which is the least of the sums that end in its state;
without a hint no state has a lower metric. -/
theorem decodedSequenceHasLeastMetric : Obligations.DecodedSequenceHasLeastMetric := by
  intro c soft hint m hK hmetric
  obtain ⟨hreg, hsum⟩ := c.finalReg_traceback hK _ _ hmetric
  refine ⟨c.length_decodeBits soft hint, hreg, c.walkEnd_forward_eq_zero hK _ _ hmetric, hsum, ?_, ?_⟩
  · intro bits hlen hfinal
    obtain ⟨m', hm', hle⟩ := c.exists_fin_le_pathMetric hK soft hlen
    obtain rfl : m' = m := Metric.fin.inj (hm'.symm.trans (hfinal ▸ hmetric))
    exact hle
  · rintro rfl bits hlen
    obtain ⟨m', hm', hle⟩ := c.exists_fin_le_pathMetric hK soft hlen
    have hleast := c.not_lt_finalMetric_none soft (c.finalReg_lt bits)
    rw [hmetric, hm', lt_fin_fin, decide_eq_false_iff_not, Nat.not_lt] at hleast
    exact hleast.trans hle

end Sys2Proof.Machine
end

section
/-! PROOFS. The statement of 45_call_contracts.md on `DECODE` (R101, R222): the hint, the opening, the forward pass soft
value by soft value against `Codec.forward`, and the end of the call. -/

namespace Sys2Proof.Machine

open Sys2Proof

/-! ### The forward pass (R164, R165) -/

/-- The decoder `d` has taken the first `m` soft values of `soft` since the call of `s` opened: the completed columns
are those of `Codec.forward`, and the rest of `m` is the group being received. -/
structure InForward (s : State) (soft : List Byte) (m : Nat) (d : Decoder) : Prop where
  run : d.decSt = .run
  sameCall : s.dec.SameCall d
  count : m = d.C * s.cfg.nPoly + d.G
  column : d.pm = (s.cfg.codec.forward d.C s.cfg.codec.column0 soft).1
  decisions : d.survCols d.C = (s.cfg.codec.forward d.C s.cfg.codec.column0 soft).2
  group : (List.range d.G).map (readReg d.obs) = (soft.drop (d.C * s.cfg.nPoly)).take d.G

/-- One soft value more makes the group longer by it. -/
theorem InForward.group_store {s : State} {soft : List Byte} {m : Nat} {d : Decoder} (h : InForward s soft m d)
    (hG : d.G < 16) {o : Byte} (ho : soft[m]? = some o) :
    (List.range (d.G + 1)).map (readReg (writeReg d.obs d.G o)) =
      (soft.drop (d.C * s.cfg.nPoly)).take (d.G + 1) := by
  rw [map_readReg_writeReg _ hG, h.group, List.take_add_one, List.getElem?_drop, ← h.count, ho, Option.toList_some]

/-- The column written last is the newest of the completed ones. -/
theorem Decoder.survCols_write {d d' : Decoder} {n : Nat} {col : List Bool}
    (h : d'.surv = Memory.write d.surv (n + 1) col) : d'.survCols (n + 1) = d.survCols n ++ [col] := by
  have hold : (List.range n).map (fun c => d'.survCol (c + 1)) = d.survCols n :=
    List.map_congr_left fun c hc => by
      have hne : c + 1 ≠ n + 1 := by have := List.mem_range.1 hc; omega
      rw [Decoder.survCol, h, Memory.read?_write_ne _ _ hne, Decoder.survCol]
  have hnew : d'.survCol (n + 1) = col := by
    rw [Decoder.survCol, h, Memory.read?_write_same, Option.getD_some]
  rw [Decoder.survCols, List.range_succ, List.map_append, hold, List.map_singleton, hnew]

/-- `DSOFT` takes the next soft value: it is stored, or it completes a group and with it the next column. -/
theorem InForward.exec_dsoft {s : State} {soft : List Byte} {m : Nat} {d : Decoder} {rsp : List Word}
    (h : InForward s soft m d) (hs : Invariant { s with dec := d, rsp := rsp }) {o : Byte} (ho : soft[m]? = some o)
    (hm : m < s.dec.nReg * s.cfg.nPoly) :
    ∃ d' rsp', exec (.dsoft o) { s with dec := d, rsp := rsp } = .next { s with dec := d', rsp := rsp' } ∧
      InForward s soft (m + 1) d' := by
  have hcall := InCall.of_invariant hs (DecSt.ne_idle_iff.2 h.run)
  have hk : s.cfg.nPoly ≤ 16 := hcall.nPoly_le
  have hG : d.G < s.cfg.nPoly := hcall.G_lt
  have hgroup := h.group_store (by omega) ho
  obtain ⟨hrun, hsame, hcount, hcolumn, hdecisions, -⟩ := h
  have hC : d.C ≠ d.nReg := fun hC => by
    obtain ⟨hN, -, -⟩ := hsame
    rw [hC, hN] at hcount
    omega
  rcases Nat.lt_or_ge (d.G + 1) s.cfg.nPoly with hlt | hge
  · exact ⟨_, _, exec_dsoft_of_lt o hrun hC hlt, ⟨hrun, hsame, by rw [hcount]; rfl, hcolumn, hdecisions, hgroup⟩⟩
  · have hfull : d.G + 1 = s.cfg.nPoly := by omega
    have hnext : (d.C + 1) * s.cfg.nPoly = m + 1 := by rw [Nat.succ_mul, hcount]; omega
    rw [hfull] at hgroup
    have hforward := s.cfg.codec.forward_succ d.C s.cfg.codec.column0 soft
    rw [s.cfg.codec_k, ← hcolumn, ← hgroup, ← hdecisions] at hforward
    refine ⟨_, _, exec_dsoft_of_full o hs hrun hC hfull Prod.mk.eta, ⟨hrun, hsame, hnext.symm, ?_, ?_, rfl⟩⟩
    · exact (congrArg Prod.fst hforward).symm
    · exact (Decoder.survCols_write rfl).trans (congrArg Prod.snd hforward).symm

/-- The commands of a sequence keep the invariant. -/
theorem execAll_invariant {is : List Instr} {s t : State} (hs : Invariant s) (h : execAll is s = .next t) :
    Invariant t := by
  induction is generalizing s with
  | nil =>
    obtain rfl := Host.Outcome.next.inj h
    exact hs
  | cons i is ih =>
    obtain ⟨u, hu⟩ := exec_next i s
    rw [execAll_cons hu] at h
    exact ih (keepsInvariant_exec i hs u hu) h

/-- The `DSOFT` commands of a call take the whole soft stream. -/
theorem InForward.execAll_dsoft {s : State} {soft : List Byte} (hlength : soft.length = s.dec.nReg * s.cfg.nPoly)
    (rest : List Byte) {done : List Byte} (hsoft : soft = done ++ rest) {d : Decoder} {rsp : List Word}
    (h : InForward s soft done.length d) (hs : Invariant { s with dec := d, rsp := rsp }) :
    ∃ d' rsp', execAll (rest.map .dsoft) { s with dec := d, rsp := rsp } = .next { s with dec := d', rsp := rsp' } ∧
      InForward s soft soft.length d' := by
  induction rest generalizing done d rsp with
  | nil =>
    rw [List.append_nil] at hsoft
    exact ⟨d, rsp, rfl, hsoft ▸ h⟩
  | cons o rest ih =>
    have hlen : soft.length = done.length + (rest.length + 1) := by rw [hsoft, List.length_append, List.length_cons]
    have ho : soft[done.length]? = some o := by
      rw [hsoft, List.getElem?_append_right le_rfl, Nat.sub_self, List.getElem?_cons_zero]
    obtain ⟨d₁, rsp₁, hexec, h₁⟩ := h.exec_dsoft hs ho (by omega)
    obtain ⟨d₂, rsp₂, hrest, h₂⟩ := ih (done := done ++ [o]) (by rw [hsoft, List.append_assoc]; rfl)
      (by rwa [List.length_append]) (keepsInvariant_exec _ hs _ hexec)
    exact ⟨d₂, rsp₂, (execAll_cons hexec _).trans hrest, h₂⟩

/-- The call that `DSTART` opens has taken nothing yet. -/
theorem inForward_zero {s : State} (soft : List Byte) (hrun : s.dec.decSt = .run) (hC : s.dec.C = 0) (hG : s.dec.G = 0)
    (hpm : s.dec.pm = s.cfg.codec.column0) : InForward s soft 0 s.dec where
  run := hrun
  sameCall := ⟨rfl, rfl, rfl⟩
  count := by rw [hC, hG, Nat.zero_mul]
  column := by rw [hpm, hC, Codec.forward]
  decisions := by rw [hC]; rfl
  group := by rw [hG]; rfl

/-! ### The end of the call (R190) -/

/-- `HINT_EN` and `FSTATE` stand for the hint of the call (R162). -/
def HasHint (hintEn : Bool) (fState : KWord) : Option (List Bool) → Prop
  | none => hintEn = false
  | some bits => hintEn = true ∧ fState.toNat = hintValue bits

/-- After a stream of `N_REG` groups all columns are completed. -/
theorem InForward.complete {s : State} {soft : List Byte} {d : Decoder} (h : InForward s soft soft.length d)
    (hG : d.G < s.cfg.nPoly) (hlength : soft.length = s.dec.nReg * s.cfg.nPoly) :
    s.cfg.codec.steps soft = d.C ∧ d.C = d.nReg := by
  have hpos : 0 < s.cfg.nPoly := Nat.zero_lt_of_lt hG
  obtain ⟨-, ⟨hN, -, -⟩, hcount, -, -, -⟩ := h
  have hsteps : soft.length / s.cfg.nPoly = d.C := by
    rw [hcount, Nat.mul_comm, Nat.mul_add_div hpos, Nat.div_eq_of_lt hG, Nat.add_zero]
  have hall : soft.length / s.cfg.nPoly = s.dec.nReg := by rw [hlength, Nat.mul_div_cancel _ hpos]
  rw [Codec.steps, s.cfg.codec_k]
  exact ⟨hsteps, (hsteps.symm.trans hall).trans hN.symm⟩

/-- After the whole stream `DEND` emits the bits of `decodeBits` and answers with its final state. -/
theorem InForward.exec_dend {s : State} {soft : List Byte} {d : Decoder} {rsp : List Word}
    (h : InForward s soft soft.length d) (hs : Invariant { s with dec := d, rsp := rsp })
    (hlength : soft.length = s.dec.nReg * s.cfg.nPoly) {hint : Option (List Bool)}
    (hhint : HasHint s.dec.hintEn s.dec.fState hint) :
    exec .dend { s with dec := d, rsp := rsp } = .next (acceptedWith (s.cfg.codec.finalOf soft hint)
      (callClosed (s.cfg.codec.decodeBits soft hint) { s with dec := d, rsp := rsp })) := by
  have hcall := InCall.of_invariant hs (DecSt.ne_idle_iff.2 h.run)
  obtain ⟨hsteps, hcomplete⟩ := h.complete hcall.G_lt hlength
  obtain ⟨hrun, ⟨-, hhintEn, hfState⟩, -, hcolumn, hdecisions, -⟩ := h
  have hcols : d.survCols d.nReg = s.cfg.codec.decisions soft := by
    rw [← hcomplete, hdecisions, Codec.decisions, hsteps]
  have hfinal (u : Unspec) : finalState u { s with dec := d, rsp := rsp } = s.cfg.codec.finalOf soft hint := by
    cases hint with
    | none =>
      rw [hcall.finalState_of_no_hint (hhintEn.trans hhint), Codec.finalOf, Codec.lastColumn, hsteps, ← hcolumn]
    | some bits =>
      obtain ⟨hen, hf⟩ := hhint
      rw [finalState_of_hint (hhintEn.trans hen), Codec.finalOf, ← hf, ← hfState]
  have hS := codec_S_le hs
  have hlt : s.cfg.codec.finalOf soft hint < s.cfg.codec.S := hfinal default ▸ hcall.finalState_lt default
  have hbits (u : Unspec) : decodedBits u { s with dec := d, rsp := rsp } (s.cfg.codec.finalOf soft hint) =
      s.cfg.codec.decodeBits soft hint := by
    rw [hcall.decodedBits_eq_traceback hS hcomplete u hlt, hcols]
    rfl
  have hexec := exec_dend_of_complete (s := { s with dec := d, rsp := rsp }) hrun hcomplete
  rw [hfinal, hbits] at hexec
  exact hexec (hlt.trans_le hS)

/-- The data of a `DECODE`, sent to the call that a `DSTART` has just opened. -/
theorem execAll_decodeDataCmds {n info : Nat} {hintEn : Bool} {fState : KWord} {s : State}
    (hs : Invariant (acceptedWith info (openCall n hintEn fState s))) {soft : List Byte}
    (hlength : soft.length = n * s.cfg.nPoly) {hint : Option (List Bool)} (hhint : HasHint hintEn fState hint) :
    ∃ d rsp, execAll (decodeDataCmds soft) (acceptedWith info (openCall n hintEn fState s)) =
      .next (acceptedWith (s.cfg.codec.finalOf soft hint)
        (callClosed (s.cfg.codec.decodeBits soft hint) { s with dec := d, rsp := rsp })) := by
  have hzero := inForward_zero (s := acceptedWith info (openCall n hintEn fState s)) soft rfl rfl rfl rfl
  obtain ⟨d, rsp, hsofts, hforward⟩ := hzero.execAll_dsoft hlength soft (done := []) (List.nil_append soft).symm hs
  have hdend := hforward.exec_dend (execAll_invariant hs hsofts) hlength hhint
  exact ⟨d, rsp, (execAll_append_of_next hsofts _).trans ((execAll_singleton _ _).trans hdend)⟩

/-! ### The opening of the call (R161, R162) -/

/-- The hint of a call, bit by bit into empty staging. -/
theorem execAll_hint {s : State} (hs : Invariant s) (hidle : s.dec.decSt = .idle) (hlen : s.dec.hLen = 0)
    (bits : List Bool) :
    ∃ (h : KWord) (rsp : List Word), h.toNat = hintValue bits % 2 ^ s.params.kMax ∧
      execAll (bits.map .dhbit) s =
        .next { s with dec := { s.dec with hint := h, hLen := min bits.length 31 }, rsp := rsp } := by
  obtain ⟨⟨-, -, -, -, hwidth, -, -⟩, -⟩ := hs.decOk
  have hempty : s.dec.hint.toNat = 0 % 2 ^ s.params.kMax := by
    rw [hlen, Nat.zero_min, pow_zero] at hwidth
    rw [Nat.zero_mod]
    omega
  obtain ⟨h, hh, hexec⟩ := execAll_dhbit bits hs.params_valid hidle (hlen ▸ Nat.zero_le 31) hempty
  rw [hlen, Nat.zero_add] at hexec
  exact ⟨h, _, hh, hexec⟩

/-- The hint length that `DHBIT` counts tells a hint of `K` bits from any other. -/
theorem Codec.hintWrong_iff (c : Codec) (hK : c.K < 31) (hint : Option (List Bool)) :
    c.hintWrong hint = true ↔ hint.isSome = true ∧ min (hint.getD []).length 31 ≠ c.K := by
  cases hint with
  | none => simp [Codec.hintWrong]
  | some bits =>
    simp only [Codec.hintWrong, bne_iff_ne, Option.isSome_some, Option.getD_some, true_and]
    omega

/-- `DSTART` after the hint checks what `decode` checks, in the same order. -/
theorem exec_dstart_of_hint {s : State} (hs : Invariant s) (hvalid : s.cfg.cfgValid = true)
    (hidle : s.dec.decSt = .idle) {soft : List Byte} (hsoft : soft.length < 2 ^ 27) {hint : Option (List Bool)}
    (hlen : s.dec.hLen = min (hint.getD []).length 31) :
    (∀ out, s.cfg.codec.decode s.params soft hint = .ok out →
      out = s.cfg.codec.decodeBits soft hint ∧ soft.length % s.cfg.codec.k = 0 ∧
        s.cfg.codec.hintWrong hint = false ∧
        exec (.dstart hint.isSome (BitVec.ofNat 27 soft.length)) s = .next (acceptedWith (s.cfg.codec.steps soft)
          (openCall (s.cfg.codec.steps soft) hint.isSome (if hint.isSome then s.dec.hint else 0) (hintCleared s)))) ∧
    ∀ code, s.cfg.codec.decode s.params soft hint = .error code →
      code ≠ .ok ∧ exec (.dstart hint.isSome (BitVec.ofNat 27 soft.length)) s =
        .next (rejectedWith (statusCode code).toNat (hintCleared s)) := by
  have hK : s.cfg.codec.K ≤ 28 := (Nat.pow_le_pow_iff_right (by decide)).1 (codec_S_le hs)
  have hcount : (BitVec.ofNat 27 soft.length).toNat = soft.length := Nat.mod_eq_of_lt hsoft
  have hexec := exec_dstart_of_ready hint.isSome (BitVec.ofNat 27 soft.length) hvalid hidle
  have hsteps : soft.length / s.cfg.codec.k = s.cfg.codec.steps soft := rfl
  have hS : 2 ^ s.cfg.codec.K = s.cfg.codec.S := rfl
  simp only [hcount, hlen, ← s.cfg.codec_k, ← s.cfg.codec_K, hsteps, hS,
    ← s.cfg.codec.hintWrong_iff (by omega)] at hexec
  rw [hexec, Codec.decode]
  by_cases hinput : soft.length % s.cfg.codec.k ≠ 0 ∨ s.cfg.codec.hintWrong hint = true
  · rw [if_pos hinput, if_pos hinput]
    refine ⟨nofun, ?_⟩
    rintro _ ⟨⟩
    exact ⟨nofun, rfl⟩
  rw [if_neg hinput, if_neg hinput]
  obtain ⟨hdiv, hhint⟩ := not_or.1 hinput
  by_cases hcapacity :
    s.params.nMax < s.cfg.codec.steps soft ∨ s.params.nodeMax < s.cfg.codec.steps soft * s.cfg.codec.S
  · rw [if_pos hcapacity, if_pos hcapacity]
    refine ⟨nofun, ?_⟩
    rintro _ ⟨⟩
    exact ⟨nofun, rfl⟩
  · rw [if_neg hcapacity, if_neg hcapacity]
    refine ⟨?_, nofun⟩
    rintro _ ⟨⟩
    exact ⟨rfl, not_not.1 hdiv, Bool.eq_false_iff.2 hhint, rfl⟩

/-- The hint that `DHBIT` staged is the one the call is opened with: `K` bits fit in `K_MAX`. -/
theorem hasHint_of_staged {s : State} (hs : Invariant s) (hvalid : s.cfg.cfgValid = true) {hint : Option (List Bool)}
    (hright : s.cfg.codec.hintWrong hint = false) {h : KWord}
    (hvalue : h.toNat = hintValue (hint.getD []) % 2 ^ s.params.kMax) :
    HasHint hint.isSome (if hint.isSome then h else 0) hint := by
  cases hint with
  | none => exact rfl
  | some bits =>
    obtain ⟨-, ⟨hcfg, -⟩, -⟩ := hs
    obtain ⟨-, -, -, -, -, -, hK, -⟩ := hcfg hvalid
    have hlt : hintValue bits < s.cfg.codec.S := s.cfg.codec.finalOf_lt [] hright
    have hfits : s.cfg.codec.S ≤ 2 ^ s.params.kMax := Nat.pow_le_pow_right (by omega) hK
    exact ⟨rfl, hvalue.trans (Nat.mod_eq_of_lt (hlt.trans_le hfits))⟩

/-- The data of a `DECODE` follow an `OK` only. -/
theorem lastOk_rejectedWith {code : Status} (h : code ≠ .ok) (s : State) :
    lastOk (rejectedWith (statusCode code).toNat s) = false := by
  simp only [lastOk, rejectedWith, List.getLast?_concat]
  revert h
  cases code <;> decide

theorem lastOk_acceptedWith {info : Nat} (h : info < 2 ^ 28) (s : State) : lastOk (acceptedWith info s) = true := by
  simp only [lastOk, acceptedWith, List.getLast?_concat, beq_iff_eq]
  have hop : opField (BitVec.ofNat 32 info) = 0 := by
    apply BitVec.eq_of_toNat_eq
    rw [opField_toNat, BitVec.toNat_ofNat, Nat.mod_eq_of_lt (by omega), Nat.div_eq_of_lt h]
    rfl
  exact hop

/-- `DECODE` as its two parts. -/
theorem runDecode_eq {soft : List Byte} {hint : Option (List Bool)} {s t u : State}
    (hhint : execAll ((hint.getD []).map .dhbit) s = .next t)
    (hstart : exec (.dstart hint.isSome (BitVec.ofNat 27 soft.length)) t = .next u) :
    runDecode soft hint s = if lastOk u then execAll (decodeDataCmds soft) u else .next u := by
  rw [runDecode, decodeOpenCmds, execAll_append_of_next hhint, execAll_singleton, hstart]

/-- Settles O54: the hint is staged, `DSTART` makes the checks of `decode`, and in an accepted call the `DSOFT` commands
run the forward pass and `DEND` the walk. -/
theorem decodeCommandsImplementDecode : Obligations.DecodeCommandsImplementDecode := by
  intro s soft hint hs hvalid hidle hlen hsoft
  obtain ⟨h, rsp, hh, hhint⟩ := execAll_hint hs hidle hlen (hint.getD [])
  have ht := execAll_invariant hs hhint
  obtain ⟨hok, herror⟩ := exec_dstart_of_hint ht hvalid hidle hsoft (hint := hint) rfl
  cases hdecode : s.cfg.codec.decode s.params soft hint with
  | error code =>
    obtain ⟨hcode, hstart⟩ := herror code hdecode
    refine ⟨_, (runDecode_eq hhint hstart).trans (if_neg (by rw [lastOk_rejectedWith hcode]; decide)), nofun, ?_, hidle,
      rfl, rfl, rfl, rfl⟩
    rintro _ ⟨⟩
    exact ⟨rfl, List.getLast?_concat⟩
  | ok out =>
    obtain ⟨rfl, hdiv, hright, hstart⟩ := hok out hdecode
    have hlength : soft.length = s.cfg.codec.steps soft * s.cfg.nPoly := by
      rw [Codec.steps, s.cfg.codec_k, Nat.div_mul_cancel (Nat.dvd_of_mod_eq_zero (s.cfg.codec_k ▸ hdiv))]
    have hsteps : s.cfg.codec.steps soft < 2 ^ 28 := (Nat.div_le_self _ _).trans_lt (hsoft.trans (by decide))
    have hu := keepsInvariant_exec _ ht _ hstart
    have hhas := hasHint_of_staged hs hvalid hright hh
    obtain ⟨d, rsp', hdata⟩ := execAll_decodeDataCmds hu hlength hhas
    refine ⟨_, (runDecode_eq hhint hstart).trans ((if_pos (lastOk_acceptedWith hsteps _)).trans hdata), ?_, nofun,
      rfl, rfl, rfl, rfl, rfl⟩
    rintro _ ⟨⟩
    refine ⟨rfl, ?_, List.getLast?_concat⟩
    rw [s.cfg.codec.length_decodeBits, Codec.steps, s.cfg.codec_k]

end Sys2Proof.Machine
end
